-- ==== Sys2Proof/Word.lean ====
section
/-! DEFINITION. The words of the machine: bytes, vectors and register numbers (spec/00_scope.md R8). -/

namespace Sys2Proof

/-- A byte is 8 bits (R8). -/
abbrev Byte := BitVec 8

/-- The storage of one vector register, or a packed value: 512 bits, the largest MAXVL (R1). Bit 0 is
the least significant bit (R8). -/
abbrev Vec := BitVec 512

/-- A vector register number, assembled from an encoding's fields (R42): at most 5 bits. -/
abbrev VReg := BitVec 5

/-- A general register number (R45): 4 bits. -/
abbrev GReg := BitVec 4

/-- An opmask register number (R13): 3 bits. -/
abbrev KReg := BitVec 3

/-- An address, or a program counter, in 64 bits; AW says how many of them count (R5). -/
abbrev Addr := BitVec 64

end Sys2Proof
end

