-- ==== Sys2Proof/Config.lean ====
section
/-! DEFINITION. The open parameters of the spec (spec/00_scope.md section 4) as plain data, the twelve
form names, and the one free value of the model. -/

namespace Sys2Proof

/-- A vector length in bits: the values of VL (R2) and of MAXVL (R1). -/
inductive VecLen where
  | v128
  | v256
  | v512
  deriving DecidableEq, Repr

/-- The length in bytes. -/
def VecLen.bytes : VecLen → Nat
  | .v128 => 16
  | .v256 => 32
  | .v512 => 64

/-- The length in bits. -/
def VecLen.bits (vl : VecLen) : Nat := 8 * vl.bytes

/-- NVREG, the number of vector registers: 8, 16 or 32 (R3). -/
inductive NumRegs where
  | n8
  | n16
  | n32
  deriving DecidableEq, Repr

/-- NVREG as a number. -/
def NumRegs.count : NumRegs → Nat
  | .n8 => 8
  | .n16 => 16
  | .n32 => 32

/-- AW, the width of an address and of pc: 64 in 64-bit mode, 32 outside it (R5). The model reads the
mode off AW (assumption 3). -/
inductive AddrWidth where
  | w32
  | w64
  deriving DecidableEq, Repr

/-- AW as a number of bits. -/
def AddrWidth.bits : AddrWidth → Nat
  | .w32 => 32
  | .w64 => 64

/-- The number of addresses, 2^AW. -/
def AddrWidth.space (aw : AddrWidth) : Nat := 2 ^ aw.bits

/-- The twelve form names (section 1), the domain of `FormEnabled` (R6). -/
inductive Form where
  | packsswbSse128
  | packssdwSse128
  | vpacksswbVex128
  | vpackssdwVex128
  | vpacksswbVex256
  | vpackssdwVex256
  | vpacksswbEvex128
  | vpacksswbEvex256
  | vpacksswbEvex512
  | vpackssdwEvex128
  | vpackssdwEvex256
  | vpackssdwEvex512
  deriving DecidableEq, Repr

/-- All twelve, in the opcode table's order. -/
def Form.all : List Form :=
  [.packsswbSse128, .packssdwSse128, .vpacksswbVex128, .vpackssdwVex128, .vpacksswbVex256,
   .vpackssdwVex256, .vpacksswbEvex128, .vpacksswbEvex256, .vpacksswbEvex512, .vpackssdwEvex128,
   .vpackssdwEvex256, .vpackssdwEvex512]

/-- VL of a form (R2). -/
def Form.vl : Form → VecLen
  | .packsswbSse128 | .packssdwSse128 => .v128
  | .vpacksswbVex128 | .vpackssdwVex128 => .v128
  | .vpacksswbVex256 | .vpackssdwVex256 => .v256
  | .vpacksswbEvex128 | .vpackssdwEvex128 => .v128
  | .vpacksswbEvex256 | .vpackssdwEvex256 => .v256
  | .vpacksswbEvex512 | .vpackssdwEvex512 => .v512

/-- The three encoding classes of the forms (spec/INDEX.md, "The twelve forms and their rules"). -/
inductive EncClass where
  | legacy
  | vex
  | evex
  deriving DecidableEq, Repr

/-- The encoding class of a form. -/
def Form.encClass : Form → EncClass
  | .packsswbSse128 | .packssdwSse128 => .legacy
  | .vpacksswbVex128 | .vpackssdwVex128 | .vpacksswbVex256 | .vpackssdwVex256 => .vex
  | .vpacksswbEvex128 | .vpacksswbEvex256 | .vpacksswbEvex512 => .evex
  | .vpackssdwEvex128 | .vpackssdwEvex256 | .vpackssdwEvex512 => .evex

/-- The configuration: what is fixed for a whole run (R1, R3, R5, R6, R7, R83). It stands in State, so
that a statement about every state is a statement about every configuration (assumption 2). -/
structure Config where
  /-- MAXVL (R1). -/
  maxvl : VecLen
  /-- NVREG (R3). -/
  nvreg : NumRegs
  /-- AW, and with it the mode (R5, R49). -/
  aw : AddrWidth
  /-- The forms the processor has and the operating system has enabled (R6). -/
  enabled : List Form
  /-- `AlignCheck` (R7). -/
  alignCheck : Bool
  /-- `NM_condition` (R83). -/
  nmCondition : Bool
  deriving DecidableEq, Repr

/-- The launch configuration of `State.reset`. DESIGN CHOICE (assumption 2): the spec leaves MAXVL,
NVREG, AW and `FormEnabled` open; `AlignCheck` and `NM_condition` are at the spec's defaults. -/
def Config.launch : Config :=
  { maxvl := .v512, nvreg := .n32, aw := .w64, enabled := Form.all,
    alignCheck := false, nmCondition := false }

/-- FREE VALUE (assumption 6): what a byte of data memory holds that the launch does not list (R100:
"unspecified"; spec/93_implementation_defined.md U5: any value). -/
opaque Config.launchByte : Nat → Byte

end Sys2Proof
end

