-- ==== Sys2Proof/Machine/Bits.lean ====
section
/-! DEFINITION. Bit fields of packed values: elements of a width, and assembling a value from its
elements (spec/00_scope.md R8). -/

namespace Sys2Proof.Machine

/-- Element e of width w: bits w*e + w - 1 down to w*e (R8). -/
def elem (w e : Nat) (x : Vec) : BitVec w := x.extractLsb' (w * e) w

/-- The value whose elements 0 to n-1 of width w are `f 0` to `f (n-1)`, and 0 above them. -/
def ofElems (w : Nat) : Nat → (Nat → BitVec w) → Vec
  | 0, _ => 0#512
  | n + 1, f => ofElems w n f ||| ((f n).setWidth 512 <<< (w * n))

/-- Bits VL-1:0 of a value, with zeros above: a read of VL bits, and `zext` of a VL-bit value (R8). -/
def lowBits (vl : VecLen) (x : Vec) : Vec := (x.setWidth vl.bits).setWidth 512

/-- Replace bits 127:0 and leave bits 511:128 as they were (R9, `v[i][127:0] <- val`). -/
def setLow128 (old val : Vec) : Vec := old.extractLsb' 128 384 ++ val.extractLsb' 0 128

end Sys2Proof.Machine
end

