-- ==== Sys2Proof/Syntax.lean ====
section
/-! DEFINITION. The decoded instructions: one constructor per row of spec/opcode_table.json
(spec/92_eei_decisions.md D1), over operand types that say what an encoding can name. -/

namespace Sys2Proof

/-- The six segment registers an override can name (R31) or a memory operand uses by default (R45). -/
inductive Seg where
  | cs
  | ss
  | ds
  | es
  | fs
  | gs
  deriving DecidableEq, Repr

/-- The optional bytes before an instruction that every format allows: a segment override and the
address-size override `67` (R31, R32, R33). -/
structure Pfx where
  /-- The segment override, if one is present. -/
  seg : Option Seg
  /-- Whether `67` is present. -/
  a32 : Bool
  deriving DecidableEq, Repr

/-- A displacement that an encoding may leave out: none, 1 byte or 4 bytes (R45). -/
inductive Disp where
  | none
  | d8 (d : BitVec 8)
  | d32 (d : BitVec 32)
  deriving DecidableEq, Repr

/-- A SIB index: a register and the two scale bits (factor 1, 2, 4, 8) (R41). -/
structure Index where
  reg : GReg
  scale : BitVec 2
  deriving DecidableEq, Repr

/-- The ways a memory operand gives its address: the rows of R45's table. -/
inductive AddrMode where
  /-- No SIB byte: a base register and a displacement. -/
  | base (b : GReg) (d : Disp)
  /-- SIB with a base. -/
  | sib (b : GReg) (idx : Option Index) (d : Disp)
  /-- SIB without a base (mod = 00 and SIB.base = 101). -/
  | sibNoBase (idx : Option Index) (d : BitVec 32)
  /-- mod = 00 and rm = 101: RIP-relative in 64-bit mode (R45), absolute in 32-bit mode (R49). -/
  | disp32 (d : BitVec 32)
  deriving DecidableEq, Repr

/-- The last operand of every form but EVEX VPACKSSDW: a vector register or memory (R40). -/
inductive RegMem where
  | reg (r : VReg)
  | mem (m : AddrMode)
  deriving DecidableEq, Repr

/-- The last operand of EVEX VPACKSSDW: a register, full-width memory, or the 32-bit broadcast (R38). -/
inductive RegMemBcst where
  | reg (r : VReg)
  | mem (m : AddrMode)
  | bcst (m : AddrMode)
  deriving DecidableEq, Repr

/-- A plain last operand seen among those that may broadcast. -/
def RegMem.toBcst : RegMem → RegMemBcst
  | .reg r => .reg r
  | .mem m => .mem m

/-- The write mask of an EVEX form (R38, R39): none (aaa = 000, z = 0), or an opmask register with
merging (z = 0) or zeroing (z = 1). -/
inductive Writemask where
  | none
  | merging (k : KReg)
  | zeroing (k : KReg)
  deriving DecidableEq, Repr

/-- The twelve instructions, in the opcode table's order. `p` holds the optional leading bytes, `rex`
says that a REX byte is present, `vex3` that the three-byte VEX form is used (both count in the
length, R47); `d` is DEST, `s1` SRC1, `src`/`src2` the last operand, `wm` the write mask. -/
inductive Instr where
  /-- `PACKSSWB xmm1, xmm2/m128` (R60). -/
  | packsswbSse128 (p : Pfx) (rex : Bool) (d : VReg) (src : RegMem)
  /-- `PACKSSDW xmm1, xmm2/m128` (R61). -/
  | packssdwSse128 (p : Pfx) (rex : Bool) (d : VReg) (src : RegMem)
  /-- `VPACKSSWB xmm1, xmm2, xmm3/m128` (R62). -/
  | vpacksswbVex128 (p : Pfx) (vex3 : Bool) (d s1 : VReg) (src2 : RegMem)
  /-- `VPACKSSDW xmm1, xmm2, xmm3/m128` (R63). -/
  | vpackssdwVex128 (p : Pfx) (vex3 : Bool) (d s1 : VReg) (src2 : RegMem)
  /-- `VPACKSSWB ymm1, ymm2, ymm3/m256` (R64). -/
  | vpacksswbVex256 (p : Pfx) (vex3 : Bool) (d s1 : VReg) (src2 : RegMem)
  /-- `VPACKSSDW ymm1, ymm2, ymm3/m256` (R65). -/
  | vpackssdwVex256 (p : Pfx) (vex3 : Bool) (d s1 : VReg) (src2 : RegMem)
  /-- `VPACKSSWB xmm1 {k1}{z}, xmm2, xmm3/m128` (R68). -/
  | vpacksswbEvex128 (p : Pfx) (wm : Writemask) (d s1 : VReg) (src2 : RegMem)
  /-- `VPACKSSWB ymm1 {k1}{z}, ymm2, ymm3/m256` (R69). -/
  | vpacksswbEvex256 (p : Pfx) (wm : Writemask) (d s1 : VReg) (src2 : RegMem)
  /-- `VPACKSSWB zmm1 {k1}{z}, zmm2, zmm3/m512` (R70). -/
  | vpacksswbEvex512 (p : Pfx) (wm : Writemask) (d s1 : VReg) (src2 : RegMem)
  /-- `VPACKSSDW xmm1 {k1}{z}, xmm2, xmm3/m128/m32bcst` (R71). -/
  | vpackssdwEvex128 (p : Pfx) (wm : Writemask) (d s1 : VReg) (src2 : RegMemBcst)
  /-- `VPACKSSDW ymm1 {k1}{z}, ymm2, ymm3/m256/m32bcst` (R72). -/
  | vpackssdwEvex256 (p : Pfx) (wm : Writemask) (d s1 : VReg) (src2 : RegMemBcst)
  /-- `VPACKSSDW zmm1 {k1}{z}, zmm2, zmm3/m512/m32bcst` (R73). -/
  | vpackssdwEvex512 (p : Pfx) (wm : Writemask) (d s1 : VReg) (src2 : RegMemBcst)
  deriving DecidableEq, Repr

/-- The form name of an instruction. -/
def Instr.form : Instr → Form
  | .packsswbSse128 .. => .packsswbSse128
  | .packssdwSse128 .. => .packssdwSse128
  | .vpacksswbVex128 .. => .vpacksswbVex128
  | .vpackssdwVex128 .. => .vpackssdwVex128
  | .vpacksswbVex256 .. => .vpacksswbVex256
  | .vpackssdwVex256 .. => .vpackssdwVex256
  | .vpacksswbEvex128 .. => .vpacksswbEvex128
  | .vpacksswbEvex256 .. => .vpacksswbEvex256
  | .vpacksswbEvex512 .. => .vpacksswbEvex512
  | .vpackssdwEvex128 .. => .vpackssdwEvex128
  | .vpackssdwEvex256 .. => .vpackssdwEvex256
  | .vpackssdwEvex512 .. => .vpackssdwEvex512

/-- The optional leading bytes of an instruction. -/
def Instr.pfx : Instr → Pfx
  | .packsswbSse128 p .. | .packssdwSse128 p .. => p
  | .vpacksswbVex128 p .. | .vpackssdwVex128 p .. | .vpacksswbVex256 p ..
  | .vpackssdwVex256 p .. => p
  | .vpacksswbEvex128 p .. | .vpacksswbEvex256 p .. | .vpacksswbEvex512 p .. => p
  | .vpackssdwEvex128 p .. | .vpackssdwEvex256 p .. | .vpackssdwEvex512 p .. => p

/-- DEST's register number (R42). -/
def Instr.dest : Instr → VReg
  | .packsswbSse128 _ _ d _ | .packssdwSse128 _ _ d _ => d
  | .vpacksswbVex128 _ _ d .. | .vpackssdwVex128 _ _ d .. | .vpacksswbVex256 _ _ d ..
  | .vpackssdwVex256 _ _ d .. => d
  | .vpacksswbEvex128 _ _ d .. | .vpacksswbEvex256 _ _ d .. | .vpacksswbEvex512 _ _ d .. => d
  | .vpackssdwEvex128 _ _ d .. | .vpackssdwEvex256 _ _ d .. | .vpackssdwEvex512 _ _ d .. => d

/-- The first source's register number: DEST for a Legacy SSE form, else SRC1 (R42). -/
def Instr.src1 : Instr → VReg
  | .packsswbSse128 _ _ d _ | .packssdwSse128 _ _ d _ => d
  | .vpacksswbVex128 _ _ _ s1 _ | .vpackssdwVex128 _ _ _ s1 _ | .vpacksswbVex256 _ _ _ s1 _
  | .vpackssdwVex256 _ _ _ s1 _ => s1
  | .vpacksswbEvex128 _ _ _ s1 _ | .vpacksswbEvex256 _ _ _ s1 _
  | .vpacksswbEvex512 _ _ _ s1 _ => s1
  | .vpackssdwEvex128 _ _ _ s1 _ | .vpackssdwEvex256 _ _ _ s1 _
  | .vpackssdwEvex512 _ _ _ s1 _ => s1

/-- The last operand of an instruction (R42). -/
def Instr.src2 : Instr → RegMemBcst
  | .packsswbSse128 _ _ _ src | .packssdwSse128 _ _ _ src => src.toBcst
  | .vpacksswbVex128 _ _ _ _ src2 | .vpackssdwVex128 _ _ _ _ src2
  | .vpacksswbVex256 _ _ _ _ src2 | .vpackssdwVex256 _ _ _ _ src2 => src2.toBcst
  | .vpacksswbEvex128 _ _ _ _ src2 | .vpacksswbEvex256 _ _ _ _ src2
  | .vpacksswbEvex512 _ _ _ _ src2 => src2.toBcst
  | .vpackssdwEvex128 _ _ _ _ src2 | .vpackssdwEvex256 _ _ _ _ src2
  | .vpackssdwEvex512 _ _ _ _ src2 => src2

/-- The write mask of an instruction; the Legacy SSE and VEX forms have none (R66). -/
def Instr.writemask : Instr → Writemask
  | .packsswbSse128 .. | .packssdwSse128 .. => .none
  | .vpacksswbVex128 .. | .vpackssdwVex128 .. | .vpacksswbVex256 ..
  | .vpackssdwVex256 .. => .none
  | .vpacksswbEvex128 _ wm .. | .vpacksswbEvex256 _ wm .. | .vpacksswbEvex512 _ wm .. => wm
  | .vpackssdwEvex128 _ wm .. | .vpackssdwEvex256 _ wm .. | .vpackssdwEvex512 _ wm .. => wm

end Sys2Proof
end

