-- ==== Sys2Proof/WellFormed.lean ====
section
/-! DEFINITION. When a term of Instr is spelled by some encoding under a configuration
(spec/30_encoding.md R31 to R33, R39 to R45, R49). -/

namespace Sys2Proof

/-- A SIB index is encodable unless its number is 0100, which means "no index" (R45). -/
def Index.wf (i : Index) : Bool := i.reg ≠ 4#4

/-- The absent index, or an encodable one. -/
def indexWf : Option Index → Bool
  | none => true
  | some i => i.wf

/-- A displacement is present (mod is 01 or 10). -/
def Disp.present : Disp → Bool
  | .none => false
  | .d8 _ | .d32 _ => true

/-- The rows of R45's table that exist: rm = 100 always means SIB; with mod = 00, rm or SIB.base = 101
never names a base. -/
def AddrMode.wf : AddrMode → Bool
  | .base b d => b.setWidth 3 ≠ 4#3 && (d.present || b.setWidth 3 ≠ 5#3)
  | .sib b idx d => indexWf idx && (d.present || b.setWidth 3 ≠ 5#3)
  | .sibNoBase idx _ => indexWf idx
  | .disp32 _ => true

/-- The base-extension bit `Bx` an address needs (R45). -/
def AddrMode.extB : AddrMode → Bool
  | .base b _ | .sib b _ _ => b.getLsbD 3
  | .sibNoBase _ _ | .disp32 _ => false

/-- The extension bit of an optional index. -/
def indexExt : Option Index → Bool
  | none => false
  | some i => i.reg.getLsbD 3

/-- The index-extension bit `Xx` an address needs (R45). -/
def AddrMode.extX : AddrMode → Bool
  | .base _ _ | .disp32 _ => false
  | .sib _ idx _ | .sibNoBase idx _ => indexExt idx

/-- The bit B of the last operand: bit 3 of a register number (R42), or the base's extension bit. -/
def RegMemBcst.extB : RegMemBcst → Bool
  | .reg r => r.getLsbD 3
  | .mem m | .bcst m => m.extB

/-- The bit X of the last operand: bit 4 of a register number (EVEX, R42), or the index's extension
bit. -/
def RegMemBcst.extX : RegMemBcst → Bool
  | .reg r => r.getLsbD 4
  | .mem m | .bcst m => m.extX

/-- The address of a last operand is encodable. -/
def RegMemBcst.addrWf : RegMemBcst → Bool
  | .reg _ => true
  | .mem m | .bcst m => m.wf

/-- A register number exists (R44). -/
def VReg.inFile (c : Config) (r : VReg) : Bool := r.toNat < c.nvreg.count

/-- A register last operand exists (R44). -/
def RegMemBcst.inFile (c : Config) : RegMemBcst → Bool
  | .reg r => VReg.inFile c r
  | .mem _ | .bcst _ => true

/-- A register last operand is one of the sixteen that the Legacy SSE and VEX formats number (R42). -/
def RegMemBcst.low16 : RegMemBcst → Bool
  | .reg r => !r.getLsbD 4
  | .mem _ | .bcst _ => true

/-- DEST, SRC1 and a register last operand exist (R44). -/
def Instr.regsInFile (c : Config) (i : Instr) : Bool :=
  VReg.inFile c i.dest && VReg.inFile c i.src1 && i.src2.inFile c

/-- The extension bits that 32-bit mode does not have are all 0 (R49): register numbers 0 to 7 only,
general and vector, and no `67` (16-bit addressing is refused). -/
def Instr.fits32 (i : Instr) : Bool :=
  !i.pfx.a32 && i.dest.toNat < 8 && i.src1.toNat < 8 && !i.src2.extB && !i.src2.extX

/-- What the instruction's format can spell. LEGACY: 4-bit register numbers; without REX all extension
bits are 0 (R31, R42). VEX: 4-bit register numbers; the two-byte form implies X = B = 0 (R32). EVEX:
a named write mask is k1 to k7 (R39). -/
def Instr.fitsFormat : Instr → Bool
  | .packsswbSse128 _ rex d src | .packssdwSse128 _ rex d src =>
    !d.getLsbD 4 && src.toBcst.low16 &&
      (rex || (!d.getLsbD 3 && !src.toBcst.extB && !src.toBcst.extX))
  | .vpacksswbVex128 _ vex3 d s1 src2 | .vpackssdwVex128 _ vex3 d s1 src2
  | .vpacksswbVex256 _ vex3 d s1 src2 | .vpackssdwVex256 _ vex3 d s1 src2 =>
    !d.getLsbD 4 && !s1.getLsbD 4 && src2.toBcst.low16 &&
      (vex3 || (!src2.toBcst.extB && !src2.toBcst.extX))
  | .vpacksswbEvex128 _ wm .. | .vpacksswbEvex256 _ wm .. | .vpacksswbEvex512 _ wm ..
  | .vpackssdwEvex128 _ wm .. | .vpackssdwEvex256 _ wm .. | .vpackssdwEvex512 _ wm .. =>
    match wm with
    | .none => true
    | .merging k | .zeroing k => k ≠ 0#3

/-- A REX byte exists in 64-bit mode only (R31, R49). -/
def Instr.hasRex : Instr → Bool
  | .packsswbSse128 _ rex _ _ | .packssdwSse128 _ rex _ _ => rex
  | _ => false

/-- Well-formed under a configuration: some encoding of that mode spells the term, and its register
numbers exist. -/
def Instr.wellFormed (c : Config) (i : Instr) : Bool :=
  i.regsInFile c && i.src2.addrWf && i.fitsFormat &&
    (match c.aw with
      | .w64 => true
      | .w32 => i.fits32 && !i.hasRex)

end Sys2Proof
end

