-- ==== Sys2Proof/Decode.lean ====
section
/-! DEFINITION. The byte-level front end: the decoder, total on any bytes and refusing by name, the
length of an instruction, the encoder, and the host's `decodeTableWord` (spec/30_encoding.md). -/

namespace Sys2Proof

/-- Why a byte string is none of the twelve forms: the rows of R48, R31, R44 and R49. Raised by the
decoder only; every one is a refusal, which is safe. -/
inductive DecodeRefusal where
  /-- The bytes end inside the instruction. -/
  | truncated
  /-- A second segment override, address-size or `66` byte (R31: each at most once). -/
  | repeatedPfx
  /-- `F0` before a form (R48). -/
  | lockPfx
  /-- `F2` or `F3` (R31, R48). -/
  | repPfx
  /-- `67` in a 32-bit segment: 16-bit addressing (R49). -/
  | addressSize16
  /-- A REX byte that is not immediately before `0F` (R31), or stands before VEX or EVEX (R48). -/
  | rexPlacement
  /-- `66` before a VEX or EVEX byte (R48). -/
  | opSizeBeforeVex
  /-- `0F 63` or `0F 6B` without `66`: the 64-bit MMX forms, out of scope (R48). -/
  | mmxForm
  /-- An opcode byte of no form in scope. -/
  | otherOpcode (op : Byte)
  /-- VEX `mmmmm` is not 00001, or EVEX `mm` is not 01 (R48). -/
  | otherMap
  /-- VEX or EVEX `pp` is not 01 (R48). -/
  | otherPp
  /-- EVEX P0 bits 3:2 are not 00, or P1 bit 2 is not 1 (R48). -/
  | evexReservedBits
  /-- EVEX `L'L` = 11 (R48). -/
  | evexReservedLength
  /-- EVEX VPACKSSDW with W = 1 (R48). -/
  | evexW1
  /-- EVEX VPACKSSWB with b = 1 (R48). -/
  | evexByteBroadcast
  /-- EVEX VPACKSSDW with b = 1 and a register SRC2 (R48). -/
  | evexRegisterBroadcast
  /-- EVEX with z = 1 and aaa = 000 (R48). -/
  | evexZeroingUnmasked
  /-- 32-bit mode: `C4`, `C5` or `62` that is LES, LDS or BOUND there (R49). -/
  | notVexIn32
  /-- 32-bit mode: a stored-inverted extension bit that is 0 (R49). -/
  | extensionIn32
  /-- A register number at or above NVREG (R44). -/
  | registerOutOfRange
  deriving DecidableEq, Repr

/-! ### Bytes before the opcode -/

/-- What one byte is when it stands among the optional leading bytes (R31, R48). -/
inductive PfxByte where
  | seg (g : Seg)
  | a32
  | op66
  | lock
  | rep
  | other
  deriving DecidableEq, Repr

/-- R31's table of leading bytes, with the refused ones of R48. -/
def pfxByte (b : Byte) : PfxByte :=
  if b = 0x2E#8 then .seg .cs
  else if b = 0x36#8 then .seg .ss
  else if b = 0x3E#8 then .seg .ds
  else if b = 0x26#8 then .seg .es
  else if b = 0x64#8 then .seg .fs
  else if b = 0x65#8 then .seg .gs
  else if b = 0x67#8 then .a32
  else if b = 0x66#8 then .op66
  else if b = 0xF0#8 then .lock
  else if b = 0xF2#8 || b = 0xF3#8 then .rep
  else .other

/-- The leading bytes seen so far. -/
structure PfxAcc where
  pfx : Pfx
  op66 : Bool
  deriving DecidableEq, Repr

/-- Walk the leading bytes, in any order, each at most once (R30, R31). Answers what was seen and the
bytes from the first that is no leading byte. -/
def scanPfx (aw : AddrWidth) (acc : PfxAcc) :
    List Byte → Except DecodeRefusal (PfxAcc × Byte × List Byte)
  | [] => .error .truncated
  | b :: bs =>
    match pfxByte b with
    | .seg g =>
      if acc.pfx.seg.isSome then .error .repeatedPfx
      else scanPfx aw { acc with pfx := { acc.pfx with seg := some g } } bs
    | .a32 =>
      if aw = .w32 then .error .addressSize16
      else if acc.pfx.a32 then .error .repeatedPfx
      else scanPfx aw { acc with pfx := { acc.pfx with a32 := true } } bs
    | .op66 =>
      if acc.op66 then .error .repeatedPfx
      else scanPfx aw { acc with op66 := true } bs
    | .lock => .error .lockPfx
    | .rep => .error .repPfx
    | .other => .ok (acc, b, bs)

/-! ### ModRM, SIB and displacement -/

/-- The last operand as ModRM spells it: the three bits of a register number, or an address. -/
inductive RawRM where
  | reg (rm : BitVec 3)
  | mem (m : AddrMode)
  deriving DecidableEq, Repr

/-- A 4-byte displacement, least significant byte first. -/
def takeD32 : List Byte → Except DecodeRefusal (BitVec 32 × List Byte)
  | b0 :: b1 :: b2 :: b3 :: bs => .ok (b3 ++ b2 ++ b1 ++ b0, bs)
  | _ => .error .truncated

/-- The displacement that `mod` asks for (R45): none, 1 byte or 4 bytes. -/
def takeDisp (mod : BitVec 2) (bs : List Byte) : Except DecodeRefusal (Disp × List Byte) :=
  if mod = 0#2 then .ok (.none, bs)
  else if mod = 1#2 then
    match bs with
    | [] => .error .truncated
    | b :: bs' => .ok (.d8 b, bs')
  else
    match takeD32 bs with
    | .error e => .error e
    | .ok (d, bs') => .ok (.d32 d, bs')

/-- A register number from an extension bit and three field bits (R42, R45). -/
def gregOf (ext : Bool) (f : BitVec 3) : GReg := BitVec.cons ext f

/-- The SIB index; number 0100 is no index (R45). -/
def indexOf (x : Bool) (idx : BitVec 3) (scale : BitVec 2) : Option Index :=
  if gregOf x idx = 4#4 then none else some { reg := gregOf x idx, scale := scale }

/-- The bytes after ModRM when `rm` = 100: SIB (R41) and its displacement (R45). -/
def takeSib (x b : Bool) (mod : BitVec 2) :
    List Byte → Except DecodeRefusal (AddrMode × List Byte)
  | [] => .error .truncated
  | sb :: bs =>
    let idx := indexOf x (sb.extractLsb' 3 3) (sb.extractLsb' 6 2)
    let base := sb.extractLsb' 0 3
    if mod = 0#2 ∧ base = 5#3 then
      match takeD32 bs with
      | .error e => .error e
      | .ok (d, bs') => .ok (.sibNoBase idx d, bs')
    else
      match takeDisp mod bs with
      | .error e => .error e
      | .ok (d, bs') => .ok (.sib (gregOf b base) idx d, bs')

/-- The memory operand of `mod` (not 11) and `rm` (R45's table). -/
def takeMem (x b : Bool) (mod : BitVec 2) (rm : BitVec 3) (bs : List Byte) :
    Except DecodeRefusal (AddrMode × List Byte) :=
  if rm = 4#3 then takeSib x b mod bs
  else if mod = 0#2 ∧ rm = 5#3 then
    match takeD32 bs with
    | .error e => .error e
    | .ok (d, bs') => .ok (.disp32 d, bs')
  else
    match takeDisp mod bs with
    | .error e => .error e
    | .ok (d, bs') => .ok (.base (gregOf b rm) d, bs')

/-- ModRM (R40): the `reg` field, the last operand, and the bytes after it. `x` and `b` are the true
extension bits X and B. -/
def takeModRM (x b : Bool) :
    List Byte → Except DecodeRefusal (BitVec 3 × RawRM × List Byte)
  | [] => .error .truncated
  | m :: bs =>
    let mod := m.extractLsb' 6 2
    let reg := m.extractLsb' 3 3
    let rm := m.extractLsb' 0 3
    if mod = 3#2 then .ok (reg, .reg rm, bs)
    else
      match takeMem x b mod rm bs with
      | .error e => .error e
      | .ok (a, bs') => .ok (reg, .mem a, bs')

/-- A vector register number from two extension bits and three field bits (R42). -/
def vregOf (ext1 ext0 : Bool) (f : BitVec 3) : VReg := BitVec.cons ext1 (BitVec.cons ext0 f)

/-- The last operand, its register number `{x, b, rm}` (R42; `x` is false for LEGACY and VEX). -/
def RawRM.toRegMem (x b : Bool) : RawRM → RegMem
  | .reg rm => .reg (vregOf x b rm)
  | .mem m => .mem m

/-! ### Opcodes and forms -/

/-- The two opcode bytes (R43). -/
inductive PackOp where
  | wb
  | dw
  deriving DecidableEq, Repr

/-- `63` packs words to bytes, `6B` doublewords to words (R43). -/
def packOp (op : Byte) : Option PackOp :=
  if op = 0x63#8 then some .wb else if op = 0x6B#8 then some .dw else none

/-- The last check: every register number is below NVREG (R44). -/
def finish (c : Config) (i : Instr) (bs : List Byte) :
    Except DecodeRefusal (Instr × List Byte) :=
  if i.regsInFile c then .ok (i, bs) else .error .registerOutOfRange

/-- The LEGACY instruction of an opcode. -/
def legacyInstr (op : PackOp) (p : Pfx) (rex : Bool) (d : VReg) (src : RegMem) : Instr :=
  match op with
  | .wb => .packsswbSse128 p rex d src
  | .dw => .packssdwSse128 p rex d src

/-- Format LEGACY after the escape byte `0F` (R31). `rex` is the REX byte, if one is present; its bits
2, 1, 0 are R, X, B, and W is ignored. -/
def decodeLegacy (c : Config) (acc : PfxAcc) (rex : Option Byte) :
    List Byte → Except DecodeRefusal (Instr × List Byte)
  | [] => .error .truncated
  | op :: bs =>
    match packOp op with
    | none => .error (.otherOpcode op)
    | some pk =>
      if !acc.op66 then .error .mmxForm
      else
        let rx := rex.getD 0x40#8
        match takeModRM (rx.getLsbD 1) (rx.getLsbD 0) bs with
        | .error e => .error e
        | .ok (reg, rm, bs') =>
          finish c (legacyInstr pk acc.pfx rex.isSome (vregOf false (rx.getLsbD 2) reg)
            (rm.toRegMem false (rx.getLsbD 0))) bs'

/-- The VEX instruction of an opcode and L. -/
def vexInstr (op : PackOp) (l : Bool) (p : Pfx) (vex3 : Bool) (d s1 : VReg) (src2 : RegMem) :
    Instr :=
  match op, l with
  | .wb, false => .vpacksswbVex128 p vex3 d s1 src2
  | .dw, false => .vpackssdwVex128 p vex3 d s1 src2
  | .wb, true => .vpacksswbVex256 p vex3 d s1 src2
  | .dw, true => .vpackssdwVex256 p vex3 d s1 src2

/-- Format VEX after its prefix (R32): `r`, `x`, `b` are the true extension bits, `v` the true `vvvv`,
`l` and `pp` as stored. -/
def decodeVexBody (c : Config) (p : Pfx) (vex3 r x b : Bool) (v : BitVec 4) (l : Bool)
    (pp : BitVec 2) : List Byte → Except DecodeRefusal (Instr × List Byte)
  | [] => .error .truncated
  | op :: bs =>
    match packOp op with
    | none => .error (.otherOpcode op)
    | some pk =>
      if pp ≠ 1#2 then .error .otherPp
      else
        match takeModRM x b bs with
        | .error e => .error e
        | .ok (reg, rm, bs') =>
          finish c (vexInstr pk l p vex3 (vregOf false r reg) (BitVec.cons false v)
            (rm.toRegMem false b)) bs'

/-- Two-byte VEX, after `C5` (R32; in 32-bit mode R49). -/
def decodeVex2 (c : Config) (p : Pfx) :
    List Byte → Except DecodeRefusal (Instr × List Byte)
  | [] => .error .truncated
  | v1 :: bs =>
    if c.aw = .w32 ∧ v1.extractLsb' 6 2 ≠ 3#2 then .error .notVexIn32
    else
      decodeVexBody c p false (!v1.getLsbD 7) false false (~~~(v1.extractLsb' 3 4))
        (v1.getLsbD 2) (v1.extractLsb' 0 2) bs

/-- Three-byte VEX, after `C4` (R32; in 32-bit mode R49). W is ignored. -/
def decodeVex3 (c : Config) (p : Pfx) :
    List Byte → Except DecodeRefusal (Instr × List Byte)
  | v1 :: v2 :: bs =>
    if c.aw = .w32 ∧ v1.extractLsb' 6 2 ≠ 3#2 then .error .notVexIn32
    else if c.aw = .w32 ∧ (v1.getLsbD 5 = false ∨ v2.getLsbD 6 = false) then
      .error .extensionIn32
    else if v1.extractLsb' 0 5 ≠ 1#5 then .error .otherMap
    else
      decodeVexBody c p true (!v1.getLsbD 7) (!v1.getLsbD 6) (!v1.getLsbD 5)
        (~~~(v2.extractLsb' 3 4)) (v2.getLsbD 2) (v2.extractLsb' 0 2) bs
  | _ => .error .truncated

/-- EVEX `L'L` (R33); 11 is reserved. -/
def evexVl (ll : BitVec 2) : Option VecLen :=
  if ll = 0#2 then some .v128
  else if ll = 1#2 then some .v256
  else if ll = 2#2 then some .v512
  else none

/-- EVEX `z` and `aaa` (R38, R39); zeroing without a mask is reserved (R48). -/
def evexMask (z : Bool) (aaa : KReg) : Option Writemask :=
  if aaa = 0#3 then (if z then none else some .none)
  else if z then some (.zeroing aaa) else some (.merging aaa)

/-- The EVEX VPACKSSWB instruction of a vector length. -/
def evexWb (vl : VecLen) (p : Pfx) (wm : Writemask) (d s1 : VReg) (src2 : RegMem) : Instr :=
  match vl with
  | .v128 => .vpacksswbEvex128 p wm d s1 src2
  | .v256 => .vpacksswbEvex256 p wm d s1 src2
  | .v512 => .vpacksswbEvex512 p wm d s1 src2

/-- The EVEX VPACKSSDW instruction of a vector length. -/
def evexDw (vl : VecLen) (p : Pfx) (wm : Writemask) (d s1 : VReg) (src2 : RegMemBcst) : Instr :=
  match vl with
  | .v128 => .vpackssdwEvex128 p wm d s1 src2
  | .v256 => .vpackssdwEvex256 p wm d s1 src2
  | .v512 => .vpackssdwEvex512 p wm d s1 src2

/-- The last operand of EVEX VPACKSSDW under `EVEX.b` (R38): with b = 1, memory is broadcast and a
register is reserved (R48; spec/90_conflicts.md C4). -/
def RawRM.toBcst (x b bc : Bool) : RawRM → Option RegMemBcst
  | .reg rm => if bc then none else some (.reg (vregOf x b rm))
  | .mem m => some (if bc then .bcst m else .mem m)

/-- The EVEX instruction from its decoded fields (R43), or the row of R48 it falls under. -/
def evexInstr (op : PackOp) (vl : VecLen) (w bc : Bool) (p : Pfx) (wm : Writemask) (d s1 : VReg)
    (x b : Bool) (rm : RawRM) : Except DecodeRefusal Instr :=
  match op with
  | .wb =>
    if bc then .error .evexByteBroadcast
    else .ok (evexWb vl p wm d s1 (rm.toRegMem x b))
  | .dw =>
    if w then .error .evexW1
    else
      match rm.toBcst x b bc with
      | none => .error .evexRegisterBroadcast
      | some src2 => .ok (evexDw vl p wm d s1 src2)

/-- Format EVEX after its prefix bytes (R33). -/
def decodeEvexBody (c : Config) (p : Pfx) (p0 p1 p2 : Byte) :
    List Byte → Except DecodeRefusal (Instr × List Byte)
  | [] => .error .truncated
  | op :: bs =>
    match packOp op, evexVl (p2.extractLsb' 5 2), evexMask (p2.getLsbD 7) (p2.extractLsb' 0 3) with
    | none, _, _ => .error (.otherOpcode op)
    | _, none, _ => .error .evexReservedLength
    | _, _, none => .error .evexZeroingUnmasked
    | some pk, some vl, some wm =>
      let x := !p0.getLsbD 6
      let b := !p0.getLsbD 5
      match takeModRM x b bs with
      | .error e => .error e
      | .ok (reg, rm, bs') =>
        match evexInstr pk vl (p1.getLsbD 7) (p2.getLsbD 4) p wm
            (vregOf (!p0.getLsbD 4) (!p0.getLsbD 7) reg)
            (BitVec.cons (!p2.getLsbD 3) (~~~(p1.extractLsb' 3 4))) x b rm with
        | .error e => .error e
        | .ok i => finish c i bs'

/-- Format EVEX after `62` (R33; in 32-bit mode R49; reserved bits R48). -/
def decodeEvex (c : Config) (p : Pfx) :
    List Byte → Except DecodeRefusal (Instr × List Byte)
  | p0 :: p1 :: p2 :: bs =>
    if c.aw = .w32 ∧ p0.extractLsb' 6 2 ≠ 3#2 then .error .notVexIn32
    else if c.aw = .w32 ∧ (p0.getLsbD 5 = false ∨ p0.getLsbD 4 = false ∨ p1.getLsbD 6 = false ∨
        p2.getLsbD 3 = false) then .error .extensionIn32
    else if p0.extractLsb' 2 2 ≠ 0#2 ∨ p1.getLsbD 2 = false then .error .evexReservedBits
    else if p0.extractLsb' 0 2 ≠ 1#2 then .error .otherMap
    else if p1.extractLsb' 0 2 ≠ 1#2 then .error .otherPp
    else decodeEvexBody c p p0 p1 p2 bs
  | _ => .error .truncated

/-- After the leading bytes: the escape, a REX byte, or a VEX or EVEX prefix (R30). -/
def decodeMain (c : Config) (acc : PfxAcc) (b : Byte) (bs : List Byte) :
    Except DecodeRefusal (Instr × List Byte) :=
  if b = 0x0F#8 then decodeLegacy c acc none bs
  else if c.aw = .w64 ∧ b.extractLsb' 4 4 = 4#4 then
    match bs with
    | [] => .error .truncated
    | e :: bs' => if e = 0x0F#8 then decodeLegacy c acc (some b) bs' else .error .rexPlacement
  else if b = 0xC5#8 ∨ b = 0xC4#8 ∨ b = 0x62#8 then
    if acc.op66 then .error .opSizeBeforeVex
    else if b = 0xC5#8 then decodeVex2 c acc.pfx bs
    else if b = 0xC4#8 then decodeVex3 c acc.pfx bs
    else decodeEvex c acc.pfx bs
  else .error (.otherOpcode b)

/-- The decoder (R30): the instruction the bytes begin with, and the bytes after it, or the named reason
why they spell none of the twelve forms. -/
def decode (c : Config) (bytes : List Byte) : Except DecodeRefusal (Instr × List Byte) :=
  match scanPfx c.aw { pfx := { seg := none, a32 := false }, op66 := false } bytes with
  | .error e => .error e
  | .ok (acc, b, bs) => decodeMain c acc b bs

/-! ### Length (R47) -/

/-- The bytes of a displacement. -/
def Disp.len : Disp → Nat
  | .none => 0
  | .d8 _ => 1
  | .d32 _ => 4

/-- SIB (0 or 1) and displacement (0, 1 or 4) bytes of an address. -/
def AddrMode.len : AddrMode → Nat
  | .base _ d => d.len
  | .sib _ _ d => 1 + d.len
  | .sibNoBase _ _ => 5
  | .disp32 _ => 4

/-- The bytes of the last operand after ModRM. -/
def RegMemBcst.len : RegMemBcst → Nat
  | .reg _ => 0
  | .mem m | .bcst m => m.len

/-- The optional leading bytes: one each. -/
def Pfx.len (p : Pfx) : Nat := (if p.seg.isSome then 1 else 0) + (if p.a32 then 1 else 0)

/-- From the format's own prefix to the opcode, both included: `66 [REX] 0F opc`, 2- or 3-byte VEX and
opc, EVEX and opc. -/
def Instr.headLen : Instr → Nat
  | .packsswbSse128 _ rex _ _ | .packssdwSse128 _ rex _ _ => 3 + (if rex then 1 else 0)
  | .vpacksswbVex128 _ vex3 .. | .vpackssdwVex128 _ vex3 .. | .vpacksswbVex256 _ vex3 ..
  | .vpackssdwVex256 _ vex3 .. => 3 + (if vex3 then 1 else 0)
  | .vpacksswbEvex128 .. | .vpacksswbEvex256 .. | .vpacksswbEvex512 .. => 5
  | .vpackssdwEvex128 .. | .vpackssdwEvex256 .. | .vpackssdwEvex512 .. => 5

/-- `ilen`, the length of an instruction in bytes (R47): leading bytes, head, ModRM, SIB and
displacement. -/
def Instr.len (i : Instr) : Nat := i.pfx.len + i.headLen + 1 + i.src2.len

/-! ### Encoder -/

/-- The byte of a segment override (R31). -/
def Seg.byte : Seg → Byte
  | .cs => 0x2E#8
  | .ss => 0x36#8
  | .ds => 0x3E#8
  | .es => 0x26#8
  | .fs => 0x64#8
  | .gs => 0x65#8

/-- The optional leading bytes, segment override first. -/
def Pfx.encode (p : Pfx) : List Byte :=
  (match p.seg with
    | some g => [g.byte]
    | none => []) ++ (if p.a32 then [0x67#8] else [])

/-- A 4-byte displacement, least significant byte first. -/
def encodeD32 (d : BitVec 32) : List Byte :=
  [d.extractLsb' 0 8, d.extractLsb' 8 8, d.extractLsb' 16 8, d.extractLsb' 24 8]

/-- The displacement's bytes. -/
def Disp.encode : Disp → List Byte
  | .none => []
  | .d8 d => [d]
  | .d32 d => encodeD32 d

/-- The `mod` field a displacement asks for (R45). -/
def Disp.mod : Disp → BitVec 2
  | .none => 0#2
  | .d8 _ => 1#2
  | .d32 _ => 2#2

/-- The SIB byte from scale, index and base bits (R41). -/
def sibByte (idx : Option Index) (base : BitVec 3) : Byte :=
  match idx with
  | none => 0#2 ++ (4#3 ++ base)
  | some i => i.scale ++ (i.reg.setWidth 3 ++ base)

/-- The `mod` field of an address. -/
def AddrMode.mod : AddrMode → BitVec 2
  | .base _ d | .sib _ _ d => d.mod
  | .sibNoBase _ _ | .disp32 _ => 0#2

/-- The `rm` field of an address. -/
def AddrMode.rm : AddrMode → BitVec 3
  | .base b _ => b.setWidth 3
  | .sib _ _ _ | .sibNoBase _ _ => 4#3
  | .disp32 _ => 5#3

/-- SIB and displacement bytes. -/
def AddrMode.tail : AddrMode → List Byte
  | .base _ d => d.encode
  | .sib b idx d => sibByte idx (b.setWidth 3) :: d.encode
  | .sibNoBase idx d => sibByte idx 5#3 :: encodeD32 d
  | .disp32 d => encodeD32 d

/-- ModRM and what follows it, for a DEST with low bits `reg`. -/
def RegMemBcst.encode (reg : BitVec 3) : RegMemBcst → List Byte
  | .reg r => [3#2 ++ (reg ++ r.setWidth 3)]
  | .mem m | .bcst m => (m.mod ++ (reg ++ m.rm)) :: m.tail

/-- A Boolean as one bit. -/
def bit (b : Bool) : BitVec 1 := BitVec.ofBool b

/-- LEGACY bytes (R31). W is written 0. -/
def encodeLegacy (p : Pfx) (rex : Bool) (op : Byte) (d : VReg) (src : RegMemBcst) : List Byte :=
  p.encode ++ [0x66#8] ++
    (if rex then [4#4 ++ (bit false ++ (bit (d.getLsbD 3) ++ (bit src.extX ++ bit src.extB)))]
      else []) ++
    [0x0F#8, op] ++ src.encode (d.setWidth 3)

/-- VEX bytes in two- or three-byte form (R32). W is written 0. -/
def encodeVex (p : Pfx) (vex3 l : Bool) (op : Byte) (d s1 : VReg) (src2 : RegMemBcst) : List Byte :=
  let last : BitVec 7 := ~~~(s1.setWidth 4) ++ (bit l ++ 1#2)
  p.encode ++
    (if vex3 then
      [0xC4#8, bit (!d.getLsbD 3) ++ (bit (!src2.extX) ++ (bit (!src2.extB) ++ 1#5)),
        bit false ++ last]
    else [0xC5#8, bit (!d.getLsbD 3) ++ last]) ++
    [op] ++ src2.encode (d.setWidth 3)

/-- `aaa` of a write mask (R39). -/
def Writemask.aaa : Writemask → KReg
  | .none => 0#3
  | .merging k | .zeroing k => k

/-- `z` of a write mask (R38). -/
def Writemask.z : Writemask → Bool
  | .none | .merging _ => false
  | .zeroing _ => true

/-- `EVEX.b` of a last operand (R38). -/
def RegMemBcst.isBcst : RegMemBcst → Bool
  | .reg _ | .mem _ => false
  | .bcst _ => true

/-- EVEX bytes (R33). W is written 0. -/
def encodeEvex (p : Pfx) (ll : BitVec 2) (op : Byte) (wm : Writemask) (d s1 : VReg)
    (src2 : RegMemBcst) : List Byte :=
  p.encode ++
    [0x62#8,
      bit (!d.getLsbD 3) ++ (bit (!src2.extX) ++ (bit (!src2.extB) ++ (bit (!d.getLsbD 4) ++ 1#4))),
      bit false ++ (~~~(s1.setWidth 4) ++ 5#3),
      bit wm.z ++ (ll ++ (bit src2.isBcst ++ (bit (!s1.getLsbD 4) ++ wm.aaa))),
      op] ++ src2.encode (d.setWidth 3)

/-- The encoder: the bytes of a well-formed instruction, written from R31 to R33 and R38 to R46. -/
def encode : Instr → List Byte
  | .packsswbSse128 p rex d src => encodeLegacy p rex 0x63#8 d src.toBcst
  | .packssdwSse128 p rex d src => encodeLegacy p rex 0x6B#8 d src.toBcst
  | .vpacksswbVex128 p vex3 d s1 src2 => encodeVex p vex3 false 0x63#8 d s1 src2.toBcst
  | .vpackssdwVex128 p vex3 d s1 src2 => encodeVex p vex3 false 0x6B#8 d s1 src2.toBcst
  | .vpacksswbVex256 p vex3 d s1 src2 => encodeVex p vex3 true 0x63#8 d s1 src2.toBcst
  | .vpackssdwVex256 p vex3 d s1 src2 => encodeVex p vex3 true 0x6B#8 d s1 src2.toBcst
  | .vpacksswbEvex128 p wm d s1 src2 => encodeEvex p 0#2 0x63#8 wm d s1 src2.toBcst
  | .vpacksswbEvex256 p wm d s1 src2 => encodeEvex p 1#2 0x63#8 wm d s1 src2.toBcst
  | .vpacksswbEvex512 p wm d s1 src2 => encodeEvex p 2#2 0x63#8 wm d s1 src2.toBcst
  | .vpackssdwEvex128 p wm d s1 src2 => encodeEvex p 0#2 0x6B#8 wm d s1 src2
  | .vpackssdwEvex256 p wm d s1 src2 => encodeEvex p 1#2 0x6B#8 wm d s1 src2
  | .vpackssdwEvex512 p wm d s1 src2 => encodeEvex p 2#2 0x6B#8 wm d s1 src2

/-! ### The opcode table's words -/

/-- The longest byte string the machine ever fetches for one instruction (R30: at most 15 bytes). -/
def maxInstrBytes : Nat := 15

/-- The bytes of a number, most significant byte first: byte k of n bytes is bits 8(n-k)-1 down. -/
def bytesHighFirst (w : Nat) : Nat → List Byte
  | 0 => []
  | n + 1 => BitVec.ofNat 8 (w >>> (8 * n)) :: bytesHighFirst w n

/-- Pad with zero bytes up to the longest instruction. -/
def padZeros (bs : List Byte) : List Byte :=
  bs ++ List.replicate (maxInstrBytes - bs.length) 0#8

/-- The decoder's answer on bytes is an instruction. -/
def decodes (c : Config) (bs : List Byte) : Bool :=
  match decode c bs with
  | .ok _ => true
  | .error _ => false

/-- The bytes of a table word (assumption 20). spec/opcode_table.json writes a row's `match` and `fixed`
as one number whose MOST significant byte is the first byte in address order; where the bytes read so
spell no form, they are read least significant byte first. Every bit above `nbits` is 0. -/
def tableWordBytes (c : Config) (nbits w : Nat) : List Byte :=
  let hi := bytesHighFirst w (nbits / 8)
  if decodes c (padZeros hi) then padZeros hi else padZeros hi.reverse

/-- The instruction the decoder reads from a table word, under the launch configuration. -/
def decodeTableWord (nbits w : Nat) : Option Instr :=
  match decode Config.launch (tableWordBytes Config.launch nbits w) with
  | .ok (i, _) => some i
  | .error _ => none

end Sys2Proof
end

