-- ==== Sys2Proof/Machine/State.lean ====
section
/-! DEFINITION. The state of the machine as plain data, the faults and refusals a step can end in, and
the launch state (spec/10_state.md, spec/60_exceptions.md R80, spec/70_reset_and_hazards.md R100). -/

namespace Sys2Proof.Machine

/-- The fault records of R80. A fault is terminal (R91) and changes nothing (R81). Each is the spec's own
outcome, so each is safe. -/
inductive Fault where
  /-- `UD`: a form whose `FormEnabled` is false; raised by the first check of every form (R82). -/
  | ud
  /-- `NM`: `NM_condition` is true; raised by the second check of every form (R83). -/
  | nm
  /-- `GP(0)`: a Legacy SSE memory operand that is not 16-byte aligned (R84), or the oracle's answer to a
  read through a segment other than SS (R86). -/
  | gp0
  /-- `PF(code)`: the oracle's page fault, with its error code, opaque to the model (R85). The width of 32
  bits is PRESUMED (assumption 9). -/
  | pf (code : BitVec 32)
  /-- `SS(0)`: the oracle's answer to a read through SS where R86 would give `GP(0)` (R87). -/
  | ss0
  /-- `AC(0)`: a misaligned 4-byte broadcast read when `AlignCheck` (R88). -/
  | ac0
  deriving DecidableEq, Repr

/-- Why the model gives no step (R80 (c)). A refusal is safe: no claim can be proved of what follows. -/
inductive Refusal where
  /-- An arm of `exec` without a meaning; no arm of this model answers it. Safe. -/
  | notModelled (mnemonic : String)
  /-- The bytes at pc spell none of the twelve forms; raised by `step` with the decoder's reason (R48, R44).
  Safe. -/
  | encoding (r : DecodeRefusal)
  /-- A term of Instr that no encoding of the mode spells, or whose register numbers do not exist; raised by
  every meaning before its first check (R44, R80 (c), R89). Safe. -/
  | notAForm
  /-- The access would wrap past the top of the address space; raised by `memRead` (R20). Safe. -/
  | addressWraps
  /-- A byte of the operand is not admitted by the launch memory; raised by `memRead` (R26). Safe. -/
  | notAdmitted
  /-- A byte of the operand lies in a region with read side effects; raised by `memRead` (R24). Safe. -/
  | deviceMemory
  /-- A misaligned 16-, 32- or 64-byte read of a VEX or EVEX form under `AlignCheck`; raised by the operand
  read (R23). Safe. -/
  | wideMisaligned
  /-- The instruction lies within 15 bytes of the top of the address space; raised by `step` (R14). Safe. -/
  | programAtTop
  /-- There is no program text at pc; raised by `step` (R106: the model gives no meaning to this fetch).
  Safe. -/
  | noProgramText
  deriving DecidableEq, Repr

/-- What a region of the launch memory is, other than plain memory. -/
inductive RegionKind where
  /-- Addresses the launch memory does not admit (R26). -/
  | unadmitted
  /-- Memory with read side effects (R24). -/
  | device
  /-- The oracle answers `PF(code)` (R85). -/
  | pageFault (code : BitVec 32)
  /-- The oracle answers `SS(0)` or `GP(0)`, by the segment used (R86, R87). -/
  | segFault
  deriving DecidableEq, Repr

/-- One region: the addresses from `base` to `base + size - 1`. -/
structure Region where
  base : Nat
  size : Nat
  kind : RegionKind
  deriving DecidableEq, Repr

/-- One `MemRead` event of the history (R24): the address and the number of bytes. -/
structure ReadEvent where
  addr : Nat
  size : Nat
  deriving DecidableEq, Repr

/-- The bases of the six segment registers (R45, R49), inputs of the effective address only. -/
structure SegBases where
  cs : Addr
  ss : Addr
  ds : Addr
  es : Addr
  fs : Addr
  gs : Addr
  deriving DecidableEq, Repr

/-- The machine's state. -/
structure State where
  /-- The configuration, fixed for the run (R100). -/
  cfg : Config
  /-- `v[0]` to `v[31]` (R10); a register's MAXVL bits are the low ones of its slot (assumption 4). -/
  v : Vector Vec 32
  /-- `k[0]` to `k[7]` (R13). -/
  k : Vector (BitVec 64) 8
  /-- `x[0]` to `x[15]` (R15). -/
  x : Vector (BitVec 64) 16
  /-- The segment bases (R45). -/
  segBase : SegBases
  /-- `pc`, the address of the instruction's first byte (R14). -/
  pc : Addr
  /-- The listed bytes of data memory (R18), addresses strictly rising. -/
  mem : List Host.Cell
  /-- The launch memory's regions (R24, R26, R27); an address in none is plain memory. -/
  regions : List Region
  /-- The program text (R28), addresses strictly rising. -/
  text : List Host.Cell
  /-- The fault record (R100, R106). -/
  faultRecord : Option Fault
  /-- The `MemRead` events so far, newest first (R24). -/
  history : List ReadEvent
  deriving DecidableEq, Repr

/-- The launch state. The spec has no reset event and states no value (R100); `faultRecord` is the spec's
"none". Every other value is a DESIGN CHOICE (assumptions 2, 5, 6, 7, 18). -/
def State.reset : State :=
  { cfg := Config.launch
    v := Vector.replicate 32 0#512
    k := Vector.replicate 8 0#64
    x := Vector.replicate 16 0#64
    segBase := { cs := 0#64, ss := 0#64, ds := 0#64, es := 0#64, fs := 0#64, gs := 0#64 }
    pc := 0#64
    mem := []
    regions := []
    text := []
    faultRecord := none
    history := [] }

/-- The outcome of one execution (R80): completed, faulted or refused. -/
abbrev Outcome := Host.Outcome State Fault Refusal

end Sys2Proof.Machine
end

