-- ==== Sys2Proof/Machine/Flags.lean ====
section
/-! DEFINITION. The predicate state: the opmask of an EVEX form and the masked write
(spec/40_pack_primitives.md R56, spec/43_evex.md R66). No form in scope reads or writes a status flag,
a condition code or MXCSR, so there is nothing else here (spec/10_state.md R16). -/

namespace Sys2Proof.Machine

/-- `m = k[aaa]`, when a write mask is named (R66). -/
def maskValue (s : State) : Writemask → Option (BitVec 64)
  | .none => none
  | .merging k | .zeroing k => some (s.k[k.toNat]'k.isLt)

/-- Destination element j under the mask (R56): written when there is no mask or its bit is 1, else zeroed
or kept. -/
def maskElem (ew : Nat) (old tmp : Vec) (m : Option (BitVec 64)) (zeroing : Bool) (j : Nat) :
    BitVec ew :=
  match m with
  | none => elem ew j tmp
  | some mk => if mk.getLsbD j then elem ew j tmp else if zeroing then 0#ew else elem ew j old

/-- `MaskWrite(old, tmp, usemask, m, zeroing, KL, ew)` (R56), `usemask` being "m is present"; zeros above
bit KL*ew - 1. -/
def maskWrite (ew kl : Nat) (old tmp : Vec) (m : Option (BitVec 64)) (zeroing : Bool) : Vec :=
  ofElems ew kl (maskElem ew old tmp m zeroing)

end Sys2Proof.Machine
end

