-- ==== Sys2Proof/Machine/Ops.lean ====
section
/-! DEFINITION. The named operations over memory and registers, taking a fault, the first checks of
every form, and the program text (spec/10_state.md, spec/20_memory.md, spec/60_exceptions.md). -/

namespace Sys2Proof.Machine

/-! ### Cells: data memory and program text -/

/-- The listed byte at an address, if any. -/
def cellAt : List Host.Cell → Nat → Option Byte
  | [], _ => none
  | (a, b) :: cs, addr => if addr = a then some b else if addr < a then none else cellAt cs addr

/-- List a byte at an address, keeping the addresses strictly rising. An unlisted byte has no listed
value, so no write takes an entry away (assumption 6). -/
def setCell (addr : Nat) (b : Byte) : List Host.Cell → List Host.Cell
  | [] => [(addr, b)]
  | (a, c) :: cs =>
    if addr < a then (addr, b) :: (a, c) :: cs
    else if addr = a then (a, b) :: cs
    else (a, c) :: setCell addr b cs

/-- List bytes at rising addresses from `addr` on. -/
def setCells (addr : Nat) : List Byte → List Host.Cell → List Host.Cell
  | [], cs => cs
  | b :: bs, cs => setCells (addr + 1) bs (setCell addr b cs)

/-- Every listed address is at least `lo`, and they rise strictly. -/
def cellsFrom (lo : Nat) : List Host.Cell → Bool
  | [] => true
  | (a, _) :: cs => lo ≤ a && cellsFrom (a + 1) cs

/-- The canonical form of a list of cells: addresses strictly rising. -/
def cellsWf (cs : List Host.Cell) : Bool := cellsFrom 0 cs

/-- The canonical form of data memory. -/
def Memory.wf (mem : List Host.Cell) : Bool := cellsWf mem

/-! ### Data memory -/

/-- The byte data memory holds at an address: the listed one, else the free launch byte (R18, R100). -/
def readByte (s : State) (a : Nat) : Byte := (cellAt s.mem a).getD (Config.launchByte a)

/-- A region covers an address. -/
def Region.covers (r : Region) (a : Nat) : Bool := r.base ≤ a && a < r.base + r.size

/-- What the launch memory says of an address: the first region that covers it. -/
def regionAt (rs : List Region) (a : Nat) : Option RegionKind :=
  match rs with
  | [] => none
  | r :: rs' => if r.covers a then some r.kind else regionAt rs' a

/-- The first address from `addr`, within n bytes, whose region satisfies p. -/
def firstRegion (p : RegionKind → Bool) (rs : List Region) (addr : Nat) : Nat → Option RegionKind
  | 0 => none
  | n + 1 =>
    match regionAt rs addr with
    | some kd => if p kd then some kd else firstRegion p rs (addr + 1) n
    | none => firstRegion p rs (addr + 1) n

/-- The region is not admitted (R26). -/
def RegionKind.isUnadmitted : RegionKind → Bool
  | .unadmitted => true
  | .device | .pageFault _ | .segFault => false

/-- The region is a device's (R24). -/
def RegionKind.isDevice : RegionKind → Bool
  | .device => true
  | .unadmitted | .pageFault _ | .segFault => false

/-- The oracle answers a segment or canonical-address fault here (R86, R87). -/
def RegionKind.isSegFault : RegionKind → Bool
  | .segFault => true
  | .unadmitted | .device | .pageFault _ => false

/-- The oracle answers a page fault here (R85). -/
def RegionKind.isPageFault : RegionKind → Bool
  | .pageFault _ => true
  | .unadmitted | .device | .segFault => false

/-- How an operand read can stop: with a fault, or with a refusal. -/
inductive Stop where
  | fault (f : Fault)
  | refuse (r : Refusal)
  deriving DecidableEq, Repr

/-- `SS(0)` through SS (R87), `GP(0)` through any other segment (R86). -/
def segFaultOf (g : Seg) : Fault := if g = .ss then .ss0 else .gp0

/-- What the launch memory and the oracle say of n bytes at `addr`, read through segment g: nothing (the
bytes), a refusal (R20, R24, R26) or a fault (R85 to R87), segment faults before page faults (R89,
assumption 7). -/
def accessVerdict (s : State) (g : Seg) (addr n : Nat) : Option Stop :=
  if s.cfg.aw.space < addr + n then some (.refuse .addressWraps)
  else if (firstRegion RegionKind.isUnadmitted s.regions addr n).isSome then
    some (.refuse .notAdmitted)
  else if (firstRegion RegionKind.isDevice s.regions addr n).isSome then
    some (.refuse .deviceMemory)
  else if (firstRegion RegionKind.isSegFault s.regions addr n).isSome then
    some (.fault (segFaultOf g))
  else
    match firstRegion RegionKind.isPageFault s.regions addr n with
    | some (.pageFault code) => some (.fault (.pf code))
    | _ => none

/-- The n bytes at `addr` as one value: the byte at `addr + i` is bits 8i+7:8i (R21). -/
def loadBytes (s : State) (addr n : Nat) : Vec := ofElems 8 n (fun i => readByte s (addr + i))

/-- `MemRead(addr, n)` (R20): the value, with the event in the history (R24), or how the read stops. -/
def memRead (s : State) (g : Seg) (addr n : Nat) : Except Stop (Vec × State) :=
  match accessVerdict s g addr n with
  | some st => .error st
  | none =>
    .ok (loadBytes s addr n, { s with history := { addr := addr, size := n } :: s.history })

/-- `MemWrite(addr, n, val)` (R9), given for completeness: no form in scope writes memory. -/
def memWrite (s : State) (addr n : Nat) (val : Vec) : State :=
  { s with mem := setCells addr ((List.range n).map (fun i => elem 8 i val)) s.mem }

/-! ### Registers -/

/-- `v[i]` (R9). -/
def readV (s : State) (r : VReg) : Vec := s.v[r.toNat]'r.isLt

/-- `v[i] <- val` (R9): all MAXVL bits are written; there are none above them (R10). -/
def writeV (s : State) (r : VReg) (val : Vec) : State :=
  { s with v := s.v.set r.toNat (lowBits s.cfg.maxvl val) r.isLt }

/-- `v[i][127:0] <- val` (R9): bits MAXVL-1:128 stay as they were. -/
def writeVLow128 (s : State) (r : VReg) (val : Vec) : State :=
  writeV s r (setLow128 (readV s r) val)

/-- `x[n]` (R15). -/
def readX (s : State) (r : GReg) : BitVec 64 := s.x[r.toNat]'r.isLt

/-- `pc <- bits_AW(uint(pc) + ilen)` (R14). -/
def advance (s : State) (ilen : Nat) : State :=
  { s with pc := BitVec.ofNat 64 ((s.pc.toNat + ilen) % s.cfg.aw.space) }

/-! ### Faults -/

/-- Taking a fault, one operation for every form (R80 (b), R81, R91): the outcome is `Fault(f)`; nothing
is vectored to, saved or switched, and no register, mask, memory byte or pc changes. -/
def raise (f : Fault) : Outcome := .fault f

/-- The end state of a run whose instruction faulted (R106): the state before that instruction, with
`Fault(f)` recorded. There is no return from a fault (R92). -/
def recordFault (f : Fault) (s : State) : State := { s with faultRecord := some f }

/-- The outcome of a stopped operand read. -/
def Stop.outcome : Stop → Outcome
  | .fault f => raise f
  | .refuse r => .refused r

/-! ### The first checks of every form -/

/-- `FormEnabled(f)` (R6), with its constraint VL(f) <= MAXVL built in (assumption 23). -/
def formEnabled (c : Config) (f : Form) : Bool :=
  c.enabled.contains f && decide (f.vl.bytes ≤ c.maxvl.bytes)

/-- Steps 1 and 2 of R89: `UD`, then `NM`. -/
def firstChecks (c : Config) (f : Form) : Option Fault :=
  if !formEnabled c f then some .ud
  else if c.nmCondition then some .nm
  else none

/-- The term is one that a decoder under this configuration can answer (R44, R48, R80 (c)). -/
def formOk (c : Config) (i : Instr) : Bool := i.wellFormed c

/-! ### Program text -/

/-- Up to n bytes of program text from an address on, ending before the first address without text or at
the top of the address space (R28, R30). -/
def textFrom (s : State) (addr : Nat) : Nat → List Byte
  | 0 => []
  | n + 1 =>
    if addr < s.cfg.aw.space then
      match cellAt s.text addr with
      | none => []
      | some b => b :: textFrom s (addr + 1) n
    else []

/-- The bytes at pc, at most fifteen (R30). -/
def fetch (s : State) : List Byte := textFrom s s.pc.toNat maxInstrBytes

/-- Some byte of an instruction of this length at pc lies within 15 bytes of 2^AW (R14, assumption 17). -/
def nearTop (s : State) (ilen : Nat) : Bool := s.cfg.aw.space ≤ s.pc.toNat + ilen + 14

/-- Place bytes in the program text at pc. -/
def placeText (s : State) (bs : List Byte) : State :=
  { s with text := setCells s.pc.toNat bs s.text }

end Sys2Proof.Machine
end

