-- ==== Sys2Proof/Machine/Pack.lean ====
section
/-! DEFINITION. Signed saturation, lane packing and broadcast
(spec/40_pack_primitives.md R51 to R55). -/

namespace Sys2Proof.Machine

/-- `Sat_N` (R58): the signed value of a 2N-bit vector, clamped to N bits. -/
def satSigned (n : Nat) (x : BitVec (2 * n)) : BitVec n :=
  if x.toInt > 2 ^ (n - 1) - 1 then BitVec.ofInt n (2 ^ (n - 1) - 1)
  else if x.toInt < -2 ^ (n - 1) then BitVec.ofInt n (-2 ^ (n - 1))
  else BitVec.ofInt n x.toInt

/-- `SatSW2SB` (R51): a signed word to a signed byte, clamped to [-128, 127]. -/
def satSW2SB (w : BitVec 16) : BitVec 8 := satSigned 8 w

/-- `SatSD2SW` (R52): a signed doubleword to a signed word, clamped to [-32768, 32767]. -/
def satSD2SW (d : BitVec 32) : BitVec 16 := satSigned 16 d

/-- Destination byte e of `PackWB` (R53): in lane e div 16, positions 0 to 7 come from the words of a's
lane and positions 8 to 15 from those of b's lane. -/
def packWBElem (a b : Vec) (e : Nat) : BitVec 8 :=
  if e % 16 < 8 then satSW2SB (elem 16 (8 * (e / 16) + e % 16) a)
  else satSW2SB (elem 16 (8 * (e / 16) + (e % 16 - 8)) b)

/-- `PackWB(a, b, VL)` (R53), with zeros above bit VL-1. -/
def packWB (vl : VecLen) (a b : Vec) : Vec := ofElems 8 vl.bytes (packWBElem a b)

/-- Destination word e of `PackDW` (R54): in lane e div 8, positions 0 to 3 come from the doublewords of
a's lane and positions 4 to 7 from those of b's lane. -/
def packDWElem (a b : Vec) (e : Nat) : BitVec 16 :=
  if e % 8 < 4 then satSD2SW (elem 32 (4 * (e / 8) + e % 8) a)
  else satSD2SW (elem 32 (4 * (e / 8) + (e % 8 - 4)) b)

/-- `PackDW(a, b, VL)` (R54), with zeros above bit VL-1. -/
def packDW (vl : VecLen) (a b : Vec) : Vec := ofElems 16 (vl.bytes / 2) (packDWElem a b)

/-- `Bcast32(m, VL)` (R55): every doubleword below VL equals m. -/
def bcast32 (vl : VecLen) (m : BitVec 32) : Vec := ofElems 32 (vl.bytes / 4) (fun _ => m)

end Sys2Proof.Machine
end

