-- ==== Sys2Proof/Machine/Operands.lean ====
section
/-! DEFINITION. The effective address and the read of the last operand, in every operand form
(spec/20_memory.md R20 to R27, spec/30_encoding.md R45, R46, R49). -/

namespace Sys2Proof.Machine

/-- The address computation is 32-bit: a `67` prefix in 64-bit mode (R45), or 32-bit mode (R49). -/
def addr32 (s : State) (p : Pfx) : Bool := p.a32 || decide (s.cfg.aw = .w32)

/-- Low 32 bits, zero-extended, when the address computation is 32-bit. -/
def narrow (is32 : Bool) (a : Addr) : Addr := if is32 then (a.setWidth 32).setWidth 64 else a

/-- The displacement: absent 0, an 8-bit one sign-extended and multiplied by N, a 32-bit one
sign-extended (R45, R46). -/
def dispValue (scale : Nat) : Disp → Addr
  | .none => 0#64
  | .d8 d => d.signExtend 64 * BitVec.ofNat 64 scale
  | .d32 d => d.signExtend 64

/-- The scale factor 1, 2, 4 or 8 of two scale bits (R41). -/
def scaleFactor (sc : BitVec 2) : Addr := 1#64 <<< sc.toNat

/-- `index_part * scale` (R45); 0 without an index. -/
def indexValue (s : State) (is32 : Bool) : Option Index → Addr
  | none => 0#64
  | some i => narrow is32 (readX s i.reg) * scaleFactor i.scale

/-- The address before the segment base (R45's table; R49 for 32-bit mode, where mod = 00, rm = 101 is an
absolute disp32). -/
def offsetOf (s : State) (p : Pfx) (ilen scale : Nat) (m : AddrMode) : Addr :=
  let is32 := addr32 s p
  narrow is32
    (match m with
      | .base b d => narrow is32 (readX s b) + dispValue scale d
      | .sib b idx d => narrow is32 (readX s b) + indexValue s is32 idx + dispValue scale d
      | .sibNoBase idx d => indexValue s is32 idx + d.signExtend 64
      | .disp32 d =>
        match s.cfg.aw with
        | .w64 => s.pc + BitVec.ofNat 64 ilen + d.signExtend 64
        | .w32 => d.signExtend 64)

/-- The default segment (R45): SS when the address has the base register RSP or RBP, else DS. -/
def defaultSeg : AddrMode → Seg
  | .base b _ | .sib b _ _ => if b = 4#4 ∨ b = 5#4 then .ss else .ds
  | .sibNoBase _ _ | .disp32 _ => .ds

/-- The segment used: an override replaces the default (R45). -/
def segOf (p : Pfx) (m : AddrMode) : Seg := p.seg.getD (defaultSeg m)

/-- The base a segment adds (R45): in 64-bit mode only FS and GS add one; in 32-bit mode all do (R49). -/
def segBaseOf (s : State) (g : Seg) : Addr :=
  match g with
  | .fs => s.segBase.fs
  | .gs => s.segBase.gs
  | .cs => if s.cfg.aw = .w64 then 0#64 else s.segBase.cs
  | .ss => if s.cfg.aw = .w64 then 0#64 else s.segBase.ss
  | .ds => if s.cfg.aw = .w64 then 0#64 else s.segBase.ds
  | .es => if s.cfg.aw = .w64 then 0#64 else s.segBase.es

/-- `EA(m, s)` (R25, R45): segment base plus offset, modulo 2^AW. -/
def effAddr (s : State) (p : Pfx) (ilen scale : Nat) (m : AddrMode) : Addr :=
  narrow (decide (s.cfg.aw = .w32)) (segBaseOf s (segOf p m) + offsetOf s p ilen scale m)

/-- N, the factor of an 8-bit displacement (R46): 1 for LEGACY and VEX; for EVEX the size of the memory
operand, VL/8 bytes or the 4 bytes of a broadcast. -/
def dispScale (f : Form) (bcst : Bool) : Nat :=
  match f.encClass with
  | .legacy | .vex => 1
  | .evex => if bcst then 4 else f.vl.bytes

/-- The number of bytes a memory operand reads (R22). -/
def operandBytes (f : Form) (bcst : Bool) : Nat := if bcst then 4 else f.vl.bytes

/-- The effective address of a memory operand of an instruction. -/
def operandAddr (i : Instr) (s : State) (bcst : Bool) (m : AddrMode) : Nat :=
  (effAddr s i.pfx i.len (dispScale i.form bcst) m).toNat

/-- The alignment rule of a full-width memory operand, before the read (R23): Legacy SSE needs 16-byte
alignment, else `GP(0)` (R84); VEX and EVEX need none, and are refused when misaligned under
`AlignCheck`. -/
def alignStop (i : Instr) (s : State) (addr : Nat) : Option Stop :=
  match i.form.encClass with
  | .legacy => if addr % 16 ≠ 0 then some (.fault .gp0) else none
  | .vex | .evex =>
    if s.cfg.alignCheck ∧ addr % i.form.vl.bytes ≠ 0 then some (.refuse .wideMisaligned) else none

/-- The VL bits of the last operand (R60 to R73, R67), with the state after the read: a register's low VL
bits; the whole memory operand, whatever the write mask; or the broadcast of one doubleword, whose
misalignment under `AlignCheck` raises `AC(0)` after the read's own faults (R88, R89). -/
def readSrc2 (i : Instr) (s : State) : Except Stop (Vec × State) :=
  match i.src2 with
  | .reg r => .ok (lowBits i.form.vl (readV s r), s)
  | .mem m =>
    let addr := operandAddr i s false m
    match alignStop i s addr with
    | some st => .error st
    | none => memRead s (segOf i.pfx m) addr (operandBytes i.form false)
  | .bcst m =>
    let addr := operandAddr i s true m
    match memRead s (segOf i.pfx m) addr (operandBytes i.form true) with
    | .error st => .error st
    | .ok (m32, s') =>
      if s.cfg.alignCheck ∧ addr % 4 ≠ 0 then .error (.fault .ac0)
      else .ok (bcast32 i.form.vl (m32.setWidth 32), s')

/-- The VL bits of the first source, read before any write (R57): DEST of a Legacy SSE form, else SRC1. -/
def readSrc1 (i : Instr) (s : State) : Vec := lowBits i.form.vl (readV s i.src1)

end Sys2Proof.Machine
end

