-- ==== Sys2Proof/Machine/Exec.lean ====
section
/-! DEFINITION. What the forms of each encoding class share: the order of checks, reads and the one
write (spec/40_pack_primitives.md R57, spec/60_exceptions.md R89). -/

namespace Sys2Proof.Machine

/-- The order every form follows (R57, R89): refused terms; `UD` and `NM`; the sources, all as they were
before the instruction; then `write`, given the first source, the last operand and the state after the
read, does the one register write; then pc advances. -/
def runForm (i : Instr) (s : State) (write : Vec → Vec → State → State) : Outcome :=
  if !formOk s.cfg i then .refused .notAForm
  else
    match firstChecks s.cfg i.form with
    | some f => raise f
    | none =>
      match readSrc2 i s with
      | .error st => st.outcome
      | .ok (b, s') => .next (advance (write (readSrc1 i s) b s') i.len)

/-- A Legacy SSE form (R60, R61): bits 127:0 of DEST are written and the bits above are not. -/
def runLegacy (i : Instr) (pack : VecLen → Vec → Vec → Vec) (s : State) : Outcome :=
  runForm i s (fun a b s' => writeVLow128 s' i.dest (pack i.form.vl a b))

/-- A VEX form (R62 to R65): the result, with zeros up to MAXVL. -/
def runVex (i : Instr) (pack : VecLen → Vec → Vec → Vec) (s : State) : Outcome :=
  runForm i s (fun a b s' => writeV s' i.dest (lowBits i.form.vl (pack i.form.vl a b)))

/-- An EVEX form (R66): the result under the write mask, element width `ew` and KL = VL / ew, with zeros up
to MAXVL. -/
def runEvex (i : Instr) (ew : Nat) (pack : VecLen → Vec → Vec → Vec) (s : State) : Outcome :=
  runForm i s (fun a b s' =>
    writeV s' i.dest
      (lowBits i.form.vl
        (maskWrite ew (i.form.vl.bits / ew) (lowBits i.form.vl (readV s i.dest))
          (pack i.form.vl a b) (maskValue s i.writemask) i.writemask.z)))

end Sys2Proof.Machine
end

