-- ==== Sys2Proof/Machine/Evex.lean ====
section
/-! DEFINITION. The EVEX-encoded forms (spec/43_evex.md R66 to R73). -/

namespace Sys2Proof.Machine

/-- VPACKSSWB.EVEX128 (R68); one mask bit per byte. -/
def execVpacksswbEvex128 (p : Pfx) (wm : Writemask) (d s1 : VReg) (src2 : RegMem) (s : State) :
    Outcome :=
  runEvex (.vpacksswbEvex128 p wm d s1 src2) 8 packWB s

/-- VPACKSSWB.EVEX256 (R69); one mask bit per byte. -/
def execVpacksswbEvex256 (p : Pfx) (wm : Writemask) (d s1 : VReg) (src2 : RegMem) (s : State) :
    Outcome :=
  runEvex (.vpacksswbEvex256 p wm d s1 src2) 8 packWB s

/-- VPACKSSWB.EVEX512 (R70); one mask bit per byte. -/
def execVpacksswbEvex512 (p : Pfx) (wm : Writemask) (d s1 : VReg) (src2 : RegMem) (s : State) :
    Outcome :=
  runEvex (.vpacksswbEvex512 p wm d s1 src2) 8 packWB s

/-- VPACKSSDW.EVEX128 (R71); one mask bit per word. -/
def execVpackssdwEvex128 (p : Pfx) (wm : Writemask) (d s1 : VReg) (src2 : RegMemBcst) (s : State) :
    Outcome :=
  runEvex (.vpackssdwEvex128 p wm d s1 src2) 16 packDW s

/-- VPACKSSDW.EVEX256 (R72); one mask bit per word. -/
def execVpackssdwEvex256 (p : Pfx) (wm : Writemask) (d s1 : VReg) (src2 : RegMemBcst) (s : State) :
    Outcome :=
  runEvex (.vpackssdwEvex256 p wm d s1 src2) 16 packDW s

/-- VPACKSSDW.EVEX512 (R73); one mask bit per word. -/
def execVpackssdwEvex512 (p : Pfx) (wm : Writemask) (d s1 : VReg) (src2 : RegMemBcst) (s : State) :
    Outcome :=
  runEvex (.vpackssdwEvex512 p wm d s1 src2) 16 packDW s

end Sys2Proof.Machine
end

