-- ==== Sys2Proof/Machine/LegacySse.lean ====
section
/-! DEFINITION. The 128-bit Legacy SSE forms (spec/41_legacy_sse.md R60, R61). -/

namespace Sys2Proof.Machine

/-- PACKSSWB.SSE128 (R60). -/
def execPacksswbSse128 (p : Pfx) (rex : Bool) (d : VReg) (src : RegMem) (s : State) : Outcome :=
  runLegacy (.packsswbSse128 p rex d src) packWB s

/-- PACKSSDW.SSE128 (R61). -/
def execPackssdwSse128 (p : Pfx) (rex : Bool) (d : VReg) (src : RegMem) (s : State) : Outcome :=
  runLegacy (.packssdwSse128 p rex d src) packDW s

end Sys2Proof.Machine
end

