-- ==== Sys2Proof/Machine/Vex.lean ====
section
/-! DEFINITION. The VEX-encoded forms (spec/42_vex.md R62 to R65). -/

namespace Sys2Proof.Machine

/-- VPACKSSWB.VEX128 (R62). -/
def execVpacksswbVex128 (p : Pfx) (vex3 : Bool) (d s1 : VReg) (src2 : RegMem) (s : State) :
    Outcome :=
  runVex (.vpacksswbVex128 p vex3 d s1 src2) packWB s

/-- VPACKSSDW.VEX128 (R63). -/
def execVpackssdwVex128 (p : Pfx) (vex3 : Bool) (d s1 : VReg) (src2 : RegMem) (s : State) :
    Outcome :=
  runVex (.vpackssdwVex128 p vex3 d s1 src2) packDW s

/-- VPACKSSWB.VEX256 (R64). -/
def execVpacksswbVex256 (p : Pfx) (vex3 : Bool) (d s1 : VReg) (src2 : RegMem) (s : State) :
    Outcome :=
  runVex (.vpacksswbVex256 p vex3 d s1 src2) packWB s

/-- VPACKSSDW.VEX256 (R65). -/
def execVpackssdwVex256 (p : Pfx) (vex3 : Bool) (d s1 : VReg) (src2 : RegMem) (s : State) :
    Outcome :=
  runVex (.vpackssdwVex256 p vex3 d s1 src2) packDW s

end Sys2Proof.Machine
end

