-- ==== Sys2Proof/Machine/Dispatch.lean ====
section
/-! DEFINITION. One instruction: one arm per constructor of Instr, each one call of its meaning. -/

namespace Sys2Proof.Machine

/-- The outcome of executing one decoded instruction (spec/60_exceptions.md R80). -/
def exec (i : Instr) (s : State) : Host.Outcome State Fault Refusal :=
  match i with
  | .packsswbSse128 p rex d src => Sys2Proof.Machine.execPacksswbSse128 p rex d src s
  | .packssdwSse128 p rex d src => Sys2Proof.Machine.execPackssdwSse128 p rex d src s
  | .vpacksswbVex128 p vex3 d s1 src2 => Sys2Proof.Machine.execVpacksswbVex128 p vex3 d s1 src2 s
  | .vpackssdwVex128 p vex3 d s1 src2 => Sys2Proof.Machine.execVpackssdwVex128 p vex3 d s1 src2 s
  | .vpacksswbVex256 p vex3 d s1 src2 => Sys2Proof.Machine.execVpacksswbVex256 p vex3 d s1 src2 s
  | .vpackssdwVex256 p vex3 d s1 src2 => Sys2Proof.Machine.execVpackssdwVex256 p vex3 d s1 src2 s
  | .vpacksswbEvex128 p wm d s1 src2 => Sys2Proof.Machine.execVpacksswbEvex128 p wm d s1 src2 s
  | .vpacksswbEvex256 p wm d s1 src2 => Sys2Proof.Machine.execVpacksswbEvex256 p wm d s1 src2 s
  | .vpacksswbEvex512 p wm d s1 src2 => Sys2Proof.Machine.execVpacksswbEvex512 p wm d s1 src2 s
  | .vpackssdwEvex128 p wm d s1 src2 => Sys2Proof.Machine.execVpackssdwEvex128 p wm d s1 src2 s
  | .vpackssdwEvex256 p wm d s1 src2 => Sys2Proof.Machine.execVpackssdwEvex256 p wm d s1 src2 s
  | .vpackssdwEvex512 p wm d s1 src2 => Sys2Proof.Machine.execVpackssdwEvex512 p wm d s1 src2 s

end Sys2Proof.Machine
end

