-- ==== Sys2Proof/Machine/Step.lean ====
section
/-! DEFINITION. One step of the machine: fetch, decode and execute the instruction at pc
(spec/20_memory.md R28, R29; spec/60_exceptions.md R80, R91; spec/70_reset_and_hazards.md R106). -/

namespace Sys2Proof.Machine

/-- One step. A recorded fault is terminal (R91). No text at pc, an encoding that is none of the twelve
forms, and an instruction within 15 bytes of the top of the address space are refused (R106, R48, R14). -/
def step (s : State) : Host.Outcome State Fault Refusal :=
  match s.faultRecord with
  | some f => raise f
  | none =>
    match fetch s with
    | [] => .refused .noProgramText
    | b :: bs =>
      match decode s.cfg (b :: bs) with
      | .error r => .refused (.encoding r)
      | .ok (i, _) => if nearTop s i.len then .refused .programAtTop else exec i s

/-- Place the instruction of a table word in the program text at pc, zero bytes up to the longest
instruction after it (assumptions 18, 20). -/
def State.withFetchWord (s : State) (nbits w : Nat) : State :=
  placeText s (tableWordBytes s.cfg nbits w)

end Sys2Proof.Machine
end

