-- ==== Sys2Proof/Safety.lean ====
section
/-! DEFINITION. The terms statements are written in: when an instruction runs, what its operands hold,
what it leaves unchanged, the invariant of the machine, and the run of a program. -/

namespace Sys2Proof.Machine

/-- The one memory access of an execution: segment, address and size (R20, R22). -/
structure MemAccess where
  seg : Seg
  addr : Nat
  size : Nat
  deriving DecidableEq, Repr

/-- The access an instruction makes in a state: none for a register operand, the full VL/8 bytes, or the 4
bytes of a broadcast (R22, R67). -/
def memAccess (i : Instr) (s : State) : Option MemAccess :=
  match i.src2 with
  | .reg _ => none
  | .mem m =>
    some { seg := segOf i.pfx m, addr := operandAddr i s false m, size := i.form.vl.bytes }
  | .bcst m => some { seg := segOf i.pfx m, addr := operandAddr i s true m, size := 4 }

/-- The access does not wrap past the top of the address space (R20). -/
def inSpace (s : State) (a : MemAccess) : Bool := a.addr + a.size ≤ s.cfg.aw.space

/-- Some byte of the access lies in a region of a kind. -/
def touches (p : RegionKind → Bool) (s : State) (a : MemAccess) : Bool :=
  (List.range a.size).any (fun j => (regionAt s.regions (a.addr + j)).any p)

/-- The launch memory gives the bytes of the access a meaning: no wrap, no hole, no device (R20, R24,
R26). -/
def admitted (s : State) (a : MemAccess) : Bool :=
  inSpace s a && !touches RegionKind.isUnadmitted s a && !touches RegionKind.isDevice s a

/-- `MemRead` answers bytes: admitted, and the oracle answers no fault (R20, R27). -/
def readable (s : State) (a : MemAccess) : Bool :=
  admitted s a && !touches RegionKind.isSegFault s a && !touches RegionKind.isPageFault s a

/-- The alignment an access needs to complete (R23): 16 bytes for Legacy SSE; for VEX and EVEX none, unless
`AlignCheck`. -/
def aligned (i : Instr) (s : State) (a : MemAccess) : Bool :=
  match i.form.encClass with
  | .legacy => a.addr % 16 = 0
  | .vex | .evex => !s.cfg.alignCheck || a.addr % a.size = 0

/-- The last operand can be read. -/
def srcReady (i : Instr) (s : State) : Bool :=
  match memAccess i s with
  | none => true
  | some a => aligned i s a && readable s a

/-- The access reaches `MemRead`: the alignment rule that comes before the read lets it through. The rule of a
broadcast comes after the read (R23, R89). -/
def reachesRead (i : Instr) (s : State) (a : MemAccess) : Bool :=
  i.src2.isBcst || aligned i s a

/-- The form is a term of the mode, enabled, and `NM_condition` is false (R101). -/
def available (i : Instr) (s : State) : Bool :=
  i.wellFormed s.cfg && formEnabled s.cfg i.form && !s.cfg.nmCondition

/-- Everything an instruction needs to complete. -/
def runs (i : Instr) (s : State) : Bool := available i s && srcReady i s

/-- A displacement as an integer: 0 when absent, an 8-bit one times N, a 32-bit one as it is (R45, R46). -/
def dispInt (n : Nat) : Disp → Int
  | .none => 0
  | .d8 d => d.toInt * n
  | .d32 d => d.toInt

/-- `index_part * scale` of SIB as an integer, 0 without an index (R41, R45). -/
def indexInt (reg : GReg → Nat) : Option Index → Int
  | none => 0
  | some i => reg i.reg * 2 ^ i.scale.toNat

/-- R45's table, row by row, as an exact integer, before any reduction and before the segment base. `reg` is
what a register reads as, and `rip` what mod = 00, rm = 101 adds the displacement to. -/
def addrSum (reg : GReg → Nat) (rip n : Nat) : AddrMode → Int
  | .base b d => reg b + dispInt n d
  | .sib b idx d => reg b + indexInt reg idx + dispInt n d
  | .sibNoBase idx d => indexInt reg idx + d.toInt
  | .disp32 d => rip + d.toInt

/-- The optional bytes that may lead an instruction (R31): the six segment overrides, `67` and `66`. -/
def leadBytes : List Byte :=
  [0x2E#8, 0x36#8, 0x3E#8, 0x26#8, 0x64#8, 0x65#8, 0x67#8, 0x66#8]

/-- Byte n of the last operand: of the register, of memory, or of the broadcast doubleword (R21, R55). -/
def srcByte (i : Instr) (s : State) (n : Nat) : Byte :=
  match i.src2 with
  | .reg r => elem 8 n (readV s r)
  | .mem m => readByte s (operandAddr i s false m + n)
  | .bcst m => readByte s (operandAddr i s true m + n % 4)

/-- Word u of the last operand, least significant byte first (R21). -/
def srcWord (i : Instr) (s : State) (u : Nat) : BitVec 16 :=
  srcByte i s (2 * u + 1) ++ srcByte i s (2 * u)

/-- Doubleword u of the last operand, least significant byte first (R21). -/
def srcDword (i : Instr) (s : State) (u : Nat) : BitVec 32 :=
  srcByte i s (4 * u + 3) ++ srcByte i s (4 * u + 2) ++ srcByte i s (4 * u + 1) ++ srcByte i s (4 * u)

/-- Byte j of the packed value (R53): lane j div 16; positions 0 to 7 from the first source's words of that
lane, 8 to 15 from the last operand's. -/
def packedByte (i : Instr) (s : State) (j : Nat) : BitVec 8 :=
  if j % 16 < 8 then satSW2SB (elem 16 (8 * (j / 16) + j % 16) (readV s i.src1))
  else satSW2SB (srcWord i s (8 * (j / 16) + (j % 16 - 8)))

/-- Word j of the packed value (R54): lane j div 8; positions 0 to 3 from the first source's doublewords of
that lane, 4 to 7 from the last operand's. -/
def packedWord (i : Instr) (s : State) (j : Nat) : BitVec 16 :=
  if j % 8 < 4 then satSD2SW (elem 32 (4 * (j / 8) + j % 8) (readV s i.src1))
  else satSD2SW (srcDword i s (4 * (j / 8) + (j % 8 - 4)))

/-- What destination element j becomes, given the packed element, under the write mask (R56, R66). -/
def maskedElem (ew : Nat) (i : Instr) (s : State) (j : Nat) (packed : BitVec ew) : BitVec ew :=
  match i.writemask with
  | .none => packed
  | .merging k => if (s.k[k.toNat]'k.isLt).getLsbD j then packed else elem ew j (readV s i.dest)
  | .zeroing k => if (s.k[k.toNat]'k.isLt).getLsbD j then packed else 0#ew

/-- DEST's elements after an instruction that packs words to bytes. -/
def DestBytes (i : Instr) (s t : State) : Prop :=
  ∀ j, j < i.form.vl.bytes →
    elem 8 j (readV t i.dest) = maskedElem 8 i s j (packedByte i s j)

/-- DEST's elements after an instruction that packs doublewords to words. -/
def DestWords (i : Instr) (s t : State) : Prop :=
  ∀ j, j < i.form.vl.bytes / 2 →
    elem 16 j (readV t i.dest) = maskedElem 16 i s j (packedWord i s j)

/-- Bits MAXVL-1:128 of DEST are as they were (R60, R61). -/
def UpperKept (i : Instr) (s t : State) : Prop :=
  ∀ b, 128 ≤ b → b < s.cfg.maxvl.bits →
    (readV t i.dest).getLsbD b = (readV s i.dest).getLsbD b

/-- Every bit of DEST at or above VL is zero (R62 to R66). -/
def UpperZero (i : Instr) (t : State) : Prop :=
  ∀ b, i.form.vl.bits ≤ b → (readV t i.dest).getLsbD b = false

/-- The read events of an execution that completes: the one access, if the operand is memory (R20). -/
def eventsOf (i : Instr) (s : State) : List ReadEvent :=
  match memAccess i s with
  | none => []
  | some a => [{ addr := a.addr, size := a.size }]

/-- `pc` after an instruction that completes (R14). -/
def nextPc (i : Instr) (s : State) : Addr :=
  BitVec.ofNat 64 ((s.pc.toNat + i.len) % s.cfg.aw.space)

/-- The frame of every form: all but DEST, pc and the read history is as it was: every other vector
register, every opmask register, general register and segment base, every byte of memory, the program text,
the launch memory's regions, the configuration and the fault record (R13, R15, R16, R18). -/
structure Frame (i : Instr) (s t : State) : Prop where
  vregs : ∀ r : VReg, r ≠ i.dest → readV t r = readV s r
  opmasks : t.k = s.k
  gregs : t.x = s.x
  bases : t.segBase = s.segBase
  bytes : ∀ a, readByte t a = readByte s a
  listed : t.mem = s.mem
  program : t.text = s.text
  launch : t.regions = s.regions
  config : t.cfg = s.cfg
  record : t.faultRecord = s.faultRecord

/-- What every completion has in common: the frame, the next pc, and the one read event. -/
structure CompletesWith (i : Instr) (s t : State) : Prop where
  frame : Frame i s t
  pc : t.pc = nextPc i s
  events : t.history = eventsOf i s ++ s.history

/-- The invariant of the machine: a vector register holds nothing above MAXVL (R10); pc has AW bits (R14);
memory and program text are in canonical form. -/
structure Inv (s : State) : Prop where
  width : ∀ (r : VReg) (b : Nat), s.cfg.maxvl.bits ≤ b → (readV s r).getLsbD b = false
  pcWidth : s.pc.toNat < s.cfg.aw.space
  memory : Memory.wf s.mem = true
  program : cellsWf s.text = true

/-- The laws of a saturation function from width 2N to width N, for given bounds (R58). -/
structure SatLaws (n : Nat) (lo hi : Int) (sat : BitVec (2 * n) → BitVec n) : Prop where
  value : ∀ x, (sat x).toInt = max lo (min hi x.toInt)
  exact : ∀ x, lo ≤ x.toInt → x.toInt ≤ hi →
    sat x = x.setWidth n ∧ (sat x).signExtend (2 * n) = x
  sign : ∀ x, (sat x).msb = x.msb
  monotone : ∀ x y, x.toInt ≤ y.toInt → (sat x).toInt ≤ (sat y).toInt
  zero : sat 0 = 0
  top : sat (BitVec.ofInt (2 * n) (2 ^ (2 * n - 1) - 1)) = BitVec.ofInt n hi
  bottom : sat (BitVec.ofInt (2 * n) (-2 ^ (2 * n - 1))) = BitVec.ofInt n lo

/-- How a run ends (R106): every instruction completed, one faulted (the state before it, with the fault
recorded), or one was refused (no end state). -/
inductive RunEnd where
  | finished (s : State)
  | faulted (s : State)
  | refused (r : Refusal)
  deriving DecidableEq, Repr

/-- The run of a program of n instructions from a state (R106). -/
def runProgram : Nat → State → RunEnd
  | 0, s => .finished s
  | n + 1, s =>
    match step s with
    | .next t => runProgram n t
    | .fault f => .faulted (recordFault f s)
    | .refused r => .refused r

/-- The bytes stand in the program text from pc on, and end within the address space (R28, R106). -/
structure Placed (s : State) (bs : List Byte) : Prop where
  fits : s.pc.toNat + bs.length ≤ s.cfg.aw.space
  text : ∀ k b, bs[k]? = some b → cellAt s.text (s.pc.toNat + k) = some b

/-- The instructions of a list complete one after another, from s to t. -/
def RunsThrough : List Instr → State → State → Prop
  | [], s, t => s = t
  | i :: is, s, t => ∃ u, exec i s = .next u ∧ RunsThrough is u t

/-- The number of bytes of a program. -/
def programLen (prog : List Instr) : Nat := (prog.map Instr.len).sum

/-- t is reached from s by n steps that all complete. -/
def Reaches : Nat → State → State → Prop
  | 0, s, t => s = t
  | n + 1, s, t => ∃ u, step s = .next u ∧ Reaches n u t

end Sys2Proof.Machine
end

