-- ==== Sys2Proof/Certificates/Slice0/Obligations.lean ====
section
/-! DEFINITION. The statements for the provers. `available`, `runs`, `memAccess`, `DestBytes`,
`DestWords`, `UpperKept`, `UpperZero`, `CompletesWith`, `Frame` and `Inv` are of Safety.lean. -/

open Sys2Proof Sys2Proof.Machine

/-! ### Saturation, packing, masking -/

/-- R51: both descriptions of `SatSW2SB`, the clamp and the one by bits 15:7. -/
def Obligations.SatWordToByteClamps : Prop :=
  ∀ w : BitVec 16,
    (127 < w.toInt → satSW2SB w = 0x7F#8) ∧
    (w.toInt < -128 → satSW2SB w = 0x80#8) ∧
    (-128 ≤ w.toInt → w.toInt ≤ 127 → (satSW2SB w).toInt = w.toInt) ∧
    ((w.extractLsb' 7 9 = 0#9 ∨ w.extractLsb' 7 9 = 0x1FF#9) →
      satSW2SB w = w.extractLsb' 0 8) ∧
    (¬(w.extractLsb' 7 9 = 0#9 ∨ w.extractLsb' 7 9 = 0x1FF#9) →
      satSW2SB w = if w.getLsbD 15 then 0x80#8 else 0x7F#8)

/-- R52: both descriptions of `SatSD2SW`, the clamp and the one by bits 31:15. -/
def Obligations.SatDwordToWordClamps : Prop :=
  ∀ d : BitVec 32,
    (32767 < d.toInt → satSD2SW d = 0x7FFF#16) ∧
    (d.toInt < -32768 → satSD2SW d = 0x8000#16) ∧
    (-32768 ≤ d.toInt → d.toInt ≤ 32767 → (satSD2SW d).toInt = d.toInt) ∧
    ((d.extractLsb' 15 17 = 0#17 ∨ d.extractLsb' 15 17 = 0x1FFFF#17) →
      satSD2SW d = d.extractLsb' 0 16) ∧
    (¬(d.extractLsb' 15 17 = 0#17 ∨ d.extractLsb' 15 17 = 0x1FFFF#17) →
      satSD2SW d = if d.getLsbD 31 then 0x8000#16 else 0x7FFF#16)

/-- R58: the laws of both functions, the three examples, and the composition. -/
def Obligations.SaturationLaws : Prop :=
  SatLaws 8 (-128) 127 satSW2SB ∧ SatLaws 16 (-32768) 32767 satSD2SW ∧
  satSW2SB 0x00FF#16 = 0x7F#8 ∧ satSW2SB 0xFF00#16 = 0x80#8 ∧ satSW2SB 0xFFFF#16 = 0xFF#8 ∧
  ∀ d : BitVec 32,
    satSW2SB (satSD2SW d) = BitVec.ofInt 8 (max (-128) (min 127 d.toInt))

/-- R53: `PackWB` lane by lane, and nothing above VL. -/
def Obligations.PackWBByLanes : Prop :=
  ∀ (vl : VecLen) (a b : Vec),
    (∀ l t, l < vl.bits / 128 → t ≤ 7 →
      elem 8 (16 * l + t) (packWB vl a b) = satSW2SB (elem 16 (8 * l + t) a) ∧
      elem 8 (16 * l + 8 + t) (packWB vl a b) = satSW2SB (elem 16 (8 * l + t) b)) ∧
    (∀ n, vl.bits ≤ n → (packWB vl a b).getLsbD n = false)

/-- R54: `PackDW` lane by lane, and nothing above VL. -/
def Obligations.PackDWByLanes : Prop :=
  ∀ (vl : VecLen) (a b : Vec),
    (∀ l t, l < vl.bits / 128 → t ≤ 3 →
      elem 16 (8 * l + t) (packDW vl a b) = satSD2SW (elem 32 (4 * l + t) a) ∧
      elem 16 (8 * l + 4 + t) (packDW vl a b) = satSD2SW (elem 32 (4 * l + t) b)) ∧
    (∀ n, vl.bits ≤ n → (packDW vl a b).getLsbD n = false)

/-- R56: `MaskWrite` in its three cases, element by element, and KL * ew bits in all; the mask bits at KL and
above are not read; `usemask`, `m` and `zeroing` are what the fields aaa and z of the encoding say. -/
def Obligations.MaskWriteByElements : Prop :=
  ∀ (ew kl : Nat) (old tmp : Vec) (zeroing : Bool),
    (ew = 8 ∨ ew = 16) → kl ≤ 64 → kl * ew ≤ 512 →
    (∀ j, j < kl → elem ew j (maskWrite ew kl old tmp none zeroing) = elem ew j tmp) ∧
    (∀ (m : BitVec 64) (j : Nat), j < kl →
      (m.getLsbD j = true →
        elem ew j (maskWrite ew kl old tmp (some m) zeroing) = elem ew j tmp) ∧
      (m.getLsbD j = false → zeroing = false →
        elem ew j (maskWrite ew kl old tmp (some m) zeroing) = elem ew j old) ∧
      (m.getLsbD j = false → zeroing = true →
        elem ew j (maskWrite ew kl old tmp (some m) zeroing) = 0#ew)) ∧
    (∀ m m' : BitVec 64, (∀ j, j < kl → m.getLsbD j = m'.getLsbD j) →
      maskWrite ew kl old tmp (some m) zeroing = maskWrite ew kl old tmp (some m') zeroing) ∧
    (∀ (m : Option (BitVec 64)) (n : Nat), kl * ew ≤ n →
      (maskWrite ew kl old tmp m zeroing).getLsbD n = false) ∧
    (∀ (z : Bool) (aaa : KReg) (wm : Writemask), evexMask z aaa = some wm →
      wm.z = z ∧ wm.aaa = aaa) ∧
    (∀ (s : State) (wm : Writemask),
      (∀ k, wm = .merging k ∨ wm = .zeroing k → k ≠ 0#3) →
      ((maskValue s wm).isSome = decide (wm.aaa ≠ 0#3)) ∧
      (∀ k : KReg, wm.aaa = k → k ≠ 0#3 → maskValue s wm = some (s.k[k.toNat]'k.isLt)))

/-! ### The result and the frame of each form -/

/-- PACKSSWB.SSE128 completes with R60's result, frame, pc and read. -/
def Obligations.PacksswbSse128Completes : Prop :=
  ∀ (p : Pfx) (rex : Bool) (d : VReg) (src : RegMem) (s : State),
    let i := Instr.packsswbSse128 p rex d src
    runs i s = true →
    ∃ t, exec i s = .next t ∧ DestBytes i s t ∧ UpperKept i s t ∧ CompletesWith i s t

/-- PACKSSDW.SSE128 completes with R61's result, frame, pc and read. -/
def Obligations.PackssdwSse128Completes : Prop :=
  ∀ (p : Pfx) (rex : Bool) (d : VReg) (src : RegMem) (s : State),
    let i := Instr.packssdwSse128 p rex d src
    runs i s = true →
    ∃ t, exec i s = .next t ∧ DestWords i s t ∧ UpperKept i s t ∧ CompletesWith i s t

/-- VPACKSSWB.VEX128 completes with R62's result, frame, pc and read. -/
def Obligations.VpacksswbVex128Completes : Prop :=
  ∀ (p : Pfx) (vex3 : Bool) (d s1 : VReg) (src2 : RegMem) (s : State),
    let i := Instr.vpacksswbVex128 p vex3 d s1 src2
    runs i s = true →
    ∃ t, exec i s = .next t ∧ DestBytes i s t ∧ UpperZero i t ∧ CompletesWith i s t

/-- VPACKSSDW.VEX128 completes with R63's result, frame, pc and read. -/
def Obligations.VpackssdwVex128Completes : Prop :=
  ∀ (p : Pfx) (vex3 : Bool) (d s1 : VReg) (src2 : RegMem) (s : State),
    let i := Instr.vpackssdwVex128 p vex3 d s1 src2
    runs i s = true →
    ∃ t, exec i s = .next t ∧ DestWords i s t ∧ UpperZero i t ∧ CompletesWith i s t

/-- VPACKSSWB.VEX256 completes with R64's result, frame, pc and read. -/
def Obligations.VpacksswbVex256Completes : Prop :=
  ∀ (p : Pfx) (vex3 : Bool) (d s1 : VReg) (src2 : RegMem) (s : State),
    let i := Instr.vpacksswbVex256 p vex3 d s1 src2
    runs i s = true →
    ∃ t, exec i s = .next t ∧ DestBytes i s t ∧ UpperZero i t ∧ CompletesWith i s t

/-- VPACKSSDW.VEX256 completes with R65's result, frame, pc and read. -/
def Obligations.VpackssdwVex256Completes : Prop :=
  ∀ (p : Pfx) (vex3 : Bool) (d s1 : VReg) (src2 : RegMem) (s : State),
    let i := Instr.vpackssdwVex256 p vex3 d s1 src2
    runs i s = true →
    ∃ t, exec i s = .next t ∧ DestWords i s t ∧ UpperZero i t ∧ CompletesWith i s t

/-- VPACKSSWB.EVEX128 completes with R68's result, frame, pc and read. -/
def Obligations.VpacksswbEvex128Completes : Prop :=
  ∀ (p : Pfx) (wm : Writemask) (d s1 : VReg) (src2 : RegMem) (s : State),
    let i := Instr.vpacksswbEvex128 p wm d s1 src2
    runs i s = true →
    ∃ t, exec i s = .next t ∧ DestBytes i s t ∧ UpperZero i t ∧ CompletesWith i s t

/-- VPACKSSWB.EVEX256 completes with R69's result, frame, pc and read. -/
def Obligations.VpacksswbEvex256Completes : Prop :=
  ∀ (p : Pfx) (wm : Writemask) (d s1 : VReg) (src2 : RegMem) (s : State),
    let i := Instr.vpacksswbEvex256 p wm d s1 src2
    runs i s = true →
    ∃ t, exec i s = .next t ∧ DestBytes i s t ∧ UpperZero i t ∧ CompletesWith i s t

/-- VPACKSSWB.EVEX512 completes with R70's result, frame, pc and read. -/
def Obligations.VpacksswbEvex512Completes : Prop :=
  ∀ (p : Pfx) (wm : Writemask) (d s1 : VReg) (src2 : RegMem) (s : State),
    let i := Instr.vpacksswbEvex512 p wm d s1 src2
    runs i s = true →
    ∃ t, exec i s = .next t ∧ DestBytes i s t ∧ UpperZero i t ∧ CompletesWith i s t

/-- VPACKSSDW.EVEX128 completes with R71's result, frame, pc and read. -/
def Obligations.VpackssdwEvex128Completes : Prop :=
  ∀ (p : Pfx) (wm : Writemask) (d s1 : VReg) (src2 : RegMemBcst) (s : State),
    let i := Instr.vpackssdwEvex128 p wm d s1 src2
    runs i s = true →
    ∃ t, exec i s = .next t ∧ DestWords i s t ∧ UpperZero i t ∧ CompletesWith i s t

/-- VPACKSSDW.EVEX256 completes with R72's result, frame, pc and read. -/
def Obligations.VpackssdwEvex256Completes : Prop :=
  ∀ (p : Pfx) (wm : Writemask) (d s1 : VReg) (src2 : RegMemBcst) (s : State),
    let i := Instr.vpackssdwEvex256 p wm d s1 src2
    runs i s = true →
    ∃ t, exec i s = .next t ∧ DestWords i s t ∧ UpperZero i t ∧ CompletesWith i s t

/-- VPACKSSDW.EVEX512 completes with R73's result, frame, pc and read. -/
def Obligations.VpackssdwEvex512Completes : Prop :=
  ∀ (p : Pfx) (wm : Writemask) (d s1 : VReg) (src2 : RegMemBcst) (s : State),
    let i := Instr.vpackssdwEvex512 p wm d s1 src2
    runs i s = true →
    ∃ t, exec i s = .next t ∧ DestWords i s t ∧ UpperZero i t ∧ CompletesWith i s t

/-! ### Faults and refusals -/

/-- R82: a disabled form raises `UD` whatever else is true, and nothing else raises it. -/
def Obligations.DisabledFormRaisesUD : Prop :=
  ∀ (i : Instr) (s : State), i.wellFormed s.cfg = true →
    (formEnabled s.cfg i.form = false → exec i s = .fault .ud) ∧
    (exec i s = .fault .ud → formEnabled s.cfg i.form = false)

/-- R83: under `NM_condition` an enabled form raises `NM`, no form completes, and nothing else raises it; the
condition defaults to false and an instruction that completes leaves it as it was. -/
def Obligations.NMConditionRaisesNM : Prop :=
  ∀ (i : Instr) (s : State), i.wellFormed s.cfg = true →
    (formEnabled s.cfg i.form = true → s.cfg.nmCondition = true → exec i s = .fault .nm) ∧
    (exec i s = .fault .nm → formEnabled s.cfg i.form = true ∧ s.cfg.nmCondition = true) ∧
    (s.cfg.nmCondition = true → ∀ t, exec i s ≠ .next t) ∧
    (∀ t, exec i s = .next t → t.cfg.nmCondition = s.cfg.nmCondition) ∧
    State.reset.cfg.nmCondition = false

/-- R84: a Legacy SSE memory operand that is not 16-byte aligned raises `GP(0)`, whatever the launch memory
says of it; a VEX or EVEX form raises `GP(0)` only where the oracle answers it. -/
def Obligations.MisalignedLegacyRaisesGP : Prop :=
  ∀ (i : Instr) (s : State), available i s = true →
    (∀ a, memAccess i s = some a → i.form.encClass = .legacy → a.addr % 16 ≠ 0 →
      exec i s = .fault .gp0) ∧
    (i.form.encClass ≠ .legacy → exec i s = .fault .gp0 →
      ∃ a, memAccess i s = some a ∧ touches RegionKind.isSegFault s a = true)

/-- R85: when the oracle answers a page fault for a byte of the operand, and no segment fault, the outcome is
`PF(code)` with the oracle's code, for every form with a memory operand. The code is that of the lowest such
byte (the model's choice, assumption 7). -/
def Obligations.PageFaultIsTaken : Prop :=
  ∀ (i : Instr) (s : State) (a : MemAccess) (j : Nat) (code : BitVec 32),
    available i s = true → memAccess i s = some a → reachesRead i s a = true →
    admitted s a = true → touches RegionKind.isSegFault s a = false →
    j < a.size → regionAt s.regions (a.addr + j) = some (.pageFault code) →
    (∀ j', j' < j → ∀ c, regionAt s.regions (a.addr + j') ≠ some (.pageFault c)) →
    exec i s = .fault (.pf code)

/-- R86, R87: where the oracle answers a segment or canonical-address fault, the outcome is `SS(0)` through
SS and `GP(0)` through any other segment (the segment used decides: DEDUCED, assumption 8), also when a page
fault applies as well (R89 leaves that to the oracle: DESIGN CHOICE, assumption 7). -/
def Obligations.SegmentFaultIsTaken : Prop :=
  ∀ (i : Instr) (s : State) (a : MemAccess),
    available i s = true → memAccess i s = some a → reachesRead i s a = true →
    admitted s a = true → touches RegionKind.isSegFault s a = true →
    (a.seg = .ss → exec i s = .fault .ss0) ∧ (a.seg ≠ .ss → exec i s = .fault .gp0)

/-- R67: the write mask plays no part in the read. For each EVEX form, with any two write masks: the same
faults, the same refusals, and the same read events; and what completes has read its whole memory operand,
VL/8 bytes or the 4 bytes of a broadcast, in one event. -/
def Obligations.WritemaskPlaysNoPartInRead : Prop :=
  ∀ (s : State) (i i' : Instr),
    (∃ p wm wm' d s1 src2,
      (i = .vpacksswbEvex128 p wm d s1 src2 ∧ i' = .vpacksswbEvex128 p wm' d s1 src2) ∨
      (i = .vpacksswbEvex256 p wm d s1 src2 ∧ i' = .vpacksswbEvex256 p wm' d s1 src2) ∨
      (i = .vpacksswbEvex512 p wm d s1 src2 ∧ i' = .vpacksswbEvex512 p wm' d s1 src2)) ∨
    (∃ p wm wm' d s1 src2,
      (i = .vpackssdwEvex128 p wm d s1 src2 ∧ i' = .vpackssdwEvex128 p wm' d s1 src2) ∨
      (i = .vpackssdwEvex256 p wm d s1 src2 ∧ i' = .vpackssdwEvex256 p wm' d s1 src2) ∨
      (i = .vpackssdwEvex512 p wm d s1 src2 ∧ i' = .vpackssdwEvex512 p wm' d s1 src2)) →
    i.wellFormed s.cfg = true → i'.wellFormed s.cfg = true →
    (∀ f, exec i s = .fault f ↔ exec i' s = .fault f) ∧
    (∀ r, exec i s = .refused r ↔ exec i' s = .refused r) ∧
    (∀ t t', exec i s = .next t → exec i' s = .next t' → t.history = t'.history) ∧
    (∀ t m, exec i s = .next t →
      (i.src2 = .mem m → t.history =
        { addr := operandAddr i s false m, size := i.form.vl.bytes } :: s.history) ∧
      (i.src2 = .bcst m → t.history =
        { addr := operandAddr i s true m, size := 4 } :: s.history))

/-- R88: under `AlignCheck`, a readable 4-byte broadcast operand that is not 4-byte aligned raises `AC(0)`, and
nothing else raises it; a misaligned full-width operand of a VEX or EVEX form is refused, and one of a Legacy
SSE form raises `GP(0)`. R88 does not place that refusal among R89's checks: that it comes before the read's own faults
and refusals is DEDUCED (assumption 22). -/
def Obligations.AlignCheckRaisesAC : Prop :=
  ∀ (i : Instr) (s : State), available i s = true →
    (∀ m a, i.src2 = .bcst m → memAccess i s = some a → s.cfg.alignCheck = true →
      readable s a = true → a.addr % 4 ≠ 0 → exec i s = .fault .ac0) ∧
    (exec i s = .fault .ac0 → s.cfg.alignCheck = true ∧
      ∃ m a, i.src2 = .bcst m ∧ memAccess i s = some a ∧ readable s a = true ∧
        a.addr % 4 ≠ 0) ∧
    (∀ m a, i.src2 = .mem m → memAccess i s = some a → i.form.encClass ≠ .legacy →
      s.cfg.alignCheck = true → a.addr % a.size ≠ 0 → exec i s = .refused .wideMisaligned) ∧
    (∀ m a, i.src2 = .mem m → memAccess i s = some a → i.form.encClass = .legacy →
      a.addr % a.size ≠ 0 → exec i s = .fault .gp0)

/-- R80, R89: every fault has its cause, and no cause that comes earlier in R89's order applies. Two parts of the
order are the model's and not R89's ("Among these the oracle picks"): a segment fault comes before a page fault, and the
refusals of an access before both (DESIGN CHOICE, assumption 7); the refusal of a wide misaligned access comes before
the read (DEDUCED, assumption 22). -/
def Obligations.EveryFaultHasItsCause : Prop :=
  ∀ (i : Instr) (s : State) (f : Fault), exec i s = .fault f →
    i.wellFormed s.cfg = true ∧
    ((f = .ud ∧ formEnabled s.cfg i.form = false) ∨
     (f = .nm ∧ formEnabled s.cfg i.form = true ∧ s.cfg.nmCondition = true) ∨
     (available i s = true ∧ ∃ a, memAccess i s = some a ∧
       ((f = .gp0 ∧ i.form.encClass = .legacy ∧ a.addr % 16 ≠ 0) ∨
        (f = segFaultOf a.seg ∧ reachesRead i s a = true ∧ admitted s a = true ∧
          touches RegionKind.isSegFault s a = true) ∨
        (∃ code, f = .pf code ∧ reachesRead i s a = true ∧ admitted s a = true ∧
          touches RegionKind.isSegFault s a = false ∧
          touches RegionKind.isPageFault s a = true) ∨
        (f = .ac0 ∧ i.src2.isBcst = true ∧ readable s a = true ∧
          s.cfg.alignCheck = true ∧ a.addr % 4 ≠ 0))))

/-- R89: a register-operand form can raise only `UD` and `NM`, and when neither applies it completes. -/
def Obligations.RegisterFormsFaultOnlyUDNM : Prop :=
  ∀ (i : Instr) (r : VReg) (s : State), i.src2 = .reg r →
    (∀ f, exec i s = .fault f → f = .ud ∨ f = .nm) ∧
    (available i s = true → ∃ t, exec i s = .next t)

/-- R20, R24, R26: an access that wraps, touches a hole, or touches a device region is refused by name; the
order among the three is the model's (assumption 7). -/
def Obligations.UnmodelledAccessIsRefused : Prop :=
  ∀ (i : Instr) (s : State) (a : MemAccess),
    available i s = true → memAccess i s = some a → reachesRead i s a = true →
    (inSpace s a = false → exec i s = .refused .addressWraps) ∧
    (inSpace s a = true → touches RegionKind.isUnadmitted s a = true →
      exec i s = .refused .notAdmitted) ∧
    (inSpace s a = true → touches RegionKind.isUnadmitted s a = false →
      touches RegionKind.isDevice s a = true → exec i s = .refused .deviceMemory)

/-- R91, R106: a recorded fault is terminal; recording one changes nothing else (R81). -/
def Obligations.RecordedFaultIsTerminal : Prop :=
  ∀ (s : State) (f : Fault),
    step (recordFault f s) = .fault f ∧
    ({ recordFault f s with faultRecord := s.faultRecord } : State) = s

/-- R106: a program of well-formed instructions at consecutive addresses from pc ends in one of three ways. Every
instruction completed, and pc is the address just after the last one; or one faulted, at its own address, and the
end state is the state before it with the fault recorded; or one was refused, at its own address, by its meaning or
because it lies near the top of the address space (the model's reading of R14, assumption 17). -/
def Obligations.RunEndsInOneOfThreeWays : Prop :=
  ∀ (prog : List Instr) (s : State), s.faultRecord = none →
    (∀ i ∈ prog, i.wellFormed s.cfg = true) → Placed s (prog.flatMap encode) →
    (∃ t, runProgram prog.length s = .finished t ∧ RunsThrough prog s t ∧
      t.pc.toNat = s.pc.toNat + programLen prog) ∨
    (∃ done i rest u f, prog = done ++ i :: rest ∧ RunsThrough done s u ∧
      u.pc.toNat = s.pc.toNat + programLen done ∧ exec i u = .fault f ∧
      runProgram prog.length s = .faulted (recordFault f u)) ∨
    (∃ done i rest u r, prog = done ++ i :: rest ∧ RunsThrough done s u ∧
      u.pc.toNat = s.pc.toNat + programLen done ∧
      (exec i u = .refused r ∨
        s.cfg.aw.space ≤ u.pc.toNat + i.len + 14 ∧ r = .programAtTop) ∧
      runProgram prog.length s = .refused r)

/-! ### The machine -/

/-- Every step keeps the invariant: register width (R10), pc width (R14), canonical memory and text. -/
def Obligations.StepKeepsInvariant : Prop :=
  ∀ s t : State, Inv s → step s = .next t → Inv t

/-- The launch state has the invariant. -/
def Obligations.LaunchHasInvariant : Prop := Inv State.reset

/-- R13, R15, R16, R18, R20: every form that completes changes DEST, pc and the history only, advances pc by
its length, and makes at most its one read. -/
def Obligations.CompletionChangesOnlyDest : Prop :=
  ∀ (i : Instr) (s t : State), exec i s = .next t → CompletesWith i s t

/-- R15, R28: over any run, the opmask and general registers, the segment bases, memory, the program text, the
launch memory and the configuration are constant. -/
def Obligations.RunKeepsAllButVectors : Prop :=
  ∀ (n : Nat) (s t : State), Reaches n s t →
    t.k = s.k ∧ t.x = s.x ∧ t.segBase = s.segBase ∧ t.mem = s.mem ∧ t.text = s.text ∧
    t.regions = s.regions ∧ t.cfg = s.cfg ∧ t.faultRecord = s.faultRecord ∧
    ∀ a, readByte t a = readByte s a

/-- R14: an instruction that completes advances pc by its length modulo 2^AW, and a step refuses an instruction
with a byte within 15 bytes of the top (which bytes count is the model's reading, assumption 17). -/
def Obligations.PcAdvancesByLength : Prop :=
  (∀ (i : Instr) (s t : State), exec i s = .next t →
    t.pc.toNat = (s.pc.toNat + i.len) % 2 ^ s.cfg.aw.bits) ∧
  (∀ (s : State) (i : Instr) (rest : List Byte), s.faultRecord = none →
    decode s.cfg (fetch s) = .ok (i, rest) →
    2 ^ s.cfg.aw.bits ≤ s.pc.toNat + (i.len - 1) + 15 → step s = .refused .programAtTop)

/-- A step runs the decoded instruction: when no fault is recorded, the bytes at pc decode to i, and no byte of i
lies within 15 bytes of the top, step is exec of i. -/
def Obligations.StepRunsDecodedInstruction : Prop :=
  ∀ (s : State) (i : Instr) (rest : List Byte), s.faultRecord = none →
    decode s.cfg (fetch s) = .ok (i, rest) → nearTop s i.len = false →
    step s = exec i s

/-- R48, R106: bytes that decode to nothing are refused with the decoder's reason, and so is a fetch where there is
no text. -/
def Obligations.UndecodableIsRefused : Prop :=
  ∀ s : State, s.faultRecord = none →
    (fetch s = [] → step s = .refused .noProgramText) ∧
    (∀ r, fetch s ≠ [] → decode s.cfg (fetch s) = .error r → step s = .refused (.encoding r))

/-! ### Encoding -/

/-- Decoding the encoding of any well-formed instruction, followed by any bytes, gives the instruction and those
bytes, in every configuration. -/
def Obligations.DecodeOfEncode : Prop :=
  ∀ (c : Config) (i : Instr) (rest : List Byte), i.wellFormed c = true →
    decode c (encode i ++ rest) = .ok (i, rest)

/-- What the decoder answers is well-formed, and the bytes it consumed are the first `len` bytes. -/
def Obligations.DecodeYieldsWellFormed : Prop :=
  ∀ (c : Config) (bytes : List Byte) (i : Instr) (rest : List Byte),
    decode c bytes = .ok (i, rest) →
    i.wellFormed c = true ∧ ∃ used, bytes = used ++ rest ∧ used.length = i.len

/-- R47: `ilen` is the number of bytes the decoder consumes, from 4 to 13, and both bounds are reached. -/
def Obligations.LengthCountsBytes : Prop :=
  (∀ (c : Config) (bytes : List Byte) (i : Instr) (rest : List Byte),
    decode c bytes = .ok (i, rest) →
    bytes.length = i.len + rest.length ∧ 4 ≤ i.len ∧ i.len ≤ 13) ∧
  (∃ (i : Instr), decode Config.launch (encode i) = .ok (i, []) ∧ i.len = 4) ∧
  (∃ (i : Instr), decode Config.launch (encode i) = .ok (i, []) ∧ i.len = 13)

/-- R44: no decoded form, and no form that executes, names a register at or above NVREG; an encoding that names
one (and is an encoding where NVREG is 32) is refused by name, its numbers neither wrapped nor masked. R44 speaks of the decoder; that exec refuses such
a term, as `notAForm`, is a DESIGN CHOICE (assumption 14). -/
def Obligations.RegisterNumbersBelowNVREG : Prop :=
  (∀ (c : Config) (bytes : List Byte) (i : Instr) (rest : List Byte),
    decode c bytes = .ok (i, rest) →
    i.dest.toNat < c.nvreg.count ∧ i.src1.toNat < c.nvreg.count ∧
    ∀ r, i.src2 = .reg r → r.toNat < c.nvreg.count) ∧
  (∀ (i : Instr) (s : State),
    (s.cfg.nvreg.count ≤ i.dest.toNat ∨ s.cfg.nvreg.count ≤ i.src1.toNat ∨
      ∃ r, i.src2 = .reg r ∧ s.cfg.nvreg.count ≤ r.toNat) →
    exec i s = .refused .notAForm) ∧
  (∀ (c : Config) (i : Instr) (rest : List Byte),
    i.wellFormed { c with nvreg := .n32 } = true →
    (c.nvreg.count ≤ i.dest.toNat ∨ c.nvreg.count ≤ i.src1.toNat ∨
      ∃ r, i.src2 = .reg r ∧ c.nvreg.count ≤ r.toNat) →
    decode c (encode i ++ rest) = .error .registerOutOfRange)

/-- R48: the reserved encodings near the twelve forms decode to nothing, behind any leading bytes (segment overrides,
`67`, `66`) and whatever the other bits and the following bytes. `0F` without `66` is also refused behind a REX byte;
a REX byte before anything but `0F` is refused, and so is VEX or EVEX behind a `66`. -/
def Obligations.ReservedEncodingsAreRefused : Prop :=
  ∀ (c : Config) (lead bytes : List Byte) (rex p0 p1 p2 op m : Byte) (x : Instr × List Byte),
    (∀ b ∈ lead, b ∈ leadBytes) →
    decode c (lead ++ 0xF0#8 :: bytes) ≠ .ok x ∧
    decode c (lead ++ 0xF2#8 :: bytes) ≠ .ok x ∧
    decode c (lead ++ 0xF3#8 :: bytes) ≠ .ok x ∧
    (0x66#8 ∉ lead → decode c (lead ++ 0x0F#8 :: bytes) ≠ .ok x ∧
      (rex.extractLsb' 4 4 = 4#4 → decode c (lead ++ rex :: 0x0F#8 :: bytes) ≠ .ok x)) ∧
    (rex.extractLsb' 4 4 = 4#4 → p0 ≠ 0x0F#8 → decode c (lead ++ rex :: p0 :: bytes) ≠ .ok x) ∧
    (0x66#8 ∈ lead → p0 = 0xC4#8 ∨ p0 = 0xC5#8 ∨ p0 = 0x62#8 →
      decode c (lead ++ p0 :: bytes) ≠ .ok x) ∧
    (p0.extractLsb' 0 5 ≠ 1#5 ∨ p1.extractLsb' 0 2 ≠ 1#2 →
      decode c (lead ++ 0xC4#8 :: p0 :: p1 :: bytes) ≠ .ok x) ∧
    (p0.extractLsb' 0 2 ≠ 1#2 → decode c (lead ++ 0xC5#8 :: p0 :: bytes) ≠ .ok x) ∧
    (p0.extractLsb' 2 2 ≠ 0#2 ∨ p1.getLsbD 2 = false ∨ p0.extractLsb' 0 2 ≠ 1#2 ∨
        p1.extractLsb' 0 2 ≠ 1#2 ∨ p2.extractLsb' 5 2 = 3#2 ∨
        (p2.getLsbD 7 = true ∧ p2.extractLsb' 0 3 = 0#3) ∨
        (op = 0x6B#8 ∧ p1.getLsbD 7 = true) ∨
        (op = 0x63#8 ∧ p2.getLsbD 4 = true) ∨
        (op = 0x6B#8 ∧ p2.getLsbD 4 = true ∧ m.extractLsb' 6 2 = 3#2) →
      decode c (lead ++ 0x62#8 :: p0 :: p1 :: p2 :: op :: m :: bytes) ≠ .ok x)

/-- R49: in 32-bit mode nothing decodes with a REX byte, a `67`, a register number above 7 or a base or index above 7.
Behind any leading bytes these decode to nothing: `40` to `4F`; `67`; `C4`, `C5`, `62` before a byte without both top
bits; and a `C4` or `62` word with any stored-inverted extension bit 0, whether or not an operand uses the bit (B, and the
top bit of vvvv; for EVEX also R' and V'). -/
def Obligations.Mode32Restrictions : Prop :=
  ∀ c : Config, c.aw = .w32 →
    (∀ (bytes : List Byte) (i : Instr) (rest : List Byte), decode c bytes = .ok (i, rest) →
      i.fits32 = true ∧ i.hasRex = false) ∧
    (∀ (lead bytes : List Byte) (b q p1 p2 : Byte) (x : Instr × List Byte),
      (∀ b ∈ lead, b ∈ leadBytes) →
      (b.extractLsb' 4 4 = 4#4 ∨ b = 0x67#8 → decode c (lead ++ b :: bytes) ≠ .ok x) ∧
      (b = 0xC4#8 ∨ b = 0xC5#8 ∨ b = 0x62#8 → q.extractLsb' 6 2 ≠ 3#2 →
        decode c (lead ++ b :: q :: bytes) ≠ .ok x) ∧
      (q.getLsbD 5 = false ∨ p1.getLsbD 6 = false →
        decode c (lead ++ 0xC4#8 :: q :: p1 :: bytes) ≠ .ok x) ∧
      (q.getLsbD 5 = false ∨ q.getLsbD 4 = false ∨ p1.getLsbD 6 = false ∨ p2.getLsbD 3 = false →
        decode c (lead ++ 0x62#8 :: q :: p1 :: p2 :: bytes) ≠ .ok x))

/-- The listed encodings of spec/95_test_vectors.md section 4 decode as listed (a few words). -/
def Obligations.ListedEncodingsDecode : Prop :=
  let p : Pfx := { seg := none, a32 := false }
  decode Config.launch [0x66#8, 0x45#8, 0x0F#8, 0x63#8, 0xC7#8] =
    .ok (.packsswbSse128 p true 8#5 (.reg 15#5), []) ∧
  decode Config.launch [0xC4#8, 0x41#8, 0x2D#8, 0x6B#8, 0xCB#8] =
    .ok (.vpackssdwVex256 p true 9#5 10#5 (.reg 11#5), []) ∧
  decode Config.launch [0x62#8, 0xF1#8, 0x6D#8, 0xDB#8, 0x6B#8, 0x48#8, 0x01#8] =
    .ok (.vpackssdwEvex512 p (.zeroing 3#3) 1#5 2#5 (.bcst (.base 0#4 (.d8 1#8))), []) ∧
  decode Config.launch [0x62#8, 0xA1#8, 0x6D#8, 0x40#8, 0x6B#8, 0xCB#8] =
    .ok (.vpackssdwEvex512 p .none 17#5 18#5 (.reg 19#5), [])

/-! ### Addresses and memory -/

/-- R45, R46. In 64-bit mode, for every address mode: the address before the segment base is R45's row (`addrSum`)
modulo 2^64, or under `67` with registers read as their low 32 bits and the sum modulo 2^32; only FS and GS add a
segment base. An override replaces the default segment, which is SS for base RSP or RBP and DS otherwise. N is 1 for
LEGACY and VEX, and for EVEX VL/8, or 4 for a broadcast. That the sum is cut under `67` before the segment base is added
is DEDUCED (assumption 13). -/
def Obligations.EffectiveAddressRows : Prop :=
  (∀ (s : State) (p : Pfx) (ilen n : Nat) (m : AddrMode), s.cfg.aw = .w64 →
    (p.a32 = false → ((offsetOf s p ilen n m).toNat : Int) =
      addrSum (fun r => (readX s r).toNat) (s.pc.toNat + ilen) n m % 2 ^ 64) ∧
    (p.a32 = true → ((offsetOf s p ilen n m).toNat : Int) =
      addrSum (fun r => (readX s r).toNat % 2 ^ 32) (s.pc.toNat + ilen) n m % 2 ^ 32) ∧
    (segOf p m = .fs → (effAddr s p ilen n m).toNat =
      (s.segBase.fs.toNat + (offsetOf s p ilen n m).toNat) % 2 ^ 64) ∧
    (segOf p m = .gs → (effAddr s p ilen n m).toNat =
      (s.segBase.gs.toNat + (offsetOf s p ilen n m).toNat) % 2 ^ 64) ∧
    (segOf p m ≠ .fs → segOf p m ≠ .gs → effAddr s p ilen n m = offsetOf s p ilen n m)) ∧
  (∀ (p : Pfx) (m : AddrMode) (g : Seg), p.seg = some g → segOf p m = g) ∧
  (∀ p : Pfx, p.seg = none →
    (∀ b idx d, b = 4#4 ∨ b = 5#4 →
      segOf p (.base b d) = .ss ∧ segOf p (.sib b idx d) = .ss) ∧
    (∀ b idx d, b ≠ 4#4 → b ≠ 5#4 →
      segOf p (.base b d) = .ds ∧ segOf p (.sib b idx d) = .ds) ∧
    (∀ idx d, segOf p (.sibNoBase idx d) = .ds ∧ segOf p (.disp32 d) = .ds)) ∧
  (∀ (f : Form) (bcst : Bool),
    (f.encClass = .legacy ∨ f.encClass = .vex → dispScale f bcst = 1) ∧
    (f.encClass = .evex → bcst = false → dispScale f bcst * 8 = f.vl.bits) ∧
    (f.encClass = .evex → bcst = true → dispScale f bcst = 4)) ∧
  (∀ (i : Instr) (s : State) (bcst : Bool) (m : AddrMode),
    operandAddr i s bcst m = (effAddr s i.pfx i.len (dispScale i.form bcst) m).toNat)

/-- R49, R46. In 32-bit mode, for every address mode: the address is the base of the segment used, of all six, plus
R45's row (`addrSum`), modulo 2^32; mod = 00, rm = 101 is absolute. That the segment base is added to the row is
DEDUCED from R45 (assumption 13). -/
def Obligations.EffectiveAddress32 : Prop :=
  ∀ (s : State) (p : Pfx) (ilen n : Nat), s.cfg.aw = .w32 →
    (∀ m, ((effAddr s p ilen n m).toNat : Int) =
      ((segBaseOf s (segOf p m)).toNat + addrSum (fun r => (readX s r).toNat) 0 n m) % 2 ^ 32) ∧
    segBaseOf s .cs = s.segBase.cs ∧ segBaseOf s .ss = s.segBase.ss ∧
    segBaseOf s .ds = s.segBase.ds ∧ segBaseOf s .es = s.segBase.es ∧
    segBaseOf s .fs = s.segBase.fs ∧ segBaseOf s .gs = s.segBase.gs

/-- R21: a load is little-endian: byte i of the value is the byte at addr + i, and element e of width 16 or 32 lies at
addr + e*w/8, least significant byte first. -/
def Obligations.LoadIsLittleEndian : Prop :=
  ∀ (s : State) (addr n : Nat), n ≤ 64 →
    (∀ i, i < n → elem 8 i (loadBytes s addr n) = readByte s (addr + i)) ∧
    (∀ e, 2 * e + 1 < n → elem 16 e (loadBytes s addr n) =
      readByte s (addr + 2 * e + 1) ++ readByte s (addr + 2 * e)) ∧
    (∀ e, 4 * e + 3 < n → elem 32 e (loadBytes s addr n) =
      readByte s (addr + 4 * e + 3) ++ readByte s (addr + 4 * e + 2) ++
        readByte s (addr + 4 * e + 1) ++ readByte s (addr + 4 * e))

/-- `MemWrite` stores the n low bytes of the value at addr to addr + n - 1, least significant first, and leaves every
other byte alone. R9 names the operation and leaves its meaning open; this one is DEDUCED (assumption 25). -/
def Obligations.MemWriteStoresBytes : Prop :=
  ∀ (s : State) (addr n : Nat) (val : Vec), Memory.wf s.mem = true → n ≤ 64 →
    (∀ i, i < n → readByte (memWrite s addr n val) (addr + i) = elem 8 i val) ∧
    (∀ a, a < addr ∨ addr + n ≤ a → readByte (memWrite s addr n val) a = readByte s a)

/-! ### Relations between forms, and what a form does not read -/

/-- R68 (a), R69, R71 (a), R72: without a write mask, an EVEX form and the VEX form of the same operation and length,
reading the same operand, leave the same vector registers. -/
def Obligations.UnmaskedEvexEqualsVex : Prop :=
  ∀ (s : State) (p : Pfx) (vex3 : Bool) (d s1 : VReg) (src2 : RegMem) (iv ie : Instr),
    (iv = .vpacksswbVex128 p vex3 d s1 src2 ∧ ie = .vpacksswbEvex128 p .none d s1 src2) ∨
    (iv = .vpackssdwVex128 p vex3 d s1 src2 ∧
      ie = .vpackssdwEvex128 p .none d s1 src2.toBcst) ∨
    (iv = .vpacksswbVex256 p vex3 d s1 src2 ∧ ie = .vpacksswbEvex256 p .none d s1 src2) ∨
    (iv = .vpackssdwVex256 p vex3 d s1 src2 ∧
      ie = .vpackssdwEvex256 p .none d s1 src2.toBcst) →
    runs iv s = true → runs ie s = true → memAccess iv s = memAccess ie s →
    ∃ t t', exec iv s = .next t ∧ exec ie s = .next t' ∧ t.v = t'.v

/-- R60 (c), R103: with SRC1 = DEST, the VEX.128 form gives the same bits 127:0 as the Legacy SSE form; above them the
first zeroes and the second keeps. -/
def Obligations.LegacyAgainstVex128 : Prop :=
  ∀ (s : State) (p : Pfx) (rex vex3 : Bool) (d : VReg) (src : RegMem) (il iv : Instr),
    (il = .packsswbSse128 p rex d src ∧ iv = .vpacksswbVex128 p vex3 d d src) ∨
    (il = .packssdwSse128 p rex d src ∧ iv = .vpackssdwVex128 p vex3 d d src) →
    runs il s = true → runs iv s = true → memAccess il s = memAccess iv s →
    ∃ t t', exec il s = .next t ∧ exec iv s = .next t' ∧
      (∀ b, b < 128 → (readV t d).getLsbD b = (readV t' d).getLsbD b) ∧
      (∀ b, 128 ≤ b → b < s.cfg.maxvl.bits →
        (readV t d).getLsbD b = (readV s d).getLsbD b ∧ (readV t' d).getLsbD b = false)

/-- R57, R60 (a), R61 (a): a Legacy SSE form whose SRC is DEST packs the old value twice: both halves are the packed
old elements. -/
def Obligations.SelfPackUsesOldValue : Prop :=
  ∀ (s : State) (p : Pfx) (rex : Bool) (d : VReg),
    (available (.packsswbSse128 p rex d (.reg d)) s = true →
      ∃ t, exec (.packsswbSse128 p rex d (.reg d)) s = .next t ∧
        ∀ j, j < 8 →
          elem 8 j (readV t d) = satSW2SB (elem 16 j (readV s d)) ∧
          elem 8 (8 + j) (readV t d) = satSW2SB (elem 16 j (readV s d))) ∧
    (available (.packssdwSse128 p rex d (.reg d)) s = true →
      ∃ t, exec (.packssdwSse128 p rex d (.reg d)) s = .next t ∧
        ∀ j, j < 4 →
          elem 16 j (readV t d) = satSD2SW (elem 32 j (readV s d)) ∧
          elem 16 (4 + j) (readV t d) = satSD2SW (elem 32 j (readV s d)))

/-- R68 (b): a write mask whose KL bits are all ones gives what no write mask gives. -/
def Obligations.AllOnesMaskEqualsNoMask : Prop :=
  ∀ (s : State) (k : KReg) (wm : Writemask) (i i0 : Instr) (kl : Nat),
    wm = .merging k ∨ wm = .zeroing k →
    (∃ p d s1 src2,
      (i = .vpacksswbEvex128 p wm d s1 src2 ∧ i0 = .vpacksswbEvex128 p .none d s1 src2 ∧
        kl = 16) ∨
      (i = .vpacksswbEvex256 p wm d s1 src2 ∧ i0 = .vpacksswbEvex256 p .none d s1 src2 ∧
        kl = 32) ∨
      (i = .vpacksswbEvex512 p wm d s1 src2 ∧ i0 = .vpacksswbEvex512 p .none d s1 src2 ∧
        kl = 64)) ∨
    (∃ p d s1 src2,
      (i = .vpackssdwEvex128 p wm d s1 src2 ∧ i0 = .vpackssdwEvex128 p .none d s1 src2 ∧
        kl = 8) ∨
      (i = .vpackssdwEvex256 p wm d s1 src2 ∧ i0 = .vpackssdwEvex256 p .none d s1 src2 ∧
        kl = 16) ∨
      (i = .vpackssdwEvex512 p wm d s1 src2 ∧ i0 = .vpackssdwEvex512 p .none d s1 src2 ∧
        kl = 32)) →
    (∀ j, j < kl → (s.k[k.toNat]'k.isLt).getLsbD j = true) →
    runs i s = true → exec i s = exec i0 s

/-- R68 (c): with a mask whose KL bits are all zeros, merging keeps DEST below VL and zeroes it above; zeroing makes all
of DEST zero. -/
def Obligations.AllZerosMask : Prop :=
  ∀ (s : State) (k : KReg) (i : Instr) (kl : Nat),
    (i.form = .vpacksswbEvex128 ∧ kl = 16) ∨ (i.form = .vpacksswbEvex256 ∧ kl = 32) ∨
    (i.form = .vpacksswbEvex512 ∧ kl = 64) ∨ (i.form = .vpackssdwEvex128 ∧ kl = 8) ∨
    (i.form = .vpackssdwEvex256 ∧ kl = 16) ∨ (i.form = .vpackssdwEvex512 ∧ kl = 32) →
    (∀ j, j < kl → (s.k[k.toNat]'k.isLt).getLsbD j = false) →
    runs i s = true →
    ∃ t, exec i s = .next t ∧
      (i.writemask = .zeroing k → readV t i.dest = 0#512) ∧
      (i.writemask = .merging k → ∀ b, (readV t i.dest).getLsbD b =
        (decide (b < i.form.vl.bits) && (readV s i.dest).getLsbD b))

/-- R13: the bits of the opmask at KL and above, and the other opmask registers, are not read: changing them changes
no vector register, and no outcome. -/
def Obligations.OpmaskBitsAboveKLIgnored : Prop :=
  ∀ (s : State) (k' : Vector (BitVec 64) 8) (i : Instr) (kl : Nat) (t : State),
    (i.form = .vpacksswbEvex128 ∧ kl = 16) ∨ (i.form = .vpacksswbEvex256 ∧ kl = 32) ∨
    (i.form = .vpacksswbEvex512 ∧ kl = 64) ∨ (i.form = .vpackssdwEvex128 ∧ kl = 8) ∨
    (i.form = .vpackssdwEvex256 ∧ kl = 16) ∨ (i.form = .vpackssdwEvex512 ∧ kl = 32) →
    (∀ k j, i.writemask = .merging k ∨ i.writemask = .zeroing k → j < kl →
      (k'[k.toNat]'k.isLt).getLsbD j = (s.k[k.toNat]'k.isLt).getLsbD j) →
    exec i s = .next t →
    exec i { s with k := k' } = .next { t with k := k' }

/-- R12: a form never reads bits of a source register at or above VL. Two states that agree below VL in every vector
register, and in all else, complete alike and leave DEST equal below VL; a VEX or EVEX form leaves all of DEST equal. -/
def Obligations.SourceBitsAboveVLIgnored : Prop :=
  ∀ (s : State) (v' : Vector Vec 32) (i : Instr) (t : State),
    (∀ (r : VReg) (b : Nat), b < i.form.vl.bits →
      (readV { s with v := v' } r).getLsbD b = (readV s r).getLsbD b) →
    exec i s = .next t →
    ∃ t', exec i { s with v := v' } = .next t' ∧
      (∀ b, b < i.form.vl.bits →
        (readV t' i.dest).getLsbD b = (readV t i.dest).getLsbD b) ∧
      (i.form.encClass ≠ .legacy → readV t' i.dest = readV t i.dest)

/-- R103: after a Legacy SSE form DEST above bit 127 is what it was; after any other form DEST at or above VL is
zero. -/
def Obligations.UpperBitsAfterEachClass : Prop :=
  ∀ (i : Instr) (s t : State), exec i s = .next t →
    (i.form.encClass = .legacy → UpperKept i s t) ∧
    (i.form.encClass ≠ .legacy → UpperZero i t)
end

