-- ==== Sys2Proof/Laws/Bits.lean ====
section
/-! SUPPORT. What the bit-field operations hold, bit by bit and element by element. -/

namespace Sys2Proof.Machine

theorem getLsbD_elem (w e : Nat) (x : Vec) (b : Nat) :
    (elem w e x).getLsbD b = (decide (b < w) && x.getLsbD (w * e + b)) := by
  simp [elem, BitVec.getLsbD_extractLsb']

/-- Bit b of an assembled value is bit b mod w of its element b div w. -/
theorem getLsbD_ofElems (w : Nat) (hw : 0 < w) (f : Nat → BitVec w) (b : Nat) :
    ∀ n, w * n ≤ 512 →
      (ofElems w n f).getLsbD b = (decide (b < w * n) && (f (b / w)).getLsbD (b % w))
  | 0, _ => by simp [ofElems]
  | n + 1, h => by
    have hn : w * n ≤ 512 := by rw [Nat.mul_succ] at h; omega
    have ih := getLsbD_ofElems w hw f b n hn
    have hs : w * (n + 1) = w * n + w := Nat.mul_succ w n
    simp only [ofElems, BitVec.getLsbD_or, ih, BitVec.getLsbD_shiftLeft, BitVec.getLsbD_setWidth]
    by_cases h1 : b < w * n
    · have h2 : b < w * (n + 1) := by omega
      simp [h1, h2]
    · by_cases h3 : b < w * (n + 1)
      · have hd : b / w = n := by
          apply Nat.div_eq_of_lt_le
          · rw [Nat.mul_comm]; omega
          · rw [Nat.mul_comm]; omega
        have hm : b % w = b - w * n := by
          have := Nat.div_add_mod b w
          rw [hd] at this; omega
        have h4 : b < 512 := by omega
        have h5 : b - w * n < 512 := by omega
        simp [h1, h3, hd, hm, h4, h5]
      · have h6 : (f n).getLsbD (b - w * n) = false :=
          BitVec.getLsbD_of_ge _ _ (by omega)
        simp [h1, h3, h6]

/-- Element e of an assembled value is what it was assembled from. -/
theorem elem_ofElems (w : Nat) (hw : 0 < w) (n : Nat) (f : Nat → BitVec w) (h : w * n ≤ 512)
    (e : Nat) (he : e < n) : elem w e (ofElems w n f) = f e := by
  apply BitVec.eq_of_getLsbD_eq
  intro b hb
  have h1 : w * e + b < w * n := by
    have : w * e + w ≤ w * n := by rw [← Nat.mul_succ]; exact Nat.mul_le_mul_left w he
    omega
  have hd : (w * e + b) / w = e := by
    rw [Nat.mul_add_div hw, Nat.div_eq_of_lt hb, Nat.add_zero]
  have hm : (w * e + b) % w = b := by rw [Nat.mul_add_mod, Nat.mod_eq_of_lt hb]
  rw [getLsbD_elem, getLsbD_ofElems w hw f _ n h, hd, hm]
  simp [hb, h1]

theorem getLsbD_lowBits (vl : VecLen) (x : Vec) (b : Nat) :
    (lowBits vl x).getLsbD b = (decide (b < vl.bits) && x.getLsbD b) := by
  have : vl.bits ≤ 512 := by cases vl <;> decide
  simp only [lowBits, BitVec.getLsbD_setWidth]
  by_cases h : b < vl.bits
  · have : b < 512 := by omega
    simp [h, this]
  · simp [h]

theorem getLsbD_setLow128 (old val : Vec) (b : Nat) :
    (setLow128 old val).getLsbD b = if b < 128 then val.getLsbD b else old.getLsbD b := by
  simp only [setLow128, BitVec.getLsbD_append, BitVec.getLsbD_extractLsb']
  by_cases h : b < 128
  · simp [h]
  · by_cases h2 : b - 128 < 384
    · have : 128 + (b - 128) = b := by omega
      simp [h, h2, this]
    · have : old.getLsbD b = false := BitVec.getLsbD_of_ge _ _ (by omega)
      simp [h, h2, this]

/-- An element below VL is not changed by cutting at VL. -/
theorem elem_lowBits (vl : VecLen) (w e : Nat) (x : Vec) (h : w * e + w ≤ vl.bits) :
    elem w e (lowBits vl x) = elem w e x := by
  apply BitVec.eq_of_getLsbD_eq
  intro b hb
  rw [getLsbD_elem, getLsbD_elem, getLsbD_lowBits]
  have : w * e + b < vl.bits := by omega
  simp [this]

theorem bytes_le (vl : VecLen) : vl.bytes ≤ 64 := by cases vl <;> decide

/-- `PackWB`, element by element (R53). -/
theorem elem_packWB (vl : VecLen) (a b : Vec) (e : Nat) (h : e < vl.bytes) :
    elem 8 e (packWB vl a b) = packWBElem a b e :=
  elem_ofElems 8 (by decide) _ _ (by have := bytes_le vl; omega) e h

/-- `PackDW`, element by element (R54). -/
theorem elem_packDW (vl : VecLen) (a b : Vec) (e : Nat) (h : e < vl.bytes / 2) :
    elem 16 e (packDW vl a b) = packDWElem a b e :=
  elem_ofElems 16 (by decide) _ _ (by have := bytes_le vl; omega) e h

/-- `Bcast32`, element by element (R55). -/
theorem elem_bcast32 (vl : VecLen) (m : BitVec 32) (e : Nat) (h : e < vl.bytes / 4) :
    elem 32 e (bcast32 vl m) = m :=
  elem_ofElems 32 (by decide) _ _ (by have := bytes_le vl; omega) e h

/-- `MaskWrite`, element by element (R56). -/
theorem elem_maskWrite (ew kl : Nat) (old tmp : Vec) (m : Option (BitVec 64)) (z : Bool)
    (hw : 0 < ew) (h : ew * kl ≤ 512) (j : Nat) (hj : j < kl) :
    elem ew j (maskWrite ew kl old tmp m z) = maskElem ew old tmp m z j :=
  elem_ofElems ew hw _ _ h j hj

/-- Two values with equal bytes below VL, and nothing above, are equal. -/
theorem eq_of_elems (w n : Nat) (hw : 0 < w) (x y : Vec) (h : ∀ e, e < n → elem w e x = elem w e y)
    (hx : ∀ b, w * n ≤ b → x.getLsbD b = false) (hy : ∀ b, w * n ≤ b → y.getLsbD b = false) :
    x = y := by
  apply BitVec.eq_of_getLsbD_eq
  intro b _
  by_cases hb : b < w * n
  · have he : b / w < n := by rw [Nat.div_lt_iff_lt_mul hw, Nat.mul_comm]; exact hb
    have := congrArg (fun z => z.getLsbD (b % w)) (h _ he)
    simp only [getLsbD_elem, Nat.mod_lt _ hw, decide_true, Bool.true_and,
      Nat.div_add_mod] at this
    exact this
  · rw [hx b (by omega), hy b (by omega)]

end Sys2Proof.Machine
end

