-- ==== Sys2Proof/Laws/State.lean ====
section
/-! SUPPORT. One lemma per field per update of State, so that no later proof unfolds a record update. -/

namespace Sys2Proof.Machine

@[simp] theorem writeV_cfg (s : State) (r : VReg) (val : Vec) :
    (writeV s r val).cfg = s.cfg := rfl
@[simp] theorem writeV_k (s : State) (r : VReg) (val : Vec) :
    (writeV s r val).k = s.k := rfl
@[simp] theorem writeV_x (s : State) (r : VReg) (val : Vec) :
    (writeV s r val).x = s.x := rfl
@[simp] theorem writeV_segBase (s : State) (r : VReg) (val : Vec) :
    (writeV s r val).segBase = s.segBase := rfl
@[simp] theorem writeV_pc (s : State) (r : VReg) (val : Vec) :
    (writeV s r val).pc = s.pc := rfl
@[simp] theorem writeV_mem (s : State) (r : VReg) (val : Vec) :
    (writeV s r val).mem = s.mem := rfl
@[simp] theorem writeV_regions (s : State) (r : VReg) (val : Vec) :
    (writeV s r val).regions = s.regions := rfl
@[simp] theorem writeV_text (s : State) (r : VReg) (val : Vec) :
    (writeV s r val).text = s.text := rfl
@[simp] theorem writeV_faultRecord (s : State) (r : VReg) (val : Vec) :
    (writeV s r val).faultRecord = s.faultRecord := rfl
@[simp] theorem writeV_history (s : State) (r : VReg) (val : Vec) :
    (writeV s r val).history = s.history := rfl

@[simp] theorem writeVLow128_cfg (s : State) (r : VReg) (val : Vec) :
    (writeVLow128 s r val).cfg = s.cfg := rfl
@[simp] theorem writeVLow128_k (s : State) (r : VReg) (val : Vec) :
    (writeVLow128 s r val).k = s.k := rfl
@[simp] theorem writeVLow128_x (s : State) (r : VReg) (val : Vec) :
    (writeVLow128 s r val).x = s.x := rfl
@[simp] theorem writeVLow128_segBase (s : State) (r : VReg) (val : Vec) :
    (writeVLow128 s r val).segBase = s.segBase := rfl
@[simp] theorem writeVLow128_pc (s : State) (r : VReg) (val : Vec) :
    (writeVLow128 s r val).pc = s.pc := rfl
@[simp] theorem writeVLow128_mem (s : State) (r : VReg) (val : Vec) :
    (writeVLow128 s r val).mem = s.mem := rfl
@[simp] theorem writeVLow128_regions (s : State) (r : VReg) (val : Vec) :
    (writeVLow128 s r val).regions = s.regions := rfl
@[simp] theorem writeVLow128_text (s : State) (r : VReg) (val : Vec) :
    (writeVLow128 s r val).text = s.text := rfl
@[simp] theorem writeVLow128_faultRecord (s : State) (r : VReg) (val : Vec) :
    (writeVLow128 s r val).faultRecord = s.faultRecord := rfl
@[simp] theorem writeVLow128_history (s : State) (r : VReg) (val : Vec) :
    (writeVLow128 s r val).history = s.history := rfl

@[simp] theorem advance_cfg (s : State) (n : Nat) :
    (advance s n).cfg = s.cfg := rfl
@[simp] theorem advance_v (s : State) (n : Nat) :
    (advance s n).v = s.v := rfl
@[simp] theorem advance_k (s : State) (n : Nat) :
    (advance s n).k = s.k := rfl
@[simp] theorem advance_x (s : State) (n : Nat) :
    (advance s n).x = s.x := rfl
@[simp] theorem advance_segBase (s : State) (n : Nat) :
    (advance s n).segBase = s.segBase := rfl
@[simp] theorem advance_mem (s : State) (n : Nat) :
    (advance s n).mem = s.mem := rfl
@[simp] theorem advance_regions (s : State) (n : Nat) :
    (advance s n).regions = s.regions := rfl
@[simp] theorem advance_text (s : State) (n : Nat) :
    (advance s n).text = s.text := rfl
@[simp] theorem advance_faultRecord (s : State) (n : Nat) :
    (advance s n).faultRecord = s.faultRecord := rfl
@[simp] theorem advance_history (s : State) (n : Nat) :
    (advance s n).history = s.history := rfl

@[simp] theorem recordFault_cfg (s : State) (f : Fault) :
    (recordFault f s).cfg = s.cfg := rfl
@[simp] theorem recordFault_v (s : State) (f : Fault) :
    (recordFault f s).v = s.v := rfl
@[simp] theorem recordFault_k (s : State) (f : Fault) :
    (recordFault f s).k = s.k := rfl
@[simp] theorem recordFault_x (s : State) (f : Fault) :
    (recordFault f s).x = s.x := rfl
@[simp] theorem recordFault_segBase (s : State) (f : Fault) :
    (recordFault f s).segBase = s.segBase := rfl
@[simp] theorem recordFault_pc (s : State) (f : Fault) :
    (recordFault f s).pc = s.pc := rfl
@[simp] theorem recordFault_mem (s : State) (f : Fault) :
    (recordFault f s).mem = s.mem := rfl
@[simp] theorem recordFault_regions (s : State) (f : Fault) :
    (recordFault f s).regions = s.regions := rfl
@[simp] theorem recordFault_text (s : State) (f : Fault) :
    (recordFault f s).text = s.text := rfl
@[simp] theorem recordFault_history (s : State) (f : Fault) :
    (recordFault f s).history = s.history := rfl

@[simp] theorem placeText_cfg (s : State) (bs : List Byte) :
    (placeText s bs).cfg = s.cfg := rfl
@[simp] theorem placeText_v (s : State) (bs : List Byte) :
    (placeText s bs).v = s.v := rfl
@[simp] theorem placeText_k (s : State) (bs : List Byte) :
    (placeText s bs).k = s.k := rfl
@[simp] theorem placeText_x (s : State) (bs : List Byte) :
    (placeText s bs).x = s.x := rfl
@[simp] theorem placeText_segBase (s : State) (bs : List Byte) :
    (placeText s bs).segBase = s.segBase := rfl
@[simp] theorem placeText_pc (s : State) (bs : List Byte) :
    (placeText s bs).pc = s.pc := rfl
@[simp] theorem placeText_mem (s : State) (bs : List Byte) :
    (placeText s bs).mem = s.mem := rfl
@[simp] theorem placeText_regions (s : State) (bs : List Byte) :
    (placeText s bs).regions = s.regions := rfl
@[simp] theorem placeText_faultRecord (s : State) (bs : List Byte) :
    (placeText s bs).faultRecord = s.faultRecord := rfl
@[simp] theorem placeText_history (s : State) (bs : List Byte) :
    (placeText s bs).history = s.history := rfl

@[simp] theorem memWrite_cfg (s : State) (a n : Nat) (val : Vec) :
    (memWrite s a n val).cfg = s.cfg := rfl
@[simp] theorem memWrite_v (s : State) (a n : Nat) (val : Vec) :
    (memWrite s a n val).v = s.v := rfl
@[simp] theorem memWrite_k (s : State) (a n : Nat) (val : Vec) :
    (memWrite s a n val).k = s.k := rfl
@[simp] theorem memWrite_x (s : State) (a n : Nat) (val : Vec) :
    (memWrite s a n val).x = s.x := rfl
@[simp] theorem memWrite_segBase (s : State) (a n : Nat) (val : Vec) :
    (memWrite s a n val).segBase = s.segBase := rfl
@[simp] theorem memWrite_pc (s : State) (a n : Nat) (val : Vec) :
    (memWrite s a n val).pc = s.pc := rfl
@[simp] theorem memWrite_regions (s : State) (a n : Nat) (val : Vec) :
    (memWrite s a n val).regions = s.regions := rfl
@[simp] theorem memWrite_text (s : State) (a n : Nat) (val : Vec) :
    (memWrite s a n val).text = s.text := rfl
@[simp] theorem memWrite_faultRecord (s : State) (a n : Nat) (val : Vec) :
    (memWrite s a n val).faultRecord = s.faultRecord := rfl
@[simp] theorem memWrite_history (s : State) (a n : Nat) (val : Vec) :
    (memWrite s a n val).history = s.history := rfl

@[simp] theorem advance_pc (s : State) (n : Nat) :
    (advance s n).pc = BitVec.ofNat 64 ((s.pc.toNat + n) % s.cfg.aw.space) := rfl
@[simp] theorem recordFault_faultRecord (s : State) (f : Fault) :
    (recordFault f s).faultRecord = some f := rfl

@[simp] theorem readV_advance (s : State) (n : Nat) (r : VReg) :
    readV (advance s n) r = readV s r := rfl
@[simp] theorem readV_recordFault (s : State) (f : Fault) (r : VReg) :
    readV (recordFault f s) r = readV s r := rfl
@[simp] theorem readByte_advance (s : State) (n a : Nat) :
    readByte (advance s n) a = readByte s a := rfl
@[simp] theorem readByte_writeV (s : State) (r : VReg) (val : Vec) (a : Nat) :
    readByte (writeV s r val) a = readByte s a := rfl
@[simp] theorem readByte_writeVLow128 (s : State) (r : VReg) (val : Vec) (a : Nat) :
    readByte (writeVLow128 s r val) a = readByte s a := rfl

/-- A write to a vector register is read back, cut at MAXVL (R10). -/
@[simp] theorem readV_writeV_same (s : State) (r : VReg) (val : Vec) :
    readV (writeV s r val) r = lowBits s.cfg.maxvl val := by
  simp [readV, writeV]

/-- A write to one vector register leaves every other alone. -/
theorem readV_writeV_other (s : State) (r d : VReg) (val : Vec) (h : r ≠ d) :
    readV (writeV s d val) r = readV s r := by
  have h' : ¬ d.toNat = r.toNat := fun e => h (BitVec.eq_of_toNat_eq e.symm)
  simp [readV, writeV, h']

/-- A low-half write leaves every other register alone. -/
theorem readV_writeVLow128_other (s : State) (r d : VReg) (val : Vec) (h : r ≠ d) :
    readV (writeVLow128 s d val) r = readV s r :=
  readV_writeV_other s r d _ h

end Sys2Proof.Machine
end

