-- ==== Sys2Proof/Laws/Access.lean ====
section
/-! SUPPORT. What a memory access answers: the launch memory's verdict in the terms of Safety.lean, and
the one lemma that says all a `MemRead` and an operand read can do. -/

namespace Sys2Proof.Machine

/-- A first region of a kind is found exactly when some byte lies in one. -/
theorem firstRegion_isSome (p : RegionKind → Bool) (rs : List Region) :
    ∀ (n addr : Nat), (firstRegion p rs addr n).isSome =
      (List.range n).any (fun j => (regionAt rs (addr + j)).any p)
  | 0, _ => rfl
  | n + 1, addr => by
    have ih := firstRegion_isSome p rs n (addr + 1)
    have hr : (List.range (n + 1)).any (fun j => (regionAt rs (addr + j)).any p) =
        ((regionAt rs addr).any p ||
          (List.range n).any (fun j => (regionAt rs (addr + 1 + j)).any p)) := by
      rw [List.range_succ_eq_map]
      simp [List.any_map, Function.comp_def, Nat.add_assoc, Nat.add_comm 1]
    rw [hr, ← ih]
    simp only [firstRegion]
    cases regionAt rs addr with
    | none => simp
    | some kd => by_cases h : p kd = true <;> simp [h]

/-- A first region of a kind is of that kind. -/
theorem firstRegion_kind (p : RegionKind → Bool) (rs : List Region) (kd : RegionKind) :
    ∀ (n addr : Nat), firstRegion p rs addr n = some kd → p kd = true
  | 0, _, h => by simp [firstRegion] at h
  | n + 1, addr, h => by
    simp only [firstRegion] at h
    split at h
    · split at h
      · next h2 => cases h; exact h2
      · exact firstRegion_kind p rs kd n (addr + 1) h
    · exact firstRegion_kind p rs kd n (addr + 1) h

/-- The oracle has nothing to say exactly of a readable access. -/
theorem accessVerdict_none_iff (s : State) (a : MemAccess) :
    accessVerdict s a.seg a.addr a.size = none ↔ readable s a = true := by
  have hu := firstRegion_isSome RegionKind.isUnadmitted s.regions a.size a.addr
  have hd := firstRegion_isSome RegionKind.isDevice s.regions a.size a.addr
  have hs := firstRegion_isSome RegionKind.isSegFault s.regions a.size a.addr
  have hp := firstRegion_isSome RegionKind.isPageFault s.regions a.size a.addr
  unfold accessVerdict
  simp only [readable, admitted, inSpace, touches, ← hu, ← hd, ← hs, ← hp]
  by_cases h1 : s.cfg.aw.space < a.addr + a.size
  · simp [h1]
  · have h1' : a.addr + a.size ≤ s.cfg.aw.space := by omega
    simp only [h1, if_false, h1', decide_true, Bool.true_and]
    cases (firstRegion RegionKind.isUnadmitted s.regions a.addr a.size).isSome with
    | true => simp
    | false =>
      cases (firstRegion RegionKind.isDevice s.regions a.addr a.size).isSome with
      | true => simp
      | false =>
        cases (firstRegion RegionKind.isSegFault s.regions a.addr a.size).isSome with
        | true => simp
        | false =>
          cases h : firstRegion RegionKind.isPageFault s.regions a.addr a.size with
          | none => simp
          | some kd =>
            have := firstRegion_kind _ _ _ _ _ h
            cases kd <;> simp_all [RegionKind.isPageFault]

/-- The launch memory's verdict in the terms of Safety.lean, in the order of its checks (R89). -/
theorem accessVerdict_eq (s : State) (a : MemAccess) :
    accessVerdict s a.seg a.addr a.size =
      if inSpace s a = false then some (.refuse .addressWraps)
      else if touches RegionKind.isUnadmitted s a = true then some (.refuse .notAdmitted)
      else if touches RegionKind.isDevice s a = true then some (.refuse .deviceMemory)
      else if touches RegionKind.isSegFault s a = true then some (.fault (segFaultOf a.seg))
      else
        match firstRegion RegionKind.isPageFault s.regions a.addr a.size with
        | some (.pageFault code) => some (.fault (.pf code))
        | _ => none := by
  unfold accessVerdict inSpace touches
  simp only [firstRegion_isSome, decide_eq_false_iff_not, Nat.not_le] <;> rfl

/-- The first page-faulting byte of an access decides the code (assumption 7). -/
theorem firstRegion_page (rs : List Region) (code : BitVec 32) :
    ∀ (n addr j : Nat), j < n → regionAt rs (addr + j) = some (.pageFault code) →
      (∀ j', j' < j → ∀ c, regionAt rs (addr + j') ≠ some (.pageFault c)) →
      firstRegion RegionKind.isPageFault rs addr n = some (.pageFault code)
  | 0, _, _, h, _, _ => by omega
  | n + 1, addr, 0, _, h, _ => by
    simp only [Nat.add_zero] at h
    simp [firstRegion, h, RegionKind.isPageFault]
  | n + 1, addr, j + 1, hj, h, hb => by
    have ih := firstRegion_page rs code n (addr + 1) j (by omega)
      (by rw [← h]; congr 1; omega)
      (fun j' hj' c => by
        have := hb (j' + 1) (by omega) c
        rwa [show addr + 1 + j' = addr + (j' + 1) by omega])
    have h0 := hb 0 (by omega)
    simp only [Nat.add_zero] at h0
    simp only [firstRegion]
    cases hr : regionAt rs addr with
    | none => exact ih
    | some kd => cases kd <;> simp_all [RegionKind.isPageFault]

/-- A readable access answers its bytes and adds one event; any other stops. -/
theorem memRead_eq (s : State) (a : MemAccess) :
    memRead s a.seg a.addr a.size =
      match accessVerdict s a.seg a.addr a.size with
      | some st => .error st
      | none =>
        .ok (loadBytes s a.addr a.size,
          { s with history := { addr := a.addr, size := a.size } :: s.history }) := rfl

/-- All a `MemRead` that answers bytes can do (R20, R21, R24). -/
theorem memRead_ok {s s' : State} {g : Seg} {addr n : Nat} {b : Vec}
    (h : memRead s g addr n = .ok (b, s')) :
    readable s { seg := g, addr := addr, size := n } = true ∧ b = loadBytes s addr n ∧
      s' = { s with history := { addr := addr, size := n } :: s.history } := by
  have hv := accessVerdict_none_iff s { seg := g, addr := addr, size := n }
  simp only [memRead] at h
  split at h
  · cases h
  · next he =>
    simp only [Except.ok.injEq, Prod.mk.injEq] at h
    exact ⟨hv.1 he, h.1.symm, h.2.symm⟩

/-- A byte loaded is the byte at its address (R21). -/
theorem elem_loadBytes (s : State) (addr n i : Nat) (hn : n ≤ 64) (hi : i < n) :
    elem 8 i (loadBytes s addr n) = readByte s (addr + i) :=
  elem_ofElems 8 (by decide) n _ (by omega) i hi

/-- Only EVEX forms broadcast (R38). -/
theorem bcst_evex {i : Instr} {m : AddrMode} (h : i.src2 = .bcst m) :
    i.form.encClass = .evex := by
  cases i <;> first
    | rfl
    | (simp only [Instr.src2] at h
       next src => cases src <;> simp [RegMem.toBcst] at h)

/-- The state after an operand read: only the history differs, by the one event (R20, R24). -/
def afterRead (i : Instr) (s : State) : State := { s with history := eventsOf i s ++ s.history }

/-- The alignment check lets exactly the aligned full-width accesses through (R23). -/
theorem alignStop_none_iff (i : Instr) (s : State) (a : MemAccess) (h : a.size = i.form.vl.bytes) :
    alignStop i s a.addr = none ↔ aligned i s a = true := by
  unfold alignStop aligned
  rw [h]
  cases i.form.encClass <;> cases s.cfg.alignCheck <;> simp

/-- All an operand read that answers can do: the operand was ready, and the state is `afterRead`. -/
theorem readSrc2_ok {i : Instr} {s s' : State} {b : Vec} (h : readSrc2 i s = .ok (b, s')) :
    srcReady i s = true ∧ s' = afterRead i s := by
  unfold readSrc2 at h
  unfold srcReady afterRead eventsOf memAccess
  cases hs : i.src2 with
  | reg r =>
    simp only [hs, Except.ok.injEq, Prod.mk.injEq] at h
    simp [← h.2]
  | mem m =>
    simp only [hs] at h
    split at h
    · cases h
    · next hal =>
      obtain ⟨h1, -, h3⟩ := memRead_ok h
      have ha := (alignStop_none_iff i s
        { seg := segOf i.pfx m, addr := operandAddr i s false m, size := i.form.vl.bytes } rfl).1 hal
      exact ⟨by simp only [ha, Bool.true_and]; exact h1, h3⟩
  | bcst m =>
    simp only [hs] at h
    split at h
    · cases h
    · next m32 s1 hm =>
      split at h
      · cases h
      · next hal =>
        simp only [Except.ok.injEq, Prod.mk.injEq] at h
        obtain ⟨h1, -, h3⟩ := memRead_ok hm
        refine ⟨?_, h.2 ▸ h3⟩
        have ha : aligned i s
            { seg := segOf i.pfx m, addr := operandAddr i s true m, size := 4 } = true := by
          unfold aligned
          rw [bcst_evex hs]
          cases hc : s.cfg.alignCheck <;> simp_all
        simp only [ha, Bool.true_and]
        exact h1

theorem bits_le (vl : VecLen) : vl.bits ≤ 512 := by cases vl <;> decide

/-- A ready operand is read, and byte n of its value is the operand's byte n (R21, R55, R67). -/
theorem readSrc2_ready {i : Instr} {s : State} (h : srcReady i s = true) :
    ∃ b, readSrc2 i s = .ok (b, afterRead i s) ∧
      ∀ n, n < i.form.vl.bytes → elem 8 n b = srcByte i s n := by
  unfold srcReady memAccess at h
  unfold readSrc2 afterRead eventsOf memAccess
  cases hs : i.src2 with
  | reg r =>
    refine ⟨_, rfl, fun n hn => ?_⟩
    rw [elem_lowBits _ _ _ _ (by unfold VecLen.bits; omega)]
    simp [srcByte, hs]
  | mem m =>
    simp only [hs, Bool.and_eq_true] at h
    have hal := (alignStop_none_iff i s
      { seg := segOf i.pfx m, addr := operandAddr i s false m, size := i.form.vl.bytes } rfl).2 h.1
    have hv := (accessVerdict_none_iff s _).2 h.2
    refine ⟨loadBytes s (operandAddr i s false m) i.form.vl.bytes, ?_, fun n hn => ?_⟩
    · simp only [] at hal hv ⊢
      simp only [hal, memRead, operandBytes, Bool.false_eq_true, if_false, hv]
      rfl
    · rw [elem_loadBytes _ _ _ _ (bytes_le _) hn]
      simp [srcByte, hs]
  | bcst m =>
    simp only [hs, Bool.and_eq_true] at h
    have hv := (accessVerdict_none_iff s _).2 h.2
    have ha := h.1
    unfold aligned at ha
    rw [bcst_evex hs] at ha
    refine ⟨bcast32 i.form.vl ((loadBytes s (operandAddr i s true m) 4).setWidth 32), ?_,
      fun n hn => ?_⟩
    · simp only [] at hv ⊢
      simp only [memRead, operandBytes, if_true, hv]
      rw [if_neg]
      · rfl
      · cases hc : s.cfg.alignCheck <;> simp_all
    · apply BitVec.eq_of_getLsbD_eq
      intro b hb
      have h1 := elem_bcast32 i.form.vl ((loadBytes s (operandAddr i s true m) 4).setWidth 32)
        (n / 4) (by have : i.form.vl.bytes % 4 = 0 := by cases i.form.vl <;> rfl
                    omega)
      have h2 := congrArg (fun z => z.getLsbD (8 * (n % 4) + b)) h1
      have h3 := elem_loadBytes s (operandAddr i s true m) 4 (n % 4) (by decide)
        (Nat.mod_lt _ (by decide))
      have h4 := congrArg (fun z => z.getLsbD b) h3
      simp only [getLsbD_elem, BitVec.getLsbD_setWidth] at h2 h4
      rw [getLsbD_elem]
      have e1 : 32 * (n / 4) + (8 * (n % 4) + b) = 8 * n + b := by omega
      have l1 : 8 * (n % 4) + b < 32 := by omega
      simp only [e1, l1, hb, decide_true, Bool.true_and] at h2 h4 ⊢
      rw [h2, h4]
      simp [srcByte, hs]

/-- The value of the last operand, when it can be read. -/
def srcValue (i : Instr) (s : State) : Vec :=
  match i.src2 with
  | .reg r => lowBits i.form.vl (readV s r)
  | .mem m => loadBytes s (operandAddr i s false m) i.form.vl.bytes
  | .bcst m => bcast32 i.form.vl ((loadBytes s (operandAddr i s true m) 4).setWidth 32)

/-- What an operand read that answers has read. -/
theorem readSrc2_value {i : Instr} {s s' : State} {b : Vec} (h : readSrc2 i s = .ok (b, s')) :
    b = srcValue i s := by
  unfold readSrc2 at h
  unfold srcValue
  cases hs : i.src2 with
  | reg r =>
    simp only [hs, Except.ok.injEq, Prod.mk.injEq] at h
    exact h.1.symm
  | mem m =>
    simp only [hs] at h
    split at h
    · cases h
    · exact (memRead_ok h).2.1
  | bcst m =>
    simp only [hs] at h
    split at h
    · cases h
    · next m32 s1 hm =>
      split at h
      · cases h
      · simp only [Except.ok.injEq, Prod.mk.injEq] at h
        rw [← h.1, (memRead_ok hm).2.1]
        rfl

/-- All an operand read that answers can do, and when it answers. -/
theorem readSrc2_ok_iff (i : Instr) (s s' : State) (b : Vec) :
    readSrc2 i s = .ok (b, s') ↔
      srcReady i s = true ∧ b = srcValue i s ∧ s' = afterRead i s := by
  constructor
  · intro h
    obtain ⟨h1, h2⟩ := readSrc2_ok h
    exact ⟨h1, readSrc2_value h, h2⟩
  · rintro ⟨h1, rfl, rfl⟩
    obtain ⟨b, hb, -⟩ := readSrc2_ready h1
    rw [hb, readSrc2_value hb]

/-- The stop of an access whose operand must be aligned and is not (R23, R84). -/
def alignStopOf (i : Instr) : Stop :=
  match i.form.encClass with
  | .legacy => .fault .gp0
  | .vex | .evex => .refuse .wideMisaligned

/-- What an operand read answers when it stops, in the order of the checks (R23, R88, R89). -/
def stopOf (i : Instr) (s : State) (a : MemAccess) : Option Stop :=
  if reachesRead i s a = false then some (alignStopOf i)
  else
    match accessVerdict s a.seg a.addr a.size with
    | some st => some st
    | none =>
      if i.src2.isBcst = true ∧ s.cfg.alignCheck = true ∧ a.addr % 4 ≠ 0 then some (.fault .ac0)
      else none

/-- All an operand read that stops can do (R23, R88, R89). -/
theorem readSrc2_error_iff (i : Instr) (s : State) (st : Stop) :
    readSrc2 i s = .error st ↔ ∃ a, memAccess i s = some a ∧ stopOf i s a = some st := by
  unfold readSrc2 memAccess
  cases hs : i.src2 with
  | reg r => simp
  | mem m =>
    have hal := alignStop_none_iff i s
      { seg := segOf i.pfx m, addr := operandAddr i s false m, size := i.form.vl.bytes } rfl
    simp only [Option.some.injEq, exists_eq_left'] at hal ⊢
    unfold stopOf reachesRead
    simp only [hs, RegMemBcst.isBcst, Bool.false_or, Bool.false_eq_true, false_and, if_false]
    cases h : alignStop i s (operandAddr i s false m) with
    | some st' =>
      have h1 : aligned i s
          { seg := segOf i.pfx m, addr := operandAddr i s false m, size := i.form.vl.bytes } =
            false := by
        rw [← Bool.not_eq_true, ← hal, h]; simp
      have h2 : st' = alignStopOf i := by
        unfold alignStop at h
        unfold alignStopOf
        cases hc : i.form.encClass <;> simp only [hc] at h <;> split at h <;>
          simp_all
      simp [h1, h2]
    | none =>
      have h1 := hal.1 h
      simp only [h1, Bool.true_eq_false, if_false, memRead, operandBytes]
      cases hv : accessVerdict s (segOf i.pfx m) (operandAddr i s false m) i.form.vl.bytes <;>
        simp [hv]
  | bcst m =>
    simp only [Option.some.injEq, exists_eq_left']
    unfold stopOf reachesRead memRead operandBytes
    simp only [hs, RegMemBcst.isBcst, Bool.true_or, Bool.true_eq_false, if_false, if_true,
      true_and]
    cases accessVerdict s (segOf i.pfx m) (operandAddr i s true m) 4 with
    | some st' => simp
    | none =>
      by_cases h : s.cfg.alignCheck = true ∧ operandAddr i s true m % 4 ≠ 0 <;> simp [h]

end Sys2Proof.Machine
end

