-- ==== Sys2Proof/Laws/Address.lean ====
section
/-! SUPPORT. The address computation against the integer rows of R45: every part of `offsetOf` is congruent to its
integer, modulo 2^w for any w up to 64, so a width of 64 and one of 32 share one argument. -/

namespace Sys2Proof.Machine

/-- A 64-bit value stands for an integer modulo 2^w. -/
def Cong (w : Nat) (a : Addr) (z : Int) : Prop := (a.toNat : Int) % 2 ^ w = z % 2 ^ w

/-- Reducing modulo 2^64 first changes no residue modulo 2^w. -/
theorem emod_space {w : Nat} (hw : w ≤ 64) (x : Int) :
    x % ((2 ^ 64 : Nat) : Int) % 2 ^ w = x % 2 ^ w := by
  have := Int.natCast_dvd_natCast.2 (Nat.pow_dvd_pow 2 hw)
  rw [Int.natCast_pow] at this
  exact Int.emod_emod_of_dvd _ this

theorem Cong.self {w : Nat} (a : Addr) : Cong w a a.toNat := rfl

theorem Cong.add {w : Nat} {a b : Addr} {y z : Int} (hw : w ≤ 64) (h1 : Cong w a y)
    (h2 : Cong w b z) : Cong w (a + b) (y + z) := by
  unfold Cong at *
  rw [BitVec.toNat_add, Int.natCast_emod, Int.natCast_add, emod_space hw, Int.add_emod, h1, h2, ← Int.add_emod]

theorem Cong.mul {w : Nat} {a b : Addr} {y z : Int} (hw : w ≤ 64) (h1 : Cong w a y)
    (h2 : Cong w b z) : Cong w (a * b) (y * z) := by
  unfold Cong at *
  rw [BitVec.toNat_mul, Int.natCast_emod, Int.natCast_mul, emod_space hw, Int.mul_emod, h1, h2, ← Int.mul_emod]

theorem Cong.ofNat {w : Nat} (n : Nat) (hw : w ≤ 64) : Cong w (BitVec.ofNat 64 n) n := by
  unfold Cong
  rw [BitVec.toNat_ofNat, Int.natCast_emod, emod_space hw]

theorem Cong.signExtend {w k : Nat} (hw : w ≤ 64) (hk : k ≤ 64) (d : BitVec k) :
    Cong w (d.signExtend 64) d.toInt := by
  have h : (d.signExtend 64).toInt = d.toInt := BitVec.toInt_signExtend_of_le hk
  have e : ((d.signExtend 64).toNat : Int) % ((2 ^ 64 : Nat) : Int) =
      d.toInt % ((2 ^ 64 : Nat) : Int) := by
    rw [← h, BitVec.toInt_eq_toNat_bmod]
    exact (Int.bmod_emod).symm
  unfold Cong
  rw [← emod_space hw, e, emod_space hw]

theorem narrow_false (a : Addr) : narrow false a = a := rfl

theorem toNat_narrow_true (a : Addr) : (narrow true a).toNat = a.toNat % 2 ^ 32 := by
  simp only [narrow, if_true, BitVec.toNat_setWidth]
  omega

theorem Cong.narrow {a : Addr} {z : Int} {is32 : Bool} (h : Cong 32 a z) :
    Cong 32 (Machine.narrow is32 a) z := by
  cases is32 with
  | false => exact h
  | true =>
    unfold Cong at *
    rw [toNat_narrow_true, ← h]
    omega

/-- At width 64 the value is the integer's residue. -/
theorem Cong.toNat_eq {a : Addr} {z : Int} (h : Cong 64 a z) : (a.toNat : Int) = z % 2 ^ 64 := by
  unfold Cong at h
  have := a.isLt
  omega

theorem Cong.scaleFactor {w : Nat} (hw : w ≤ 64) (sc : BitVec 2) :
    Cong w (scaleFactor sc) (2 ^ sc.toNat) := by
  have e : Machine.scaleFactor sc = BitVec.ofNat 64 (2 ^ sc.toNat) := by revert sc; decide
  have := Cong.ofNat (2 ^ sc.toNat) hw
  rw [Int.natCast_pow] at this
  rw [e]
  exact this

theorem Cong.dispValue {w : Nat} (hw : w ≤ 64) (n : Nat) (d : Disp) :
    Cong w (dispValue n d) (dispInt n d) := by
  cases d with
  | none => rfl
  | d8 d => exact (Cong.signExtend hw (by decide) d).mul hw (Cong.ofNat n hw)
  | d32 d => exact Cong.signExtend hw (by decide) d

theorem Cong.indexValue {w : Nat} (hw : w ≤ 64) {s : State} {is32 : Bool} {reg : GReg → Nat}
    (hr : ∀ r, Cong w (Machine.narrow is32 (readX s r)) (reg r)) (idx : Option Index) :
    Cong w (indexValue s is32 idx) (indexInt reg idx) := by
  cases idx with
  | none => rfl
  | some i => exact (hr i.reg).mul hw (Cong.scaleFactor hw i.scale)

/-- All `offsetOf` can answer: a value congruent to R45's row, cut to 32 bits when the computation is. -/
theorem offsetOf_cong {w : Nat} (hw : w ≤ 64) {s : State} {p : Pfx} {reg : GReg → Nat} {rip : Nat}
    (ilen n : Nat) (hr : ∀ r, Cong w (narrow (addr32 s p) (readX s r)) (reg r))
    (h64 : s.cfg.aw = .w64 → rip = s.pc.toNat + ilen) (h32 : s.cfg.aw = .w32 → rip = 0)
    (m : AddrMode) :
    ∃ raw, offsetOf s p ilen n m = narrow (addr32 s p) raw ∧
      Cong w raw (addrSum reg rip n m) := by
  refine ⟨_, rfl, ?_⟩
  cases m with
  | base b d => exact (hr b).add hw (Cong.dispValue hw n d)
  | sib b idx d => exact ((hr b).add hw (Cong.indexValue hw hr idx)).add hw (Cong.dispValue hw n d)
  | sibNoBase idx d =>
    exact (Cong.indexValue hw hr idx).add hw (Cong.signExtend hw (by decide) d)
  | disp32 d =>
    have hd := Cong.signExtend hw (by decide : 32 ≤ 64) d
    cases h : s.cfg.aw with
    | w64 =>
      simp only [addrSum, h64 h, Int.natCast_add]
      exact ((Cong.self s.pc).add hw (Cong.ofNat ilen hw)).add hw hd
    | w32 => simpa only [addrSum, h32 h, Int.natCast_zero, Int.zero_add] using hd

end Sys2Proof.Machine
end

