-- ==== Sys2Proof/Laws/Decode.lean ====
section
/-! SUPPORT. The parts of the decoder: what each reads back from what the encoder wrote, and all each can do
when it answers. -/

namespace Sys2Proof

/-! ### Reading back what the encoder wrote -/

theorem d32_bytes (d : BitVec 32) :
    d.extractLsb' 24 8 ++ d.extractLsb' 16 8 ++ d.extractLsb' 8 8 ++ d.extractLsb' 0 8 = d := by
  apply BitVec.eq_of_getLsbD_eq
  intro i hi
  simp only [BitVec.getLsbD_append, BitVec.getLsbD_extractLsb']
  by_cases h1 : i < 8
  · simp [h1]
  · by_cases h2 : i < 16
    · simp [h1, show i - 8 < 8 by omega, show 8 + (i - 8) = i by omega]
    · by_cases h3 : i < 24
      · simp [h1, show ¬i - 8 < 8 by omega, show i - 8 - 8 < 8 by omega,
          show 16 + (i - 8 - 8) = i by omega]
      · simp [h1, show ¬i - 8 < 8 by omega, show ¬i - 8 - 8 < 8 by omega,
          show i - 8 - 8 - 8 < 8 by omega, show 24 + (i - 8 - 8 - 8) = i by omega]

theorem takeD32_encode (d : BitVec 32) (rest : List Byte) :
    takeD32 (encodeD32 d ++ rest) = .ok (d, rest) := by
  show Except.ok (_, rest) = Except.ok (d, rest)
  rw [d32_bytes]

theorem takeDisp_encode (d : Disp) (rest : List Byte) :
    takeDisp d.mod (d.encode ++ rest) = .ok (d, rest) := by
  cases d with
  | none => rfl
  | d8 d => rfl
  | d32 d => simp [takeDisp, Disp.mod, Disp.encode, takeD32_encode]

theorem mod_ne_three (m : AddrMode) : m.mod ≠ 3#2 := by
  cases m with
  | base b d => cases d <;> simp [AddrMode.mod, Disp.mod]
  | sib b i d => cases d <;> simp [AddrMode.mod, Disp.mod]
  | sibNoBase i d => simp [AddrMode.mod]
  | disp32 d => simp [AddrMode.mod]

/-- The three fields of a ModRM or SIB byte. -/
theorem fields_2_3_3 (a : BitVec 2) (b c : BitVec 3) :
    (a ++ (b ++ c) : Byte).extractLsb' 6 2 = a ∧ (a ++ (b ++ c) : Byte).extractLsb' 3 3 = b ∧
      (a ++ (b ++ c) : Byte).extractLsb' 0 3 = c := by
  revert a b c; decide

theorem gregOf_self (b : GReg) : gregOf (b.getLsbD 3) (b.setWidth 3) = b := by revert b; decide

theorem vregOf_self (r : VReg) : vregOf (r.getLsbD 4) (r.getLsbD 3) (r.setWidth 3) = r := by
  revert r; decide

theorem present_eq_false (d : Disp) : d.present = false ↔ d.mod = 0#2 := by
  cases d <;> simp [Disp.present, Disp.mod]

theorem sibByte_fields (idx : Option Index) (base : BitVec 3) (h : indexWf idx = true) :
    (sibByte idx base).extractLsb' 0 3 = base ∧
      indexOf (indexExt idx) ((sibByte idx base).extractLsb' 3 3)
        ((sibByte idx base).extractLsb' 6 2) = idx := by
  cases idx with
  | none =>
    simp only [sibByte, (fields_2_3_3 _ _ _).2.1, (fields_2_3_3 _ _ _).2.2]
    exact ⟨trivial, rfl⟩
  | some i =>
    simp only [sibByte, indexExt, (fields_2_3_3 _ _ _).1, (fields_2_3_3 _ _ _).2.1,
      (fields_2_3_3 _ _ _).2.2, true_and, indexOf, gregOf_self]
    simp [indexWf, Index.wf] at h
    simp [h]

/-- The address of a well-formed operand is read back, given its own extension bits. -/
theorem takeMem_encode (m : AddrMode) (rest : List Byte) (h : m.wf = true) :
    takeMem m.extX m.extB m.mod m.rm (m.tail ++ rest) = .ok (m, rest) := by
  unfold takeMem
  cases m with
  | base b d =>
    simp [AddrMode.wf] at h
    have hn : ¬(d.mod = 0#2 ∧ b.setWidth 3 = 5#3) := by
      rintro ⟨h1, h2⟩
      rw [← present_eq_false] at h1
      simp [h1, h2] at h
    simp only [AddrMode.rm, AddrMode.mod, AddrMode.tail, AddrMode.extB, h.1, if_false, hn,
      takeDisp_encode, gregOf_self]
  | sib b idx d =>
    simp only [AddrMode.wf, Bool.and_eq_true, Bool.or_eq_true, decide_eq_true_eq] at h
    have hn : ¬(d.mod = 0#2 ∧ b.setWidth 3 = 5#3) := by
      rintro ⟨h1, h2⟩
      rw [← present_eq_false] at h1
      simp [h1, h2] at h
    obtain ⟨h1, h2⟩ := sibByte_fields idx (b.setWidth 3) h.1
    simp only [AddrMode.rm, AddrMode.mod, AddrMode.tail, AddrMode.extB, AddrMode.extX, if_true,
      takeSib, List.cons_append, h1, h2, hn, if_false, takeDisp_encode, gregOf_self]
  | sibNoBase idx d =>
    obtain ⟨h1, h2⟩ := sibByte_fields idx 5#3 h
    simp only [AddrMode.rm, AddrMode.mod, AddrMode.tail, AddrMode.extX, if_true, takeSib,
      List.cons_append, h1, h2, and_self, takeD32_encode]
  | disp32 d => simp [AddrMode.rm, AddrMode.mod, AddrMode.tail, takeD32_encode]

theorem takeModRM_reg (x b : Bool) (reg : BitVec 3) (r : VReg) (rest : List Byte) :
    takeModRM x b ((RegMemBcst.reg r).encode reg ++ rest) =
      .ok (reg, .reg (r.setWidth 3), rest) := by
  simp only [RegMemBcst.encode, takeModRM, List.cons_append, List.nil_append]
  obtain ⟨h1, h2, h3⟩ := fields_2_3_3 3#2 reg (r.setWidth 3)
  rw [h1, h2, h3, if_pos rfl]

theorem takeModRM_mem (reg : BitVec 3) (m : AddrMode) (rest : List Byte) (h : m.wf = true) :
    takeModRM m.extX m.extB ((m.mod ++ (reg ++ m.rm)) :: m.tail ++ rest) =
      .ok (reg, .mem m, rest) := by
  simp only [takeModRM, List.cons_append]
  obtain ⟨h1, h2, h3⟩ := fields_2_3_3 m.mod reg m.rm
  rw [h1, h2, h3, if_neg (mod_ne_three m), takeMem_encode m rest h]

/-- The leading bytes are read back. -/
theorem scanPfx_encode (aw : AddrWidth) (p : Pfx) (op : Bool) (rest : List Byte)
    (h : aw = .w32 → p.a32 = false) :
    scanPfx aw { pfx := { seg := none, a32 := false }, op66 := op } (p.encode ++ rest) =
      scanPfx aw { pfx := p, op66 := op } rest := by
  rcases p with ⟨seg, a32⟩
  cases a32 with
  | false =>
    cases seg with
    | none => rfl
    | some g => cases g <;> simp [Pfx.encode, Seg.byte, scanPfx, pfxByte]
  | true =>
    have h2 : aw ≠ .w32 := fun e => by simp [e] at h
    cases seg with
    | none => simp [Pfx.encode, scanPfx, pfxByte, h2]
    | some g => cases g <;> simp [Pfx.encode, Seg.byte, scanPfx, pfxByte, h2]

/-! ### All a part can do when it answers -/

theorem takeD32_ok {bs : List Byte} {d : BitVec 32} {rest : List Byte}
    (h : takeD32 bs = .ok (d, rest)) : ∃ u, bs = u ++ rest ∧ u.length = 4 := by
  unfold takeD32 at h
  split at h
  · simp at h
    obtain ⟨-, rfl⟩ := h
    exact ⟨[_, _, _, _], rfl, rfl⟩
  · cases h

theorem takeDisp_ok {mod : BitVec 2} {bs : List Byte} {d : Disp} {rest : List Byte}
    (h : takeDisp mod bs = .ok (d, rest)) :
    ∃ u, bs = u ++ rest ∧ u.length = d.len ∧ (mod = 0#2 ↔ d.present = false) := by
  unfold takeDisp at h
  split at h
  · next h0 =>
    simp at h
    obtain ⟨rfl, rfl⟩ := h
    exact ⟨[], rfl, rfl, by simp [h0, Disp.present]⟩
  · next h0 =>
    split at h
    · split at h
      · cases h
      · simp at h
        obtain ⟨rfl, rfl⟩ := h
        exact ⟨[_], rfl, rfl, by simp [h0, Disp.present]⟩
    · split at h
      · cases h
      · next hd =>
        simp at h
        obtain ⟨rfl, rfl⟩ := h
        obtain ⟨u, h1, h2⟩ := takeD32_ok hd
        exact ⟨u, h1, h2, by simp [h0, Disp.present]⟩

/-- What a raw last operand satisfies: an address is well-formed and needs no extension bit that is not
there. -/
def RawRM.Ok (x b : Bool) : RawRM → Prop
  | .reg _ => True
  | .mem m => m.wf = true ∧ (m.extB = true → b = true) ∧ (m.extX = true → x = true)

/-- The bytes after ModRM. -/
def RawRM.len : RawRM → Nat
  | .reg _ => 0
  | .mem m => m.len

theorem gregOf_fields (b : Bool) (f : BitVec 3) :
    (gregOf b f).setWidth 3 = f ∧ (gregOf b f).getLsbD 3 = b := by revert b f; decide

theorem indexOf_wf (x : Bool) (f : BitVec 3) (sc : BitVec 2) :
    indexWf (indexOf x f sc) = true ∧ (indexExt (indexOf x f sc) = true → x = true) := by
  unfold indexOf
  split
  · exact ⟨rfl, by simp [indexExt]⟩
  · next h =>
    exact ⟨by simp [indexWf, Index.wf, h],
      by simp only [indexExt]; rw [(gregOf_fields _ _).2]; exact id⟩

theorem takeSib_ok {x b : Bool} {mod : BitVec 2} {bs : List Byte} {m : AddrMode} {rest : List Byte}
    (h : takeSib x b mod bs = .ok (m, rest)) :
    ∃ u, bs = u ++ rest ∧ u.length = m.len ∧ RawRM.Ok x b (.mem m) := by
  unfold takeSib at h
  cases bs with
  | nil => cases h
  | cons sb bs =>
    simp only at h
    split at h
    · split at h
      · cases h
      · next hd =>
        simp at h
        obtain ⟨rfl, rfl⟩ := h
        obtain ⟨u, h1, h2⟩ := takeD32_ok hd
        exact ⟨sb :: u, by simp [h1], by simp [h2, AddrMode.len], (indexOf_wf _ _ _).1,
          by simp [AddrMode.extB], (indexOf_wf _ _ _).2⟩
    · next hne =>
      split at h
      · cases h
      · next hd =>
        simp at h
        obtain ⟨rfl, rfl⟩ := h
        obtain ⟨u, h1, h2, h3⟩ := takeDisp_ok hd
        refine ⟨sb :: u, by simp [h1], by simp [h2, AddrMode.len]; omega, ?_,
          by simp only [AddrMode.extB]; rw [(gregOf_fields _ _).2]; exact id,
          (indexOf_wf _ _ _).2⟩
        simp only [AddrMode.wf, (indexOf_wf _ _ _).1, (gregOf_fields _ _).1, Bool.true_and]
        simp only [h3] at hne
        rw [Bool.or_eq_true]
        by_contra hc
        simp at hc
        exact hne hc

/-- All ModRM and what follows it can answer (R40, R41, R45). -/
theorem takeModRM_ok {x b : Bool} {bs : List Byte} {reg : BitVec 3} {rm : RawRM} {rest : List Byte}
    (h : takeModRM x b bs = .ok (reg, rm, rest)) :
    ∃ u, bs = u ++ rest ∧ u.length = 1 + rm.len ∧ rm.Ok x b := by
  unfold takeModRM at h
  cases bs with
  | nil => cases h
  | cons mb bs =>
    simp only at h
    split at h
    · simp at h
      obtain ⟨-, rfl, rfl⟩ := h
      exact ⟨[mb], rfl, rfl, trivial⟩
    · split at h
      · cases h
      · next hm =>
        simp at h
        obtain ⟨-, rfl, rfl⟩ := h
        unfold takeMem at hm
        split at hm
        · obtain ⟨u, h1, h2, h3⟩ := takeSib_ok hm
          exact ⟨mb :: u, by simp [h1], by simp [h2, RawRM.len]; omega, h3⟩
        · next hn =>
          split at hm
          · split at hm
            · cases hm
            · next hd =>
              simp at hm
              obtain ⟨rfl, rfl⟩ := hm
              obtain ⟨u, h1, h2⟩ := takeD32_ok hd
              exact ⟨mb :: u, by simp [h1], by simp [h2, RawRM.len, AddrMode.len], rfl,
                by simp [AddrMode.extB], by simp [AddrMode.extX]⟩
          · next hne =>
            split at hm
            · cases hm
            · next hd =>
              simp at hm
              obtain ⟨rfl, rfl⟩ := hm
              obtain ⟨u, h1, h2, h3⟩ := takeDisp_ok hd
              refine ⟨mb :: u, by simp [h1], by simp [h2, RawRM.len, AddrMode.len]; omega, ?_,
                by simp only [AddrMode.extB]; rw [(gregOf_fields _ _).2]; exact id,
                by simp [AddrMode.extX]⟩
              simp only [AddrMode.wf, (gregOf_fields _ _).1]
              simp only [h3] at hne
              simp [hn]
              by_contra hc
              simp at hc
              exact hne hc

/-- All the walk over the leading bytes can answer (R30, R31, R49). -/
theorem scanPfx_ok {aw : AddrWidth} :
    ∀ {bs : List Byte} {acc acc' : PfxAcc} {b : Byte} {rest : List Byte},
      scanPfx aw acc bs = .ok (acc', b, rest) →
      ∃ u, bs = u ++ b :: rest ∧
        u.length + acc.pfx.len + (if acc.op66 then 1 else 0) =
          acc'.pfx.len + (if acc'.op66 then 1 else 0) ∧
        (acc.pfx.a32 = false → aw = .w32 → acc'.pfx.a32 = false) := by
  intro bs
  induction bs with
  | nil => intro _ _ _ _ h; cases h
  | cons c bs ih =>
    intro acc acc' b rest h
    unfold scanPfx at h
    split at h
    · split at h
      · cases h
      · next g _ hs =>
        obtain ⟨u, h1, h2, h3⟩ := ih h
        refine ⟨c :: u, by simp [h1], ?_, h3⟩
        simp at hs
        simp [Pfx.len, hs] at h2 ⊢
        omega
    · split at h
      · cases h
      · next ha =>
        split at h
        · cases h
        · next hs =>
          obtain ⟨u, h1, h2, h3⟩ := ih h
          refine ⟨c :: u, by simp [h1], ?_, fun _ e => absurd e ha⟩
          simp at hs
          simp [Pfx.len, hs] at h2 ⊢
          omega
    · split at h
      · cases h
      · next hs =>
        obtain ⟨u, h1, h2, h3⟩ := ih h
        refine ⟨c :: u, by simp [h1], ?_, h3⟩
        simp at hs
        simp [hs] at h2 ⊢
        omega
    · cases h
    · cases h
    · simp at h
      obtain ⟨rfl, rfl, rfl⟩ := h
      exact ⟨[], rfl, by simp, fun h _ => h⟩

/-- What each optional leading byte is (R31). -/
theorem pfxByte_lead {b : Byte} (h : b ∈ Machine.leadBytes) :
    (∃ g, pfxByte b = .seg g ∧ b ≠ 0x66#8) ∨ (pfxByte b = .a32 ∧ b ≠ 0x66#8) ∨
      (pfxByte b = .op66 ∧ b = 0x66#8) := by
  simp only [Machine.leadBytes, List.mem_cons, List.not_mem_nil, or_false] at h
  rcases h with rfl | rfl | rfl | rfl | rfl | rfl | rfl | rfl
  · exact .inl ⟨.cs, by decide⟩
  · exact .inl ⟨.ss, by decide⟩
  · exact .inl ⟨.ds, by decide⟩
  · exact .inl ⟨.es, by decide⟩
  · exact .inl ⟨.fs, by decide⟩
  · exact .inl ⟨.gs, by decide⟩
  · exact .inr (.inl (by decide))
  · exact .inr (.inr (by decide))

/-- The walk over leading bytes either refuses one of them, or goes on at the byte after them with a `66` noted
exactly when there was one. -/
theorem scanPfx_lead (aw : AddrWidth) (bs : List Byte) : ∀ (lead : List Byte) (acc : PfxAcc),
    (∀ b ∈ lead, b ∈ Machine.leadBytes) →
    (∃ e, scanPfx aw acc (lead ++ bs) = .error e) ∨
      ∃ p, scanPfx aw acc (lead ++ bs) =
        scanPfx aw { pfx := p, op66 := acc.op66 || decide (0x66#8 ∈ lead) } bs
  | [], acc, _ => .inr ⟨acc.pfx, by simp⟩
  | b :: lead, acc, h => by
    have hl : ∀ x ∈ lead, x ∈ Machine.leadBytes := fun x hx => h x (List.mem_cons_of_mem _ hx)
    rcases pfxByte_lead (h b List.mem_cons_self) with ⟨g, hb, hne⟩ | ⟨hb, hne⟩ | ⟨hb, he⟩
    · simp only [List.cons_append, scanPfx, hb]
      split
      · exact .inl ⟨_, rfl⟩
      · simpa [Ne.symm hne] using
          scanPfx_lead aw bs lead { acc with pfx := { acc.pfx with seg := some g } } hl
    · simp only [List.cons_append, scanPfx, hb]
      split
      · exact .inl ⟨_, rfl⟩
      · split
        · exact .inl ⟨_, rfl⟩
        · simpa [Ne.symm hne] using
            scanPfx_lead aw bs lead { acc with pfx := { acc.pfx with a32 := true } } hl
    · simp only [List.cons_append, scanPfx, hb]
      split
      · exact .inl ⟨_, rfl⟩
      · simpa [he] using scanPfx_lead aw bs lead { acc with op66 := true } hl

/-- The byte the decoder goes on at, behind leading bytes it does not refuse. -/
theorem decode_lead (c : Config) (b : Byte) (bs lead : List Byte)
    (h : ∀ x ∈ lead, x ∈ Machine.leadBytes) (hb : pfxByte b = .other) :
    (∃ e, decode c (lead ++ b :: bs) = .error e) ∨
      ∃ p, decode c (lead ++ b :: bs) =
        decodeMain c { pfx := p, op66 := decide (0x66#8 ∈ lead) } b bs := by
  unfold decode
  rcases scanPfx_lead c.aw (b :: bs) lead { pfx := { seg := none, a32 := false }, op66 := false } h
    with ⟨e, h⟩ | ⟨p, h⟩
  · exact .inl ⟨e, by rw [h]⟩
  · exact .inr ⟨p, by rw [h]; simp [scanPfx, hb]⟩

theorem finish_ok {c : Config} {i i' : Instr} {bs rest : List Byte}
    (h : finish c i bs = .ok (i', rest)) : i' = i ∧ rest = bs ∧ i.regsInFile c = true := by
  unfold finish at h
  split at h
  · next hr =>
    simp at h
    exact ⟨h.1.symm, h.2.symm, hr⟩
  · cases h

end Sys2Proof
end

