-- ==== Sys2Proof/Laws/Encoding.lean ====
section
/-! SUPPORT. The encoder's lengths, part by part, and the bits of the bytes it writes. -/

namespace Sys2Proof

theorem length_encodeD32 (d : BitVec 32) : (encodeD32 d).length = 4 := rfl

theorem length_encodeDisp (d : Disp) : d.encode.length = d.len := by cases d <;> rfl

theorem length_tail (m : AddrMode) : m.tail.length = m.len := by
  cases m <;>
    simp [AddrMode.tail, AddrMode.len, length_encodeDisp, length_encodeD32, Nat.add_comm]

theorem length_encodeRegMem (x : RegMemBcst) (reg : BitVec 3) :
    (x.encode reg).length = 1 + x.len := by
  cases x <;> simp [RegMemBcst.encode, RegMemBcst.len, length_tail, Nat.add_comm]

theorem length_encodePfx (p : Pfx) : p.encode.length = p.len := by
  rcases p with ⟨seg, a32⟩
  cases seg <;> cases a32 <;> rfl

theorem length_encodeLegacy (p : Pfx) (rex : Bool) (op : Byte) (d : VReg) (src : RegMemBcst) :
    (encodeLegacy p rex op d src).length =
      p.len + (3 + (if rex then 1 else 0)) + 1 + src.len := by
  cases rex <;>
    simp only [encodeLegacy, List.length_append, List.length_cons, List.length_nil,
      length_encodePfx, length_encodeRegMem, Bool.false_eq_true, if_true, if_false] <;> omega

theorem length_encodeVex (p : Pfx) (vex3 l : Bool) (op : Byte) (d s1 : VReg) (src2 : RegMemBcst) :
    (encodeVex p vex3 l op d s1 src2).length =
      p.len + (3 + (if vex3 then 1 else 0)) + 1 + src2.len := by
  cases vex3 <;>
    simp only [encodeVex, List.length_append, List.length_cons, List.length_nil,
      length_encodePfx, length_encodeRegMem, Bool.false_eq_true, if_true, if_false] <;> omega

theorem length_encodeEvex (p : Pfx) (ll : BitVec 2) (op : Byte) (wm : Writemask) (d s1 : VReg)
    (src2 : RegMemBcst) :
    (encodeEvex p ll op wm d s1 src2).length = p.len + 5 + 1 + src2.len := by
  simp only [encodeEvex, List.length_append, List.length_cons, List.length_nil,
    length_encodePfx, length_encodeRegMem]
  omega

/-- The encoding of an instruction is as long as R47 counts. -/
theorem length_encode (i : Instr) : (encode i).length = i.len := by
  cases i <;> first
    | exact length_encodeLegacy ..
    | exact length_encodeVex ..
    | exact length_encodeEvex ..

theorem len_pos (i : Instr) : 0 < i.len := by simp [Instr.len]

theorem dispLen_le (d : Disp) : d.len ≤ 4 := by cases d <;> simp [Disp.len]

theorem addrLen_le (m : AddrMode) : m.len ≤ 5 := by
  cases m with
  | base b d => have := dispLen_le d; simp only [AddrMode.len]; omega
  | sib b idx d => have := dispLen_le d; simp only [AddrMode.len]; omega
  | sibNoBase idx d => simp [AddrMode.len]
  | disp32 d => simp [AddrMode.len]

/-- Every instruction fits the fetch window (R30, R47). -/
theorem len_le_max (i : Instr) : i.len ≤ maxInstrBytes := by
  have hp : i.pfx.len ≤ 2 := by unfold Pfx.len; split <;> split <;> omega
  have hh : i.headLen ≤ 5 := by cases i <;> simp [Instr.headLen] <;> split <;> omega
  have hs : i.src2.len ≤ 5 := by cases i.src2 <;> simp [RegMemBcst.len, addrLen_le]
  simp only [Instr.len, maxInstrBytes]
  omega

end Sys2Proof
end

