-- ==== Sys2Proof/Laws/Exec.lean ====
section
/-! SUPPORT. One lemma that says once all an instruction can do, and what it does to DEST bit by bit. -/

namespace Sys2Proof.Machine

/-- The packing of a form: words to bytes, or doublewords to words. -/
def packOf : Form → VecLen → Vec → Vec → Vec
  | .packsswbSse128 | .vpacksswbVex128 | .vpacksswbVex256
  | .vpacksswbEvex128 | .vpacksswbEvex256 | .vpacksswbEvex512 => packWB
  | .packssdwSse128 | .vpackssdwVex128 | .vpackssdwVex256
  | .vpackssdwEvex128 | .vpackssdwEvex256 | .vpackssdwEvex512 => packDW

/-- The destination element width of a form: 8 or 16 bits. -/
def elemWidth : Form → Nat
  | .packsswbSse128 | .vpacksswbVex128 | .vpacksswbVex256
  | .vpacksswbEvex128 | .vpacksswbEvex256 | .vpacksswbEvex512 => 8
  | .packssdwSse128 | .vpackssdwVex128 | .vpackssdwVex256
  | .vpackssdwEvex128 | .vpackssdwEvex256 | .vpackssdwEvex512 => 16

/-- The value a form writes to DEST, from the values of its sources. -/
def destValue (i : Instr) (s : State) (a b : Vec) : Vec :=
  match i.form.encClass with
  | .legacy => setLow128 (readV s i.dest) (packOf i.form i.form.vl a b)
  | .vex => lowBits i.form.vl (packOf i.form i.form.vl a b)
  | .evex =>
    lowBits i.form.vl
      (maskWrite (elemWidth i.form) (i.form.vl.bits / elemWidth i.form)
        (lowBits i.form.vl (readV s i.dest)) (packOf i.form i.form.vl a b)
        (maskValue s i.writemask) i.writemask.z)

/-- The state after an instruction that completes, from the value of its last operand. -/
def completed (i : Instr) (s : State) (b : Vec) : State :=
  advance (writeV (afterRead i s) i.dest (destValue i s (readSrc1 i s) b)) i.len

/-- The outcome of an instruction, once for the twelve forms (R80, R89). -/
def outcomeOf (i : Instr) (s : State) : Outcome :=
  if i.wellFormed s.cfg = false then .refused .notAForm
  else
    match firstChecks s.cfg i.form with
    | some f => .fault f
    | none =>
      match readSrc2 i s with
      | .error st => st.outcome
      | .ok (b, _) => .next (completed i s b)

theorem runForm_eq (i : Instr) (s : State) (w : Vec → Vec → State → State)
    (hw : ∀ a b, w a b (afterRead i s) = writeV (afterRead i s) i.dest (destValue i s a b)) :
    runForm i s w = outcomeOf i s := by
  unfold runForm formOk raise outcomeOf
  by_cases h : i.wellFormed s.cfg = true
  · simp only [h, Bool.not_true, Bool.false_eq_true, if_false, Bool.true_eq_false]
    cases firstChecks s.cfg i.form with
    | some f => rfl
    | none =>
      cases hr : readSrc2 i s with
      | error st => rfl
      | ok r =>
        obtain ⟨b, s'⟩ := r
        obtain ⟨-, rfl⟩ := readSrc2_ok hr
        simp only [completed, hw]
  · simp [h]

theorem runLegacy_eq (i : Instr) (s : State) (h : i.form.encClass = .legacy) :
    runLegacy i (packOf i.form) s = outcomeOf i s :=
  runForm_eq i s _ (fun a b => by simp only [destValue, h]; rfl)

theorem runVex_eq (i : Instr) (s : State) (h : i.form.encClass = .vex) :
    runVex i (packOf i.form) s = outcomeOf i s :=
  runForm_eq i s _ (fun a b => by simp only [destValue, h])

theorem runEvex_eq (i : Instr) (s : State) (h : i.form.encClass = .evex) :
    runEvex i (elemWidth i.form) (packOf i.form) s = outcomeOf i s :=
  runForm_eq i s _ (fun a b => by simp only [destValue, h])

/-- All an instruction can do (R80, R89). -/
theorem exec_eq (i : Instr) (s : State) : exec i s = outcomeOf i s := by
  cases i <;> first
    | exact runLegacy_eq _ s rfl
    | exact runVex_eq _ s rfl
    | exact runEvex_eq _ s rfl

/-- When an instruction completes, and with what state. -/
theorem exec_next_iff (i : Instr) (s t : State) :
    exec i s = .next t ↔
      available i s = true ∧ ∃ b, readSrc2 i s = .ok (b, afterRead i s) ∧ t = completed i s b := by
  rw [exec_eq]
  unfold outcomeOf available firstChecks
  cases i.wellFormed s.cfg <;> cases formEnabled s.cfg i.form <;> cases s.cfg.nmCondition <;>
    simp
  cases hr : readSrc2 i s with
  | error st =>
    cases st <;> simp [Stop.outcome, raise]
  | ok r =>
    obtain ⟨b, s'⟩ := r
    obtain ⟨-, rfl⟩ := readSrc2_ok hr
    simp [eq_comm]

/-- When an instruction completes, on the operands alone, and with what state. -/
theorem exec_next_iff_runs (i : Instr) (s t : State) :
    exec i s = .next t ↔ runs i s = true ∧ t = completed i s (srcValue i s) := by
  rw [exec_next_iff]
  simp only [runs, Bool.and_eq_true]
  constructor
  · rintro ⟨h1, b, h2, h3⟩
    obtain ⟨h4, rfl, -⟩ := (readSrc2_ok_iff _ _ _ _).1 h2
    exact ⟨⟨h1, h4⟩, h3⟩
  · rintro ⟨⟨h1, h2⟩, h3⟩
    exact ⟨h1, _, (readSrc2_ok_iff _ _ _ _).2 ⟨h2, rfl, rfl⟩, h3⟩

/-- When an instruction faults, and with what (R80, R89). -/
theorem exec_fault_iff (i : Instr) (s : State) (f : Fault) :
    exec i s = .fault f ↔
      i.wellFormed s.cfg = true ∧
        ((f = .ud ∧ formEnabled s.cfg i.form = false) ∨
         (f = .nm ∧ formEnabled s.cfg i.form = true ∧ s.cfg.nmCondition = true) ∨
         (available i s = true ∧ readSrc2 i s = .error (.fault f))) := by
  rw [exec_eq]
  unfold outcomeOf available firstChecks
  cases i.wellFormed s.cfg <;> cases formEnabled s.cfg i.form <;> cases s.cfg.nmCondition <;>
    simp [eq_comm]
  cases readSrc2 i s with
  | ok r => simp
  | error st => cases st <;> simp [Stop.outcome, raise, eq_comm]

/-- When an instruction is refused, and with what reason (R80, R89). -/
theorem exec_refused_iff (i : Instr) (s : State) (r : Refusal) :
    exec i s = .refused r ↔
      (i.wellFormed s.cfg = false ∧ r = .notAForm) ∨
        (available i s = true ∧ readSrc2 i s = .error (.refuse r)) := by
  rw [exec_eq]
  unfold outcomeOf available firstChecks
  cases i.wellFormed s.cfg <;> cases formEnabled s.cfg i.form <;> cases s.cfg.nmCondition <;>
    simp [eq_comm]
  cases readSrc2 i s with
  | ok r => simp
  | error st => cases st <;> simp [Stop.outcome, raise, eq_comm]

/-- Everything but DEST, pc and the history is as it was. -/
theorem completed_frame (i : Instr) (s : State) (b : Vec) : Frame i s (completed i s b) where
  vregs r h := readV_writeV_other (afterRead i s) r i.dest _ h
  opmasks := rfl
  gregs := rfl
  bases := rfl
  bytes _ := rfl
  listed := rfl
  program := rfl
  launch := rfl
  config := rfl
  record := rfl

/-- The frame, the next pc and the read event of a completion. -/
theorem completed_with (i : Instr) (s : State) (b : Vec) : CompletesWith i s (completed i s b) where
  frame := completed_frame i s b
  pc := rfl
  events := rfl

/-- DEST after a completion. -/
theorem readV_completed (i : Instr) (s : State) (b : Vec) :
    readV (completed i s b) i.dest =
      lowBits s.cfg.maxvl (destValue i s (readSrc1 i s) b) :=
  readV_writeV_same (afterRead i s) i.dest _

/-- An instruction that is available and whose operand is ready completes. -/
theorem exec_runs {i : Instr} {s : State} (h : runs i s = true) :
    ∃ b, exec i s = .next (completed i s b) ∧
      ∀ n, n < i.form.vl.bytes → elem 8 n b = srcByte i s n := by
  simp only [runs, Bool.and_eq_true] at h
  obtain ⟨b, hb, he⟩ := readSrc2_ready h.2
  exact ⟨b, (exec_next_iff i s _).2 ⟨h.1, b, hb, rfl⟩, he⟩

end Sys2Proof.Machine
end

