-- ==== Sys2Proof/Laws/Memory.lean ====
section
/-! SUPPORT. Lists of cells: what a write does to a read, and that every operation keeps the canonical
form. -/

namespace Sys2Proof.Machine

theorem cellsFrom_mono {lo lo' : Nat} (h : lo ≤ lo') (cs : List Host.Cell) :
    cellsFrom lo' cs = true → cellsFrom lo cs = true := by
  cases cs with
  | nil => simp [cellsFrom]
  | cons c cs =>
    obtain ⟨a, b⟩ := c
    simp only [cellsFrom, Bool.and_eq_true, decide_eq_true_eq]
    rintro ⟨h1, h2⟩
    exact ⟨by omega, h2⟩

theorem cellsFrom_setCell (addr : Nat) (b : Byte) :
    ∀ (cs : List Host.Cell) (lo : Nat), lo ≤ addr → cellsFrom lo cs = true →
      cellsFrom lo (setCell addr b cs) = true
  | [], lo, h, _ => by simp [setCell, cellsFrom, h]
  | (a, c) :: cs, lo, h, hw => by
    simp only [cellsFrom, Bool.and_eq_true, decide_eq_true_eq] at hw
    simp only [setCell]
    split
    · simp only [cellsFrom, Bool.and_eq_true, decide_eq_true_eq]
      exact ⟨h, by omega, hw.2⟩
    · split
      · simp only [cellsFrom, Bool.and_eq_true, decide_eq_true_eq]
        exact hw
      · simp only [cellsFrom, Bool.and_eq_true, decide_eq_true_eq]
        exact ⟨hw.1, cellsFrom_setCell addr b cs (a + 1) (by omega) hw.2⟩

/-- Listing bytes keeps the canonical form. -/
theorem cellsWf_setCells (bs : List Byte) : ∀ (addr : Nat) (cs : List Host.Cell),
    cellsWf cs = true → cellsWf (setCells addr bs cs) = true := by
  induction bs with
  | nil => intro _ _ h; exact h
  | cons b bs ih =>
    intro addr cs h
    exact ih (addr + 1) _ (cellsFrom_setCell addr b cs 0 (Nat.zero_le _) h)

/-- The one memory write keeps the canonical form. -/
theorem memWrite_wf (s : State) (a n : Nat) (val : Vec) (h : Memory.wf s.mem = true) :
    Memory.wf (memWrite s a n val).mem = true :=
  cellsWf_setCells _ _ _ h

/-- The memory of the launch state has the canonical form. -/
theorem reset_memory_wf : Memory.wf State.reset.mem = true := rfl

/-- A listed byte is read back. -/
theorem cellAt_setCell_same (addr : Nat) (b : Byte) :
    ∀ cs : List Host.Cell, cellAt (setCell addr b cs) addr = some b
  | [] => by simp [setCell, cellAt]
  | (a, c) :: cs => by
    simp only [setCell]
    split
    · simp [cellAt]
    · split
      · next h => simp [cellAt, h]
      · next h1 h2 => simp [cellAt, h1, h2, cellAt_setCell_same addr b cs]

/-- Listing a byte leaves every other address alone. -/
theorem cellAt_setCell_other (addr x : Nat) (b : Byte) (hx : x ≠ addr) :
    ∀ (cs : List Host.Cell) (lo : Nat), cellsFrom lo cs = true →
      cellAt (setCell addr b cs) x = cellAt cs x
  | [], _, _ => by simp [setCell, cellAt, hx]
  | (a, c) :: cs, lo, hw => by
    simp only [cellsFrom, Bool.and_eq_true, decide_eq_true_eq] at hw
    simp only [setCell]
    split
    · next h =>
      simp only [cellAt, hx, if_false]
      split
      · next h2 =>
        have : x ≠ a := by omega
        have : x < a := by omega
        simp [*]
      · rfl
    · split
      · next h1 h2 => subst h2; simp [cellAt, hx]
      · simp only [cellAt]
        rw [cellAt_setCell_other addr x b hx cs (a + 1) hw.2]

end Sys2Proof.Machine
end

