-- ==== Sys2Proof/Laws/Pack.lean ====
section
/-! SUPPORT. The saturation functions as integers, and wide elements as the bytes they are made of. -/

namespace Sys2Proof.Machine

/-- `SatSW2SB` is the clamp (R51). -/
theorem toInt_satSW2SB (w : BitVec 16) : (satSW2SB w).toInt = max (-128) (min 127 w.toInt) := by
  unfold satSW2SB satSigned
  simp only [Nat.reduceSub, Int.reducePow, Int.reduceSub, Int.reduceNeg]
  split
  · simp; omega
  · split
    · simp; omega
    · rw [BitVec.toInt_ofInt_eq_self (by decide) (by simp; omega) (by simp; omega)]; omega

/-- `SatSD2SW` is the clamp (R52). -/
theorem toInt_satSD2SW (d : BitVec 32) :
    (satSD2SW d).toInt = max (-32768) (min 32767 d.toInt) := by
  unfold satSD2SW satSigned
  simp only [Nat.reduceSub, Int.reducePow, Int.reduceSub, Int.reduceNeg]
  split
  · simp; omega
  · split
    · simp; omega
    · rw [BitVec.toInt_ofInt_eq_self (by decide) (by simp; omega) (by simp; omega)]; omega

/-- A word element is two byte elements, the lower one least significant. -/
theorem word_of_bytes (x : Vec) (u : Nat) :
    elem 16 u x = elem 8 (2 * u + 1) x ++ elem 8 (2 * u) x := by
  apply BitVec.eq_of_getLsbD_eq
  intro b hb
  rw [BitVec.getLsbD_append, getLsbD_elem, getLsbD_elem, getLsbD_elem]
  by_cases h : b < 8
  · simp [h, hb, show 16 * u + b = 8 * (2 * u) + b by omega]
  · simp [h, hb, show 8 * (2 * u + 1) + (b - 8) = 16 * u + b by omega, show b - 8 < 8 by omega]

/-- A doubleword element is four byte elements, the lowest one least significant. -/
theorem dword_of_bytes (x : Vec) (u : Nat) :
    elem 32 u x =
      elem 8 (4 * u + 3) x ++ elem 8 (4 * u + 2) x ++ elem 8 (4 * u + 1) x ++ elem 8 (4 * u) x := by
  apply BitVec.eq_of_getLsbD_eq
  intro b hb
  simp only [BitVec.getLsbD_append, getLsbD_elem]
  by_cases h : b < 8
  · simp [h, hb, show 32 * u + b = 8 * (4 * u) + b by omega]
  · by_cases h2 : b < 16
    · simp [h, hb, show 8 * (4 * u + 1) + (b - 8) = 32 * u + b by omega,
        show b - 8 < 8 by omega]
    · by_cases h3 : b < 24
      · simp [h, hb, show 8 * (4 * u + 2) + (b - 8 - 8) = 32 * u + b by omega,
          show ¬b - 8 < 8 by omega, show b - 8 - 8 < 8 by omega]
      · simp [h, hb, show 8 * (4 * u + 3) + (b - 8 - 8 - 8) = 32 * u + b by omega,
          show ¬b - 8 < 8 by omega, show ¬b - 8 - 8 < 8 by omega, show b - 8 - 8 - 8 < 8 by omega]

/-- Elements are equal where the bits are. -/
theorem elem_congr {w e : Nat} {x y : Vec}
    (h : ∀ b, w * e ≤ b → b < w * e + w → x.getLsbD b = y.getLsbD b) : elem w e x = elem w e y := by
  apply BitVec.eq_of_getLsbD_eq
  intro b hb
  rw [getLsbD_elem, getLsbD_elem, h _ (by omega) (by omega)]

/-- Values assembled from equal elements are equal. -/
theorem ofElems_congr (w n : Nat) (f g : Nat → BitVec w) (h : ∀ j, j < n → f j = g j) :
    ofElems w n f = ofElems w n g := by
  induction n with
  | zero => rfl
  | succ n ih => simp [ofElems, ih (fun j hj => h j (by omega)), h n (by omega)]

end Sys2Proof.Machine
end

