-- ==== Sys2Proof/Laws/PerInstr.lean ====
section
/-! SUPPORT. Statements made of every instruction, one lemma per constructor. -/

namespace Sys2Proof.Laws.EncodeLength

/-- The encoding of an instruction has the length the rule R47 counts. -/
def Statement (i : Instr) : Prop := (encode i).length = i.len

theorem packsswbSse128 (p : Pfx) (rex : Bool) (d : VReg) (src : RegMem) :
    Statement (.packsswbSse128 p rex d src) := length_encodeLegacy ..

theorem packssdwSse128 (p : Pfx) (rex : Bool) (d : VReg) (src : RegMem) :
    Statement (.packssdwSse128 p rex d src) := length_encodeLegacy ..

theorem vpacksswbVex128 (p : Pfx) (vex3 : Bool) (d s1 : VReg) (src2 : RegMem) :
    Statement (.vpacksswbVex128 p vex3 d s1 src2) := length_encodeVex ..

theorem vpackssdwVex128 (p : Pfx) (vex3 : Bool) (d s1 : VReg) (src2 : RegMem) :
    Statement (.vpackssdwVex128 p vex3 d s1 src2) := length_encodeVex ..

theorem vpacksswbVex256 (p : Pfx) (vex3 : Bool) (d s1 : VReg) (src2 : RegMem) :
    Statement (.vpacksswbVex256 p vex3 d s1 src2) := length_encodeVex ..

theorem vpackssdwVex256 (p : Pfx) (vex3 : Bool) (d s1 : VReg) (src2 : RegMem) :
    Statement (.vpackssdwVex256 p vex3 d s1 src2) := length_encodeVex ..

theorem vpacksswbEvex128 (p : Pfx) (wm : Writemask) (d s1 : VReg)
    (src2 : RegMem) :
    Statement (.vpacksswbEvex128 p wm d s1 src2) := length_encodeEvex ..

theorem vpacksswbEvex256 (p : Pfx) (wm : Writemask) (d s1 : VReg)
    (src2 : RegMem) :
    Statement (.vpacksswbEvex256 p wm d s1 src2) := length_encodeEvex ..

theorem vpacksswbEvex512 (p : Pfx) (wm : Writemask) (d s1 : VReg)
    (src2 : RegMem) :
    Statement (.vpacksswbEvex512 p wm d s1 src2) := length_encodeEvex ..

theorem vpackssdwEvex128 (p : Pfx) (wm : Writemask) (d s1 : VReg)
    (src2 : RegMemBcst) :
    Statement (.vpackssdwEvex128 p wm d s1 src2) := length_encodeEvex ..

theorem vpackssdwEvex256 (p : Pfx) (wm : Writemask) (d s1 : VReg)
    (src2 : RegMemBcst) :
    Statement (.vpackssdwEvex256 p wm d s1 src2) := length_encodeEvex ..

theorem vpackssdwEvex512 (p : Pfx) (wm : Writemask) (d s1 : VReg)
    (src2 : RegMemBcst) :
    Statement (.vpackssdwEvex512 p wm d s1 src2) := length_encodeEvex ..

end Sys2Proof.Laws.EncodeLength
end

