-- ==== Sys2Proof/Laws/Text.lean ====
section
/-! SUPPORT. Program text: what a fetch reads where bytes are placed, and what runs through a program. -/

namespace Sys2Proof.Machine

/-- A fetch window at least as long as the bytes placed there begins with them. -/
theorem textFrom_placed (s : State) : ∀ (bs : List Byte) (a n : Nat),
    a + bs.length ≤ s.cfg.aw.space → bs.length ≤ n →
    (∀ k b, bs[k]? = some b → cellAt s.text (a + k) = some b) →
    ∃ rest, textFrom s a n = bs ++ rest
  | [], a, n, _, _, _ => ⟨textFrom s a n, rfl⟩
  | b :: bs, a, 0, _, hn, _ => by simp at hn
  | b :: bs, a, n + 1, ha, hn, ht => by
    simp only [List.length_cons] at ha hn
    have hb : cellAt s.text a = some b := ht 0 b rfl
    obtain ⟨rest, hr⟩ := textFrom_placed s bs (a + 1) n (by omega) (by omega) (fun k x hx => by
      have := ht (k + 1) x hx
      rwa [show a + (k + 1) = a + 1 + k by omega] at this)
    exact ⟨rest, by simp [textFrom, show a < s.cfg.aw.space by omega, hb, hr]⟩

/-- Where an instruction's bytes are placed first, the fetch at pc begins with them. -/
theorem fetch_placed {s : State} {bs tail : List Byte} (h : Placed s (bs ++ tail))
    (hl : bs.length ≤ maxInstrBytes) : ∃ rest, fetch s = bs ++ rest := by
  have hf := h.fits
  rw [List.length_append] at hf
  exact textFrom_placed s bs _ _ (by omega) hl (fun k b hb => h.text k b (by
    rw [List.getElem?_append_left (List.getElem?_eq_some_iff.1 hb).1]
    exact hb))

/-- The bytes after an instruction stand from the next pc on. -/
theorem Placed.tail {s t : State} {bs tail : List Byte} (h : Placed s (bs ++ tail))
    (hpc : t.pc.toNat = s.pc.toNat + bs.length) (ht : t.text = s.text) (hc : t.cfg = s.cfg) :
    Placed t tail where
  fits := by
    have := h.fits
    rw [List.length_append] at this
    rw [hc, hpc]
    omega
  text := fun k b hb => by
    rw [ht, hpc, Nat.add_assoc]
    exact h.text _ b (by rw [List.getElem?_append_right (by omega)]; simpa using hb)

/-- The length of a program is that of its first instruction and of the rest. -/
@[simp] theorem programLen_cons (i : Instr) (prog : List Instr) :
    programLen (i :: prog) = i.len + programLen prog := by simp [programLen]

@[simp] theorem programLen_nil : programLen [] = 0 := rfl

end Sys2Proof.Machine
end

