-- ==== Sys2Proof/Tests/Slice0.lean ====
section
/-! SUPPORT. The model's own tests, each about one step on a small state: ill-formed terms, decoded words,
results, and one state that meets the hypotheses of each statement. The expected values are those of
spec/95_test_vectors.md, or are worked out from the rule that is named. -/

set_option maxRecDepth 20000
set_option exponentiation.threshold 600

namespace Sys2Proof.Tests

open Sys2Proof.Machine

/-! ### Small states and small terms -/

def p0 : Pfx := { seg := none, a32 := false }
def s0 : State := State.reset
def cfg32 : Config := { Config.launch with aw := .w32 }
def cfg8 : Config := { Config.launch with nvreg := .n8 }
def withK (s : State) (k : KReg) (m : BitVec 64) : State :=
  { s with k := s.k.set k.toNat m k.isLt }
def withX (s : State) (r : GReg) (a : BitVec 64) : State :=
  { s with x := s.x.set r.toNat a r.isLt }
def withBytes (s : State) (a : Nat) (bs : List Byte) : State :=
  { s with mem := setCells a bs s.mem }
def withRegion (s : State) (base size : Nat) (kd : RegionKind) : State :=
  { s with regions := { base := base, size := size, kind := kd } :: s.regions }
def words (l : List Int) : Vec := ofElems 16 l.length (fun n => BitVec.ofInt 16 (l.getD n 0))
def dwords (l : List Int) : Vec := ofElems 32 l.length (fun n => BitVec.ofInt 32 (l.getD n 0))

/-- `[RAX]` and `[RSP + disp8]`. -/
def atRax : AddrMode := .base 0#4 .none
def atRsp : AddrMode := .sib 4#4 none (.d8 0#8)

/-- DEST, cut at its low n bits, after an instruction that completes. -/
def destLow (n : Nat) (i : Instr) (s : State) : Option (BitVec n) :=
  match exec i s with
  | .next t => some ((readV t i.dest).setWidth n)
  | .fault _ | .refused _ => none

def faultOf (i : Instr) (s : State) : Option Fault :=
  match exec i s with
  | .fault f => some f
  | .next _ | .refused _ => none

def refusalOf (i : Instr) (s : State) : Option Refusal :=
  match exec i s with
  | .refused r => some r
  | .next _ | .fault _ => none

def stepRefusal (s : State) : Option Refusal :=
  match step s with
  | .refused r => some r
  | .next _ | .fault _ => none

def instrOf (c : Config) (bs : List Byte) : Option Instr :=
  match decode c bs with
  | .ok (i, _) => some i
  | .error _ => none

def reasonOf (c : Config) (bs : List Byte) : Option DecodeRefusal :=
  match decode c bs with
  | .ok _ => none
  | .error r => some r

theorem fault_of {i : Instr} {s : State} {f : Fault} (h : faultOf i s = some f) :
    exec i s = .fault f := by
  unfold faultOf at h
  split at h <;> simp_all

theorem refused_of {i : Instr} {s : State} {r : Refusal} (h : refusalOf i s = some r) :
    exec i s = .refused r := by
  unfold refusalOf at h
  split at h <;> simp_all

theorem next_of {i : Instr} {s : State} (h : runs i s = true) : ∃ t, exec i s = .next t :=
  ⟨_, (exec_next_iff_runs i s _).2 ⟨h, rfl⟩⟩

/-! ### WellFormed: an ill-formed term for each check -/

/-- Index 0100 means "no index" (R45). -/
theorem test_wf_index_four :
    (Instr.packsswbSse128 p0 false 0 (.mem (.sib 0 (some { reg := 4, scale := 0 }) .none))).wellFormed
      Config.launch = false := by decide
/-- rm = 100 is the SIB form, never a base (R45). -/
theorem test_wf_base_four :
    (Instr.packsswbSse128 p0 false 0 (.mem (.base 4 .none))).wellFormed Config.launch = false := by
  decide
/-- mod = 00 with rm = 101 is the disp32 form (R45). -/
theorem test_wf_base_five_no_disp :
    (Instr.packsswbSse128 p0 false 0 (.mem (.base 5 .none))).wellFormed Config.launch = false := by
  decide
/-- mod = 00 with SIB.base = 101 has no base (R45). -/
theorem test_wf_sib_base_five_no_disp :
    (Instr.packsswbSse128 p0 true 0 (.mem (.sib 13 none .none))).wellFormed Config.launch =
      false := by decide
theorem test_wf_no_base_index_four :
    (Instr.packsswbSse128 p0 false 0
      (.mem (.sibNoBase (some { reg := 4, scale := 1 }) 0))).wellFormed Config.launch = false := by
  decide
/-- NVREG = 8 (R44): DEST, SRC1, SRC2. -/
theorem test_wf_dest_in_file :
    (Instr.vpacksswbEvex128 p0 .none 8 0 (.reg 0)).wellFormed cfg8 = false := by decide
theorem test_wf_src1_in_file :
    (Instr.vpacksswbEvex128 p0 .none 0 8 (.reg 0)).wellFormed cfg8 = false := by decide
theorem test_wf_src2_in_file :
    (Instr.vpacksswbEvex128 p0 .none 0 0 (.reg 8)).wellFormed cfg8 = false := by decide
/-- LEGACY and VEX number sixteen registers (R42). -/
theorem test_wf_legacy_dest_16 :
    (Instr.packssdwSse128 p0 true 16 (.reg 0)).wellFormed Config.launch = false := by decide
theorem test_wf_legacy_src_16 :
    (Instr.packssdwSse128 p0 true 0 (.reg 16)).wellFormed Config.launch = false := by decide
theorem test_wf_vex_dest_16 :
    (Instr.vpackssdwVex128 p0 true 16 0 (.reg 0)).wellFormed Config.launch = false := by decide
theorem test_wf_vex_src1_16 :
    (Instr.vpackssdwVex128 p0 true 0 16 (.reg 0)).wellFormed Config.launch = false := by decide
theorem test_wf_vex_src2_16 :
    (Instr.vpackssdwVex128 p0 true 0 0 (.reg 16)).wellFormed Config.launch = false := by decide
/-- Without REX there are eight registers (R42). -/
theorem test_wf_no_rex_dest :
    (Instr.packssdwSse128 p0 false 8 (.reg 0)).wellFormed Config.launch = false := by decide
theorem test_wf_no_rex_base :
    (Instr.packssdwSse128 p0 false 0 (.mem (.base 8 .none))).wellFormed Config.launch = false := by
  decide
/-- Two-byte VEX has B = 0 and X = 0 (R32). -/
theorem test_wf_vex2_src2 :
    (Instr.vpackssdwVex256 p0 false 0 0 (.reg 8)).wellFormed Config.launch = false := by decide
theorem test_wf_vex2_index :
    (Instr.vpackssdwVex256 p0 false 0 0
      (.mem (.sib 0 (some { reg := 9, scale := 0 }) .none))).wellFormed Config.launch = false := by
  decide
/-- `k[0]` cannot be named as a write mask (R39). -/
theorem test_wf_mask_zero :
    (Instr.vpacksswbEvex512 p0 (.merging 0) 0 0 (.reg 0)).wellFormed Config.launch = false ∧
      (Instr.vpackssdwEvex512 p0 (.zeroing 0) 0 0 (.reg 0)).wellFormed Config.launch = false := by
  decide
/-- 32-bit mode (R49): no REX, no `67`, no register above 7. -/
theorem test_wf_mode32 :
    (Instr.packsswbSse128 p0 true 0 (.reg 0)).wellFormed cfg32 = false ∧
      (Instr.packsswbSse128 { p0 with a32 := true } false 0 (.reg 0)).wellFormed cfg32 = false ∧
      (Instr.vpacksswbVex128 p0 true 8 0 (.reg 0)).wellFormed cfg32 = false ∧
      (Instr.vpacksswbVex128 p0 true 0 8 (.reg 0)).wellFormed cfg32 = false ∧
      (Instr.vpacksswbVex128 p0 true 0 0 (.reg 8)).wellFormed cfg32 = false ∧
      (Instr.vpacksswbEvex128 p0 .none 0 0 (.reg 16)).wellFormed cfg32 = false := by decide
/-- A meaning refuses an ill-formed term before any fault (R89). -/
theorem test_ill_formed_refused :
    refusalOf (.packsswbSse128 p0 false 8 (.reg 0))
      { s0 with cfg := { Config.launch with enabled := [] } } = some .notAForm := by decide

/-! ### Decode: a word of each constructor (spec/95_test_vectors.md section 4) -/

/-- `packsswb xmm1,[r8+r9*4+0x12345678]`. -/
theorem test_decode_packsswbSse128 :
    instrOf Config.launch
      [0x66#8, 0x43#8, 0x0F#8, 0x63#8, 0x8C#8, 0x88#8, 0x78#8, 0x56#8, 0x34#8, 0x12#8] =
    some (.packsswbSse128 p0 true 1
      (.mem (.sib 8 (some { reg := 9, scale := 2 }) (.d32 0x12345678)))) := by decide
/-- `packssdw xmm9,xmm10`. -/
theorem test_decode_packssdwSse128 :
    instrOf Config.launch [0x66#8, 0x45#8, 0x0F#8, 0x6B#8, 0xCA#8] =
      some (.packssdwSse128 p0 true 9 (.reg 10)) := by decide
/-- `vpacksswb xmm1,xmm2,xmm3` in both VEX lengths. -/
theorem test_decode_vpacksswbVex128 :
    instrOf Config.launch [0xC5#8, 0xE9#8, 0x63#8, 0xCB#8] =
      some (.vpacksswbVex128 p0 false 1 2 (.reg 3)) ∧
    instrOf Config.launch [0xC4#8, 0xE1#8, 0x69#8, 0x63#8, 0xCB#8] =
      some (.vpacksswbVex128 p0 true 1 2 (.reg 3)) := by decide
/-- `vpackssdw xmm1,xmm2,[rax]`. -/
theorem test_decode_vpackssdwVex128 :
    instrOf Config.launch [0xC5#8, 0xE9#8, 0x6B#8, 0x08#8] =
      some (.vpackssdwVex128 p0 false 1 2 (.mem atRax)) := by decide
/-- `vpacksswb ymm1,ymm2,[rbx+0x20]`: disp8 as it stands. -/
theorem test_decode_vpacksswbVex256 :
    instrOf Config.launch [0xC5#8, 0xED#8, 0x63#8, 0x4B#8, 0x20#8] =
      some (.vpacksswbVex256 p0 false 1 2 (.mem (.base 3 (.d8 0x20)))) := by decide
/-- `vpackssdw ymm1,ymm2,[rip+0x10]` and `vpackssdw ymm9,ymm10,ymm11`. -/
theorem test_decode_vpackssdwVex256 :
    instrOf Config.launch [0xC5#8, 0xED#8, 0x6B#8, 0x0D#8, 0x10#8, 0#8, 0#8, 0#8] =
      some (.vpackssdwVex256 p0 false 1 2 (.mem (.disp32 0x10))) ∧
    instrOf Config.launch [0xC4#8, 0x41#8, 0x2D#8, 0x6B#8, 0xCB#8] =
      some (.vpackssdwVex256 p0 true 9 10 (.reg 11)) := by decide
/-- `vpacksswb xmm1{k1}{z},xmm2,xmm3` (braces as the assembler writes them). -/
theorem test_decode_vpacksswbEvex128 :
    instrOf Config.launch [0x62#8, 0xF1#8, 0x6D#8, 0x89#8, 0x63#8, 0xCB#8] =
      some (.vpacksswbEvex128 p0 (.zeroing 1) 1 2 (.reg 3)) := by decide
/-- `vpacksswb ymm1{k2},ymm2,ymm3`. -/
theorem test_decode_vpacksswbEvex256 :
    instrOf Config.launch [0x62#8, 0xF1#8, 0x6D#8, 0x2A#8, 0x63#8, 0xCB#8] =
      some (.vpacksswbEvex256 p0 (.merging 2) 1 2 (.reg 3)) := by decide
/-- `vpacksswb zmm1{k1},zmm2,[rax+0x40]`, and the same with W = 1 (WIG, section 3.5). -/
theorem test_decode_vpacksswbEvex512 :
    instrOf Config.launch [0x62#8, 0xF1#8, 0x6D#8, 0x49#8, 0x63#8, 0x48#8, 0x01#8] =
      some (.vpacksswbEvex512 p0 (.merging 1) 1 2 (.mem (.base 0 (.d8 1)))) ∧
    instrOf Config.launch [0x62#8, 0xF1#8, 0xED#8, 0x48#8, 0x63#8, 0xCB#8] =
      some (.vpacksswbEvex512 p0 .none 1 2 (.reg 3)) := by decide
/-- `vpackssdw xmm1,xmm2,dword ptr [rcx]` broadcast. -/
theorem test_decode_vpackssdwEvex128 :
    instrOf Config.launch [0x62#8, 0xF1#8, 0x6D#8, 0x18#8, 0x6B#8, 0x09#8] =
      some (.vpackssdwEvex128 p0 .none 1 2 (.bcst (.base 1 .none))) := by decide
/-- `vpackssdw ymm1{k1},ymm2,ymm3`. -/
theorem test_decode_vpackssdwEvex256 :
    instrOf Config.launch [0x62#8, 0xF1#8, 0x6D#8, 0x29#8, 0x6B#8, 0xCB#8] =
      some (.vpackssdwEvex256 p0 (.merging 1) 1 2 (.reg 3)) := by decide
/-- `vpackssdw zmm17,zmm18,zmm19`, and with `--32` `vpackssdw zmm1 k3 z` from `[eax+4]` broadcast. -/
theorem test_decode_vpackssdwEvex512 :
    instrOf Config.launch [0x62#8, 0xA1#8, 0x6D#8, 0x40#8, 0x6B#8, 0xCB#8] =
      some (.vpackssdwEvex512 p0 .none 17 18 (.reg 19)) ∧
    instrOf cfg32 [0x62#8, 0xF1#8, 0x6D#8, 0xDB#8, 0x6B#8, 0x48#8, 0x01#8] =
      some (.vpackssdwEvex512 p0 (.zeroing 3) 1 2 (.bcst (.base 0 (.d8 1)))) := by decide
/-- Leading bytes in any order before `66` (R31). -/
theorem test_decode_leading_bytes :
    instrOf Config.launch [0x67#8, 0x64#8, 0x66#8, 0x0F#8, 0x63#8, 0x08#8] =
      some (.packsswbSse128 { seg := some .fs, a32 := true } false 1 (.mem atRax)) := by decide
/-- The refused encodings of section 3.5, each by its name. -/
theorem test_decode_refusals :
    reasonOf Config.launch [0x0F#8, 0x63#8, 0xCA#8] = some .mmxForm ∧
    reasonOf Config.launch [0xF0#8, 0x66#8, 0x0F#8, 0x63#8, 0x08#8] = some .lockPfx ∧
    reasonOf Config.launch [0x62#8, 0xF1#8, 0xED#8, 0x48#8, 0x6B#8, 0xCB#8] = some .evexW1 ∧
    reasonOf Config.launch [0x62#8, 0xF1#8, 0x6D#8, 0x58#8, 0x63#8, 0xCB#8] =
      some .evexByteBroadcast ∧
    reasonOf Config.launch [0x62#8, 0xF1#8, 0x6D#8, 0x58#8, 0x6B#8, 0xCB#8] =
      some .evexRegisterBroadcast ∧
    reasonOf Config.launch [0x62#8, 0xF1#8, 0x6D#8, 0x68#8, 0x63#8, 0xCB#8] =
      some .evexReservedLength ∧
    reasonOf Config.launch [0x62#8, 0xF1#8, 0x6D#8, 0x80#8, 0x63#8, 0xCB#8] =
      some .evexZeroingUnmasked := by decide
/-- R48, R49, R44: the other named refusals. -/
theorem test_decode_refusals_more :
    reasonOf Config.launch [0x66#8, 0x0F#8, 0x63#8] = some .truncated ∧
    reasonOf Config.launch [0x66#8, 0x66#8, 0x0F#8, 0x63#8, 0xCA#8] = some .repeatedPfx ∧
    reasonOf Config.launch [0xF3#8, 0x0F#8, 0x63#8, 0xCA#8] = some .repPfx ∧
    reasonOf cfg32 [0x67#8, 0x66#8, 0x0F#8, 0x63#8, 0x08#8] = some .addressSize16 ∧
    reasonOf Config.launch [0x48#8, 0xC5#8, 0xE9#8, 0x63#8, 0xCB#8] = some .rexPlacement ∧
    reasonOf Config.launch [0x66#8, 0xC5#8, 0xE9#8, 0x63#8, 0xCB#8] = some .opSizeBeforeVex ∧
    reasonOf Config.launch [0x66#8, 0x0F#8, 0x67#8, 0xCA#8] = some (.otherOpcode 0x67) ∧
    reasonOf Config.launch [0xC4#8, 0xE2#8, 0x69#8, 0x63#8, 0xCB#8] = some .otherMap ∧
    reasonOf Config.launch [0xC5#8, 0xE8#8, 0x63#8, 0xCB#8] = some .otherPp ∧
    reasonOf Config.launch [0x62#8, 0xF1#8, 0x69#8, 0x48#8, 0x63#8, 0xCB#8] =
      some .evexReservedBits ∧
    reasonOf cfg32 [0xC5#8, 0x69#8, 0x63#8, 0xCB#8] = some .notVexIn32 ∧
    reasonOf cfg32 [0xC4#8, 0xC1#8, 0x69#8, 0x63#8, 0xCB#8] = some .extensionIn32 ∧
    reasonOf cfg8 [0xC5#8, 0x69#8, 0x63#8, 0xCB#8] = some .registerOutOfRange := by decide

/-! ### The opcode table's words, and the first step after reset -/

/-- The row of PACKSSWB: `66 0F 63` and a ModRM byte of zeros, in either byte order. -/
theorem test_table_word_legacy :
    decodeTableWord 24 0x660F63 = some (.packsswbSse128 p0 false 0 (.mem atRax)) ∧
    decodeTableWord 24 0x630F66 = some (.packsswbSse128 p0 false 0 (.mem atRax)) := by decide
theorem test_table_word_steps :
    (match step (s0.withFetchWord 24 0x660F63) with
      | .next t => t.pc.toNat
      | .fault _ | .refused _ => 0) = 4 := by decide

/-! ### Results (spec/95_test_vectors.md section 3) -/

def srcVexWb : State :=
  writeV (writeV (writeV s0 1 (BitVec.allOnes 512))
    2 (0xFF7F0080FF80007FFFFB0005FED4012C#512)) 3 (0x00FFFFFE0002FFFF00010000C0004000#512)
def srcVexDw : State :=
  writeV (writeV (writeV s0 1 (BitVec.allOnes 512))
    2 (0xFFFFFFFB00000005FFFEEE9000011170#512)) 3 (0xFFFF7FFF00008000FFFF800000007FFF#512)
def src256Wb : State :=
  writeV (writeV s0 2 (words [1, 2, 3, 4, 5, 6, 7, 8, 9, 10, 11, 12, 13, 14, 15, 16]))
    3 (words [-1, -2, -3, -4, -5, -6, -7, -8, -9, -10, -11, -12, -13, -14, -15, -16])
def src256Dw : State :=
  writeV (writeV s0 2 (dwords [1, 0x20000, 3, 0x40000, 5, 0x60000, 7, 0x80000]))
    3 (dwords [-1, -0x20000, -3, -0x40000, -5, -0x60000, -7, -0x80000])

/-- V-LEG-WB, with the upper bits kept. -/
theorem test_packsswbSse128 :
    destLow 160 (.packsswbSse128 p0 false 1 (.reg 2))
      (writeV (writeV s0 1 (0xDEADBEEF80007FFFFF7FFF800080007FFFFF0001#512))
        2 (0x80FF7F00FF9C0064FF00010000FF0000#512)) =
    some 0xDEADBEEF807F9C64807F7F00807F80807F7FFF01#160 := by decide
/-- V-LEG-DW. -/
theorem test_packssdwSse128 :
    destLow 128 (.packssdwSse128 p0 false 1 (.reg 2))
      (writeV (writeV s0 1 (0x0000800000007FFFFFFFFFFF00000001#512))
        2 (0x800000007FFFFFFFFFFF7FFFFFFF8000#512)) =
    some 0x80007FFF800080007FFF7FFFFFFF0001#128 := by decide
/-- V-ALIAS-1: both halves are packed from the old value. -/
theorem test_packsswbSse128_alias :
    destLow 128 (.packsswbSse128 p0 false 0 (.reg 0))
      (writeV s0 0 (0xFF808000007F0000FFFFFF7F00800102#512)) =
    some 0x80807F00FF807F7F80807F00FF807F7F#128 := by decide
/-- V-VEX128-WB and V-VEX-UPPER. -/
theorem test_vpacksswbVex128 :
    destLow 512 (.vpacksswbVex128 p0 false 1 2 (.reg 3)) srcVexWb =
      some 0x7FFE02FF0100807F807F807FFB05807F#512 := by decide
/-- V-VEX128-DW. -/
theorem test_vpackssdwVex128 :
    destLow 512 (.vpackssdwVex128 p0 false 1 2 (.reg 3)) srcVexDw =
      some 0x80007FFF80007FFFFFFB000580007FFF#512 := by decide
/-- V-VEX256-WB: lane by lane. -/
theorem test_vpacksswbVex256 :
    destLow 512 (.vpacksswbVex256 p0 false 1 2 (.reg 3)) src256Wb =
      some 0xF0F1F2F3F4F5F6F7100F0E0D0C0B0A09F8F9FAFBFCFDFEFF0807060504030201#512 := by decide
/-- V-VEX256-DW. -/
theorem test_vpackssdwVex256 :
    destLow 512 (.vpackssdwVex256 p0 false 1 2 (.reg 3)) src256Dw =
      some 0x8000FFF98000FFFB7FFF00077FFF00058000FFFD8000FFFF7FFF00037FFF0001#512 := by decide
/-- V-EVEX128-WB: merging, mask bits above 15 ignored. -/
theorem test_vpacksswbEvex128 :
    destLow 512 (.vpacksswbEvex128 p0 (.merging 1) 1 2 (.reg 3))
      (withK (writeV srcVexWb 1 (0xEEEEEEEEEEEEEEEEEEEEEEEEEEEEEEEE#512)) 1 0xFFFFFFFFFFFF0F0F) =
    some 0xEEEEEEEE0100807FEEEEEEEEFB05807F#512 := by decide
/-- V-EVEX-M0-MERGE. -/
theorem test_vpacksswbEvex128_no_bits :
    destLow 512 (.vpacksswbEvex128 p0 (.merging 1) 1 2 (.reg 3)) srcVexWb =
      some 0xFFFFFFFFFFFFFFFFFFFFFFFFFFFFFFFF#512 := by decide
/-- V-EVEX256-WB: zeroing. -/
theorem test_vpacksswbEvex256 :
    destLow 512 (.vpacksswbEvex256 p0 (.zeroing 2) 1 2 (.reg 3)) (withK src256Wb 2 0xAAAAAAAA) =
      some 0xF000F200F400F60010000E000C000A00F800FA00FC00FE000800060004000200#512 := by decide
/-- V-EVEX512-WB. -/
theorem test_vpacksswbEvex512 :
    destLow 512 (.vpacksswbEvex512 p0 .none 1 2 (.reg 3))
      (writeV (writeV s0 2 (ofElems 16 32 (fun n => BitVec.ofNat 16 (120 + n))))
        3 (ofElems 16 32 (fun n => BitVec.ofInt 16 (-120 - n)))) =
    some (0x80808080808080807F7F7F7F7F7F7F7F80808080808080807F7F7F7F7F7F7F7F80808080808080807F7F7F7F7F7F7F7F81828384858687887F7E7D7C7B7A7978#512) := by
  decide
/-- V-EVEX128-DW: zeroing. -/
theorem test_vpackssdwEvex128 :
    destLow 512 (.vpackssdwEvex128 p0 (.zeroing 1) 1 2 (.reg 3)) (withK srcVexDw 1 0xA5) =
      some 0x80000000800000000000000500007FFF#512 := by decide
/-- V-EVEX256-DW-BCST. -/
theorem test_vpackssdwEvex256 :
    destLow 512 (.vpackssdwEvex256 p0 .none 1 2 (.bcst atRax))
      (withBytes src256Dw 0 [0x85#8, 0xFF#8, 0xFF#8, 0xFF#8]) =
    some 0xFF85FF85FF85FF857FFF00077FFF0005FF85FF85FF85FF857FFF00037FFF0001#512 := by decide
/-- V-EVEX512-DW-BCST. -/
theorem test_vpackssdwEvex512 :
    destLow 512 (.vpackssdwEvex512 p0 (.zeroing 3) 1 2 (.bcst (.base 0 (.d8 1))))
      (withBytes (withX (withK (writeV s0 2 (dwords [5000, -10000, 15000, -20000, 25000, -30000,
        35000, -40000, 45000, -50000, 55000, -60000, 65000, -70000, 75000, -80000])) 3 0x0F0FF0F0)
        0 0x4000) 0x4004 [0x45#8, 0x23#8, 0x01#8, 0x00#8]) =
    some (0x000000000000000080007FFF80007FFF000000000000000080007FFF80007FFF7FFF7FFF7FFF7FFF00000000000000007FFF7FFF7FFF7FFF0000000000000000#512) := by
  decide
/-- V-EVEX-M0-ZERO. -/
theorem test_vpackssdwEvex512_no_bits :
    destLow 512 (.vpackssdwEvex512 p0 (.zeroing 1) 1 2 (.reg 3)) srcVexDw = some 0#512 := by decide
/-- P2: `vpackssdw ymm0, ymm1, [rbx+0x20]` reads 32 bytes at 0x2024 (disp8 is not scaled in VEX). -/
theorem test_address_vex :
    memAccess (.vpackssdwVex256 p0 false 0 1 (.mem (.base 3 (.d8 0x20)))) (withX s0 3 0x2004) =
      some { seg := .ds, addr := 0x2024, size := 32 } := by decide

/-! ### Witnesses: states and operands that meet the hypotheses of each statement -/

/-- A state whose program text at pc is the given bytes. -/
def withText (s : State) (pc : BitVec 64) (bs : List Byte) : State :=
  placeText { s with pc := pc } bs

/-- RAX = 0x3008: 16-byte misaligned, 4-byte aligned. -/
def sMis : State := withX s0 0 0x3008
def sAc : State := withX { s0 with cfg := { Config.launch with alignCheck := true } } 0 0x3002
def sPf : State := withRegion s0 0 64 (.pageFault 4)
/-- The first 8 bytes plain, the page fault in the upper bytes of a 16-byte operand. -/
def sPfHigh : State := withRegion s0 15 1 (.pageFault 5)
def sSeg : State := withRegion s0 0 64 .segFault
def sOff : State := { s0 with cfg := { Config.launch with enabled := [] } }
def sNm : State := { s0 with cfg := { Config.launch with nmCondition := true } }
def s32 : State := { s0 with cfg := cfg32 }
def s8 : State := { s0 with cfg := cfg8 }
def legMem : Instr := .packsswbSse128 p0 false 1 (.mem atRax)
def legReg : Instr := .packsswbSse128 p0 false 1 (.reg 2)

theorem witness_SatWordToByteClamps :
    127 < (0x0080#16).toInt ∧ (0xFF7F#16).toInt < -128 ∧
    (-128 ≤ (0xFF80#16).toInt ∧ (0xFF80#16).toInt ≤ 127) ∧
    (-128 ≤ (0x007F#16).toInt ∧ (0x007F#16).toInt ≤ 127) ∧
    (0x007F#16).extractLsb' 7 9 = 0#9 ∧ (0xFF80#16).extractLsb' 7 9 = 0x1FF#9 ∧
    ¬((0x0080#16).extractLsb' 7 9 = 0#9 ∨ (0x0080#16).extractLsb' 7 9 = 0x1FF#9) := by decide
theorem witness_SatDwordToWordClamps :
    32767 < (0x00008000#32).toInt ∧ (0xFFFF7FFF#32).toInt < -32768 ∧
    (-32768 ≤ (0xFFFF8000#32).toInt ∧ (0xFFFF8000#32).toInt ≤ 32767) ∧
    (-32768 ≤ (0x00007FFF#32).toInt ∧ (0x00007FFF#32).toInt ≤ 32767) ∧
    (0x00007FFF#32).extractLsb' 15 17 = 0#17 ∧ (0xFFFF8000#32).extractLsb' 15 17 = 0x1FFFF#17 ∧
    ¬((0x00008000#32).extractLsb' 15 17 = 0#17 ∨
      (0x00008000#32).extractLsb' 15 17 = 0x1FFFF#17) := by decide
/-- The premises of the laws: a value in range (`exact`) and two ordered values (`monotone`). -/
theorem witness_SaturationLaws :
    (-128 ≤ (0xFF80#16).toInt ∧ (0xFF80#16).toInt ≤ 127) ∧
    (-32768 ≤ (0x00007FFF#32).toInt ∧ (0x00007FFF#32).toInt ≤ 32767) ∧
    (0x8000#16).toInt ≤ (0x7FFF#16).toInt ∧ (0x80000000#32).toInt ≤ (0x7FFFFFFF#32).toInt := by
  decide
/-- Lane 3, position 7 of 512 bits, and bit 512 above it; lane 0 of 128 bits. -/
theorem witness_PackWBByLanes :
    3 < VecLen.v512.bits / 128 ∧ 7 ≤ 7 ∧ 0 < VecLen.v128.bits / 128 ∧ VecLen.v128.bits ≤ 128 ∧
      VecLen.v512.bits ≤ 512 := by decide
theorem witness_PackDWByLanes :
    3 < VecLen.v512.bits / 128 ∧ 3 ≤ 3 ∧ 0 < VecLen.v128.bits / 128 ∧ VecLen.v128.bits ≤ 128 ∧
      VecLen.v512.bits ≤ 512 := by decide
/-- Byte elements at KL = 64 and word elements at KL = 32, a mask with both bit values, two masks that agree
below KL = 16, and named write masks. -/
theorem witness_MaskWriteByElements :
    (64 ≤ 64 ∧ 64 * 8 ≤ 512) ∧ (32 ≤ 64 ∧ 32 * 16 ≤ 512) ∧ 63 < 64 ∧ 31 < 32 ∧
    (0x8000000000000000#64).getLsbD 63 = true ∧ (0x8000000000000000#64).getLsbD 31 = false ∧
    (∀ j, j < 16 → (0xFFFFFFFFFFFF0F0F#64).getLsbD j = (0x0F0F#64).getLsbD j) ∧
    (Writemask.merging 1).aaa = 1#3 ∧ (Writemask.zeroing 7).aaa = 7#3 ∧
    (1#3 ≠ 0#3 ∧ 7#3 ≠ 0#3) ∧ 16 * 8 ≤ 128 ∧ evexMask true 7 = some (.zeroing 7) ∧
    evexMask false 0 = some .none := by decide

theorem witness_PacksswbSse128Completes :
    runs (.packsswbSse128 p0 false 1 (.mem atRax)) s0 = true ∧
    runs (.packsswbSse128 p0 true 15 (.reg 15)) s0 = true := by decide
theorem witness_PackssdwSse128Completes :
    runs (.packssdwSse128 p0 false 1 (.mem atRax)) s0 = true ∧
    runs (.packssdwSse128 p0 true 15 (.reg 15)) s0 = true := by decide
theorem witness_VpacksswbVex128Completes :
    runs (.vpacksswbVex128 p0 false 1 2 (.mem atRax)) sMis = true ∧
    runs (.vpacksswbVex128 p0 true 15 15 (.reg 15)) s0 = true := by decide
theorem witness_VpackssdwVex128Completes :
    runs (.vpackssdwVex128 p0 false 1 2 (.mem atRax)) sMis = true ∧
    runs (.vpackssdwVex128 p0 true 15 15 (.reg 15)) s0 = true := by decide
theorem witness_VpacksswbVex256Completes :
    runs (.vpacksswbVex256 p0 false 1 2 (.mem atRax)) sMis = true ∧
    runs (.vpacksswbVex256 p0 true 15 15 (.reg 15)) s0 = true := by decide
theorem witness_VpackssdwVex256Completes :
    runs (.vpackssdwVex256 p0 false 1 2 (.mem atRax)) sMis = true ∧
    runs (.vpackssdwVex256 p0 true 15 15 (.reg 15)) s0 = true := by decide
theorem witness_VpacksswbEvex128Completes :
    runs (.vpacksswbEvex128 p0 (.merging 1) 1 2 (.mem atRax)) sMis = true ∧
    runs (.vpacksswbEvex128 p0 (.zeroing 7) 31 31 (.reg 31)) s0 = true := by decide
theorem witness_VpacksswbEvex256Completes :
    runs (.vpacksswbEvex256 p0 (.merging 1) 1 2 (.mem atRax)) sMis = true ∧
    runs (.vpacksswbEvex256 p0 (.zeroing 7) 31 31 (.reg 31)) s0 = true := by decide
theorem witness_VpacksswbEvex512Completes :
    runs (.vpacksswbEvex512 p0 (.merging 1) 1 2 (.mem atRax)) sMis = true ∧
    runs (.vpacksswbEvex512 p0 .none 31 31 (.reg 31)) s0 = true := by decide
theorem witness_VpackssdwEvex128Completes :
    runs (.vpackssdwEvex128 p0 (.merging 1) 1 2 (.bcst atRax)) sMis = true ∧
    runs (.vpackssdwEvex128 p0 (.zeroing 7) 31 31 (.reg 31)) s0 = true := by decide
theorem witness_VpackssdwEvex256Completes :
    runs (.vpackssdwEvex256 p0 (.merging 1) 1 2 (.bcst atRax)) sMis = true ∧
    runs (.vpackssdwEvex256 p0 (.zeroing 7) 31 31 (.reg 31)) s0 = true := by decide
theorem witness_VpackssdwEvex512Completes :
    runs (.vpackssdwEvex512 p0 (.merging 1) 1 2 (.bcst atRax)) sMis = true ∧
    runs (.vpackssdwEvex512 p0 .none 31 31 (.mem atRax)) s0 = true := by decide

theorem witness_DisabledFormRaisesUD :
    legReg.wellFormed sOff.cfg = true ∧ formEnabled sOff.cfg legReg.form = false ∧
      exec legReg sOff = .fault .ud := ⟨by decide, by decide, fault_of (by decide)⟩
theorem witness_NMConditionRaisesNM :
    legReg.wellFormed sNm.cfg = true ∧ formEnabled sNm.cfg legReg.form = true ∧
      sNm.cfg.nmCondition = true ∧ exec legReg sNm = .fault .nm ∧
      (legReg.wellFormed s0.cfg = true ∧ ∃ t, exec legReg s0 = .next t) :=
  ⟨by decide, by decide, by decide, fault_of (by decide), by decide, next_of (by decide)⟩
/-- V-LEG-MISALIGNED, and a VEX form at an address where the oracle answers a segment fault. -/
theorem witness_MisalignedLegacyRaisesGP :
    (available legMem sMis = true ∧
      memAccess legMem sMis = some { seg := .ds, addr := 0x3008, size := 16 } ∧
      legMem.form.encClass = .legacy ∧ 0x3008 % 16 ≠ 0) ∧
    available (.vpacksswbVex128 p0 false 1 2 (.mem atRax)) sSeg = true ∧
    exec (.vpacksswbVex128 p0 false 1 2 (.mem atRax)) sSeg = .fault .gp0 :=
  ⟨by decide, by decide, fault_of (by decide)⟩
/-- The faulting byte is the operand's first, or its last. -/
theorem witness_PageFaultIsTaken :
    let a : MemAccess := { seg := .ds, addr := 0, size := 16 }
    (available legMem sPf = true ∧ memAccess legMem sPf = some a ∧
      reachesRead legMem sPf a = true ∧ admitted sPf a = true ∧
      touches RegionKind.isSegFault sPf a = false ∧
      regionAt sPf.regions 0 = some (.pageFault 4)) ∧
    (memAccess legMem sPfHigh = some a ∧ admitted sPfHigh a = true ∧ 15 < a.size ∧
      touches RegionKind.isSegFault sPfHigh a = false ∧
      regionAt sPfHigh.regions 15 = some (.pageFault 5) ∧
      (∀ j', j' < 15 → regionAt sPfHigh.regions j' = none)) := by decide
theorem witness_SegmentFaultIsTaken :
    let d : MemAccess := { seg := .ds, addr := 0, size := 16 }
    let k : MemAccess := { seg := .ss, addr := 0, size := 16 }
    let stk : Instr := .packsswbSse128 p0 false 1 (.mem atRsp)
    (available legMem sSeg = true ∧ memAccess legMem sSeg = some d ∧
      reachesRead legMem sSeg d = true ∧ admitted sSeg d = true ∧
      touches RegionKind.isSegFault sSeg d = true ∧ d.seg ≠ .ss) ∧
    (available stk sSeg = true ∧ memAccess stk sSeg = some k ∧ reachesRead stk sSeg k = true ∧
      admitted sSeg k = true ∧ touches RegionKind.isSegFault sSeg k = true ∧ k.seg = .ss) := by
  decide
/-- V-EVEX-MASKED-FAULT among them: the mask names no element and the page fault is taken. -/
theorem witness_WritemaskPlaysNoPartInRead :
    let i (wm : Writemask) : Instr := .vpacksswbEvex512 p0 wm 1 2 (.mem atRax)
    let i' (wm : Writemask) : Instr := .vpackssdwEvex128 p0 wm 1 2 (.bcst atRax)
    (i (.zeroing 1)).wellFormed s0.cfg = true ∧ (i .none).wellFormed s0.cfg = true ∧
    (i' (.zeroing 1)).wellFormed s0.cfg = true ∧ (i' (.merging 7)).wellFormed s0.cfg = true ∧
    exec (i (.zeroing 1)) sPf = .fault (.pf 4) ∧ (∃ t, exec (i (.zeroing 1)) s0 = .next t) ∧
    (∃ t, exec (i .none) s0 = .next t) :=
  ⟨by decide, by decide, by decide, by decide, fault_of (by decide), next_of (by decide),
    next_of (by decide)⟩
/-- V-EVEX-BCST-AC; and a misaligned full-width operand of an EVEX form. -/
theorem witness_AlignCheckRaisesAC :
    let b : Instr := .vpackssdwEvex128 p0 .none 1 2 (.bcst atRax)
    let w : Instr := .vpackssdwEvex128 p0 .none 1 2 (.mem atRax)
    (available b sAc = true ∧ b.src2 = .bcst atRax ∧
      memAccess b sAc = some { seg := .ds, addr := 0x3002, size := 4 } ∧
      sAc.cfg.alignCheck = true ∧ readable sAc { seg := .ds, addr := 0x3002, size := 4 } = true ∧
      0x3002 % 4 ≠ 0) ∧
    exec b sAc = .fault .ac0 ∧
    (available w sAc = true ∧ w.src2 = .mem atRax ∧
      memAccess w sAc = some { seg := .ds, addr := 0x3002, size := 16 } ∧
      w.form.encClass ≠ .legacy ∧ 0x3002 % 16 ≠ 0) ∧
    (available legMem sAc = true ∧ legMem.src2 = .mem atRax ∧
      memAccess legMem sAc = some { seg := .ds, addr := 0x3002, size := 16 } ∧
      legMem.form.encClass = .legacy) :=
  ⟨by decide, fault_of (by decide), by decide, by decide⟩
/-- Each of the six records. -/
theorem witness_EveryFaultHasItsCause :
    exec legReg sOff = .fault .ud ∧ exec legReg sNm = .fault .nm ∧
    exec legMem sMis = .fault .gp0 ∧ exec legMem sPf = .fault (.pf 4) ∧
    exec (.packsswbSse128 p0 false 1 (.mem atRsp)) sSeg = .fault .ss0 ∧
    exec (.vpackssdwEvex128 p0 .none 1 2 (.bcst atRax)) sAc = .fault .ac0 :=
  ⟨fault_of (by decide), fault_of (by decide), fault_of (by decide), fault_of (by decide),
    fault_of (by decide), fault_of (by decide)⟩
theorem witness_RegisterFormsFaultOnlyUDNM :
    legReg.src2 = .reg 2 ∧ available legReg s0 = true ∧ exec legReg sOff = .fault .ud :=
  ⟨by decide, by decide, fault_of (by decide)⟩
/-- An access whose last byte is at 2^64, one whose last byte is in a hole, one at a device. -/
theorem witness_UnmodelledAccessIsRefused :
    let v : Instr := .vpacksswbVex128 p0 false 1 2 (.mem atRax)
    let top : State := withX s0 0 0xFFFFFFFFFFFFFFF1
    let hole : State := withRegion s0 15 1 .unadmitted
    let dev : State := withRegion s0 15 1 .device
    let d : MemAccess := { seg := .ds, addr := 0, size := 16 }
    (available v top = true ∧
      memAccess v top = some { seg := .ds, addr := 0xFFFFFFFFFFFFFFF1, size := 16 } ∧
      inSpace top { seg := .ds, addr := 0xFFFFFFFFFFFFFFF1, size := 16 } = false) ∧
    (memAccess v hole = some d ∧ reachesRead v hole d = true ∧ inSpace hole d = true ∧
      touches RegionKind.isUnadmitted hole d = true) ∧
    (memAccess v dev = some d ∧ reachesRead v dev d = true ∧ inSpace dev d = true ∧
      touches RegionKind.isUnadmitted dev d = false ∧ touches RegionKind.isDevice dev d = true) := by
  decide

/-- `packsswb xmm1,xmm2` at address 0. -/
def sRun : State := withText s0 0 [0x66#8, 0x0F#8, 0x63#8, 0xCA#8]

theorem sRun_decodes : decode sRun.cfg (fetch sRun) = .ok (legReg, []) := by rfl
theorem sRun_steps : ∃ t, step sRun = .next t := by
  obtain ⟨t, h⟩ := next_of (i := legReg) (s := sRun) (by decide)
  refine ⟨t, ?_⟩
  rw [← h]
  rfl
theorem witness_StepKeepsInvariant : Inv sRun ∧ ∃ t, step sRun = .next t := by
  refine ⟨⟨fun r b _ => ?_, by decide, by decide, by decide⟩, sRun_steps⟩
  have h : readV sRun r = 0#512 := by simp [readV, sRun, withText, placeText, s0, State.reset]
  simp [h]
theorem witness_CompletionChangesOnlyDest : ∃ t, exec legMem s0 = .next t := next_of (by decide)
theorem witness_UpperBitsAfterEachClass :
    (∃ t, exec legReg s0 = .next t) ∧ legReg.form.encClass = .legacy ∧
    (∃ t, exec (.vpacksswbVex128 p0 false 1 2 (.reg 3)) s0 = .next t) ∧
    (Instr.vpacksswbVex128 p0 false 1 2 (.reg 3)).form.encClass ≠ .legacy :=
  ⟨next_of (by decide), by decide, next_of (by decide), by decide⟩
theorem witness_RunKeepsAllButVectors : ∃ t, Reaches 1 sRun t := by
  obtain ⟨t, h⟩ := sRun_steps
  exact ⟨t, t, h, rfl⟩

/-- The lowest place of a 4-byte instruction that is refused (its last byte is the 15th from the top), and the
highest that is not. -/
def sNearTop : State := withText s0 0xFFFFFFFFFFFFFFEE [0x66#8, 0x0F#8, 0x63#8, 0xCA#8]
/-- The 64-bit MMX form. -/
def sMmx : State := withText s0 0 [0x0F#8, 0x63#8, 0xCA#8]
def sBelowTop : State := withText s0 0xFFFFFFFFFFFFFFED [0x66#8, 0x0F#8, 0x63#8, 0xCA#8]

theorem witness_PcAdvancesByLength :
    (∃ t, exec legReg s0 = .next t) ∧ sNearTop.faultRecord = none ∧
    decode sNearTop.cfg (fetch sNearTop) = .ok (legReg, []) ∧
    2 ^ sNearTop.cfg.aw.bits ≤ sNearTop.pc.toNat + (legReg.len - 1) + 15 :=
  ⟨next_of (by decide), rfl, by rfl, by decide⟩
/-- Two copies of one instruction stand in the text: from address 0, and so near the top that only the
second is refused. -/
def progTwo : List Instr := [legReg, legReg]
def sTwo : State := withText s0 0 (progTwo.flatMap encode)
def sTwoTop : State := withText s0 0xFFFFFFFFFFFFFFEA (progTwo.flatMap encode)

theorem placed_of {s : State} {bs : List Byte} (h : s.pc.toNat + bs.length ≤ s.cfg.aw.space)
    (ht : (List.range bs.length).all (fun k => cellAt s.text (s.pc.toNat + k) == bs[k]?) = true) :
    Placed s bs where
  fits := h
  text := fun k b hb => by
    have hk := (List.getElem?_eq_some_iff.1 hb).1
    have := List.all_eq_true.1 ht k (List.mem_range.2 hk)
    rw [← hb]
    exact eq_of_beq this

/-- The hypotheses hold of a program that finishes, of one refused at its second instruction near the top, of one
that faults, and of the empty program. -/
theorem witness_RunEndsInOneOfThreeWays :
    (sTwo.faultRecord = none ∧ (∀ i ∈ progTwo, i.wellFormed sTwo.cfg = true) ∧
      Placed sTwo (progTwo.flatMap encode) ∧ runs legReg sTwo = true) ∧
    (sTwoTop.faultRecord = none ∧ Placed sTwoTop (progTwo.flatMap encode) ∧
      nearTop sTwoTop legReg.len = false ∧
      nearTop (advance sTwoTop legReg.len) legReg.len = true) ∧
    (Placed { sTwo with cfg := sOff.cfg } (progTwo.flatMap encode) ∧
      exec legReg { sTwo with cfg := sOff.cfg } = .fault .ud) ∧
    Placed s0 (([] : List Instr).flatMap encode) :=
  ⟨⟨rfl, by decide, placed_of (by decide) (by decide), by decide⟩,
    ⟨rfl, placed_of (by decide) (by decide), by decide, by decide⟩,
    ⟨placed_of (by decide) (by decide), fault_of (by decide)⟩, placed_of (by decide) (by decide)⟩
theorem witness_StepRunsDecodedInstruction :
    sBelowTop.faultRecord = none ∧ decode sBelowTop.cfg (fetch sBelowTop) = .ok (legReg, []) ∧
      nearTop sBelowTop legReg.len = false := ⟨rfl, by rfl, by decide⟩
theorem witness_UndecodableIsRefused :
    (s0.faultRecord = none ∧ fetch s0 = []) ∧
    (sMmx.faultRecord = none ∧ fetch sMmx ≠ [] ∧
      decode sMmx.cfg (fetch sMmx) = .error .mmxForm) :=
  ⟨⟨rfl, by decide⟩, rfl, by decide, by rfl⟩

theorem witness_DecodeOfEncode :
    (Instr.packssdwSse128 { seg := some .gs, a32 := true } true 15
      (.mem (.sib 13 (some { reg := 12, scale := 3 }) (.d8 0x80)))).wellFormed Config.launch = true ∧
    (Instr.vpackssdwVex256 p0 true 15 15 (.reg 15)).wellFormed Config.launch = true ∧
    (Instr.vpackssdwEvex512 p0 (.zeroing 7) 31 31 (.bcst (.sibNoBase none 0))).wellFormed
      Config.launch = true ∧
    (Instr.vpacksswbEvex512 p0 .none 7 7 (.reg 7)).wellFormed cfg32 = true := by decide
theorem witness_DecodeYieldsWellFormed :
    decode Config.launch [0x66#8, 0x0F#8, 0x63#8, 0xCA#8, 0x90#8] = .ok (legReg, [0x90#8]) := by rfl
theorem witness_LengthCountsBytes :
    decode Config.launch [0x66#8, 0x0F#8, 0x63#8, 0xCA#8] = .ok (legReg, []) := by rfl
theorem witness_RegisterNumbersBelowNVREG :
    decode cfg8 [0xC5#8, 0xC1#8, 0x63#8, 0xFF#8] =
      .ok (.vpacksswbVex128 p0 false 7 7 (.reg 7), []) ∧
    s8.cfg.nvreg.count ≤ (Instr.vpacksswbVex128 p0 false 8 0 (.reg 0)).dest.toNat ∧
    s8.cfg.nvreg.count ≤ (Instr.vpacksswbVex128 p0 false 0 8 (.reg 0)).src1.toNat ∧
    (Instr.vpacksswbVex128 p0 true 0 0 (.reg 8)).src2 = .reg 8 ∧
    s8.cfg.nvreg.count ≤ (8#5).toNat ∧
    (Instr.vpacksswbVex128 p0 true 0 0 (.reg 8)).wellFormed { cfg8 with nvreg := .n32 } = true ∧
    (Instr.vpacksswbVex128 p0 true 8 8 (.reg 0)).wellFormed { cfg8 with nvreg := .n32 } = true :=
  ⟨by rfl, by decide, by decide, by decide, by decide, by decide, by decide⟩
/-- Accepted leading bytes with and without `66`, and one byte for each row of the statement's list. -/
theorem witness_ReservedEncodingsAreRefused :
    (∀ b ∈ [0x64#8, 0x67#8, 0x66#8], b ∈ leadBytes) ∧ 0x66#8 ∈ [0x64#8, 0x67#8, 0x66#8] ∧
    (∀ b ∈ [0x2E#8], b ∈ leadBytes) ∧ 0x66#8 ∉ [0x2E#8] ∧ (0xF3#8) ≠ 0x0F#8 ∧
    (0x48#8).extractLsb' 4 4 = 4#4 ∧ (0xE2#8).extractLsb' 0 5 ≠ 1#5 ∧
    (0xE8#8).extractLsb' 0 2 ≠ 1#2 ∧ (0xF5#8).extractLsb' 2 2 ≠ 0#2 ∧
    (0x69#8).getLsbD 2 = false ∧ (0xF2#8).extractLsb' 0 2 ≠ 1#2 ∧
    (0x6E#8).extractLsb' 0 2 ≠ 1#2 ∧ (0x68#8).extractLsb' 5 2 = 3#2 ∧
    ((0x80#8).getLsbD 7 = true ∧ (0x80#8).extractLsb' 0 3 = 0#3) ∧ (0xED#8).getLsbD 7 = true ∧
    (0x58#8).getLsbD 4 = true ∧ (0xCB#8).extractLsb' 6 2 = 3#2 := by decide
/-- The review's words, behind leading bytes (R48). -/
theorem test_reserved_behind_leading_bytes :
    reasonOf Config.launch [0x64#8, 0xF0#8, 0x66#8, 0x0F#8, 0x63#8, 0x08#8] = some .lockPfx ∧
    reasonOf Config.launch [0x2E#8, 0xC5#8, 0xE8#8, 0x63#8, 0xCB#8] = some .otherPp ∧
    reasonOf Config.launch [0x48#8, 0x0F#8, 0x63#8, 0xCA#8] = some .mmxForm ∧
    reasonOf Config.launch [0x64#8, 0x0F#8, 0x63#8, 0x08#8] = some .mmxForm := by decide
/-- The mode, leading bytes, a word that decodes, and a byte for each clause, with each inverted bit stored 0. -/
theorem witness_Mode32Restrictions :
    cfg32.aw = .w32 ∧ (∀ b ∈ [0x3E#8, 0x66#8], b ∈ leadBytes) ∧
    decode cfg32 [0xC5#8, 0xE9#8, 0x63#8, 0xCB#8] =
      .ok (.vpacksswbVex128 p0 false 1 2 (.reg 3), []) ∧
    (0x48#8).extractLsb' 4 4 = 4#4 ∧ (0xBF#8).extractLsb' 6 2 ≠ 3#2 ∧
    (0xC1#8).getLsbD 5 = false ∧ (0x29#8).getLsbD 6 = false ∧
    (0xD1#8).getLsbD 5 = false ∧ (0xE1#8).getLsbD 4 = false ∧
    (0x2D#8).getLsbD 6 = false ∧ (0x00#8).getLsbD 3 = false :=
  ⟨rfl, by decide, by rfl, by decide, by decide, by decide, by decide, by decide, by decide, by decide,
    by decide⟩
/-- Each hypothesis: the mode, `67` absent and present, every kind of segment, no override and one, each base that
selects SS and the ones with the same low bits that do not, and each encoding class. -/
theorem witness_EffectiveAddressRows :
    s0.cfg.aw = .w64 ∧ p0.a32 = false ∧ ({ p0 with a32 := true } : Pfx).a32 = true ∧
    segOf { p0 with seg := some .fs } atRax = .fs ∧ segOf { p0 with seg := some .gs } atRax = .gs ∧
    (segOf p0 atRsp ≠ .fs ∧ segOf p0 atRsp ≠ .gs) ∧ p0.seg = none ∧
    (12#4 ≠ 4#4 ∧ 12#4 ≠ 5#4 ∧ 13#4 ≠ 4#4 ∧ 13#4 ≠ 5#4) ∧
    Form.packsswbSse128.encClass = .legacy ∧ Form.vpackssdwVex256.encClass = .vex ∧
    Form.vpackssdwEvex512.encClass = .evex := by decide
theorem witness_EffectiveAddress32 : s32.cfg.aw = .w32 := rfl
/-- The last byte, word and doubleword of a 64-byte operand, and the one of a 4-byte operand. -/
theorem witness_LoadIsLittleEndian :
    64 ≤ 64 ∧ 63 < 64 ∧ 2 * 31 + 1 < 64 ∧ 4 * 15 + 3 < 64 ∧ 4 * 0 + 3 < 4 := by decide
/-- The last byte stored of 64, and the addresses on both sides. -/
theorem witness_MemWriteStoresBytes :
    Memory.wf (withBytes s0 8 [1#8, 2#8]).mem = true ∧ 64 ≤ 64 ∧ 63 < 64 ∧
      (7 < 8 ∨ 8 + 64 ≤ 7) ∧ (72 < 8 ∨ 8 + 64 ≤ 72) := by decide
/-- Each of the four pairs, with a register and with memory. -/
theorem witness_UnmaskedEvexEqualsVex :
    (runs (.vpacksswbVex128 p0 false 1 2 (.mem atRax)) sMis = true ∧
      runs (.vpacksswbEvex128 p0 .none 1 2 (.mem atRax)) sMis = true ∧
      memAccess (.vpacksswbVex128 p0 false 1 2 (.mem atRax)) sMis =
        memAccess (.vpacksswbEvex128 p0 .none 1 2 (.mem atRax)) sMis) ∧
    (runs (.vpackssdwVex128 p0 false 1 2 (.reg 3)) s0 = true ∧
      runs (.vpackssdwEvex128 p0 .none 1 2 (.reg 3)) s0 = true) ∧
    (runs (.vpacksswbVex256 p0 false 1 2 (.reg 3)) s0 = true ∧
      runs (.vpacksswbEvex256 p0 .none 1 2 (.reg 3)) s0 = true) ∧
    (runs (.vpackssdwVex256 p0 false 1 2 (.mem atRax)) sMis = true ∧
      runs (.vpackssdwEvex256 p0 .none 1 2 (.mem atRax)) sMis = true ∧
      memAccess (.vpackssdwVex256 p0 false 1 2 (.mem atRax)) sMis =
        memAccess (.vpackssdwEvex256 p0 .none 1 2 (.mem atRax)) sMis) := by decide
theorem witness_LegacyAgainstVex128 :
    (runs (.packsswbSse128 p0 false 1 (.mem atRax)) s0 = true ∧
      runs (.vpacksswbVex128 p0 false 1 1 (.mem atRax)) s0 = true ∧
      memAccess (.packsswbSse128 p0 false 1 (.mem atRax)) s0 =
        memAccess (.vpacksswbVex128 p0 false 1 1 (.mem atRax)) s0) ∧
    (runs (.packssdwSse128 p0 false 1 (.reg 2)) s0 = true ∧
      runs (.vpackssdwVex128 p0 false 1 1 (.reg 2)) s0 = true) ∧
    (128 ≤ 128 ∧ 128 < s0.cfg.maxvl.bits) := by decide
theorem witness_SelfPackUsesOldValue :
    available (.packsswbSse128 p0 false 1 (.reg 1)) s0 = true ∧
      available (.packssdwSse128 p0 true 15 (.reg 15)) s0 = true := by decide

def sOnes : State := withK s0 1 0xFFFFFFFFFFFFFFFF

theorem witness_AllOnesMaskEqualsNoMask :
    (∀ j, j < 64 → (sOnes.k[(1#3).toNat]'(by decide)).getLsbD j = true) ∧
    runs (.vpacksswbEvex512 p0 (.merging 1) 1 2 (.reg 3)) sOnes = true ∧
    runs (.vpackssdwEvex128 p0 (.zeroing 1) 1 2 (.bcst atRax)) sOnes = true := by decide
theorem witness_AllZerosMask :
    (∀ j, j < 64 → (s0.k[(1#3).toNat]'(by decide)).getLsbD j = false) ∧
    runs (.vpacksswbEvex512 p0 (.merging 1) 1 2 (.reg 3)) s0 = true ∧
    runs (.vpackssdwEvex128 p0 (.zeroing 1) 1 2 (.bcst atRax)) s0 = true := by decide
/-- KL = 16: the mask of the new register file differs from the old one in bits 63:16 only. -/
theorem witness_OpmaskBitsAboveKLIgnored :
    let i : Instr := .vpacksswbEvex128 p0 (.merging 1) 1 2 (.reg 3)
    i.form = .vpacksswbEvex128 ∧
    (∀ j, j < 16 → ((withK s0 1 0xFFFFFFFFFFFF0000).k[(1#3).toNat]'(by decide)).getLsbD j =
      (s0.k[(1#3).toNat]'(by decide)).getLsbD j) ∧
    ∃ t, exec i s0 = .next t := ⟨rfl, by decide, next_of (by decide)⟩
/-- Register 2 differs at bit 128 and above, VL is 128. -/
theorem witness_SourceBitsAboveVLIgnored :
    let i : Instr := .vpacksswbVex128 p0 false 1 2 (.reg 3)
    let v' := (writeV s0 2 (1#512 <<< 128)).v
    (∀ b, b < i.form.vl.bits → (readV { s0 with v := v' } 2).getLsbD b = (readV s0 2).getLsbD b) ∧
    (∀ r : VReg, r ≠ 2 → readV { s0 with v := v' } r = readV s0 r) ∧
    (∃ t, exec i s0 = .next t) ∧ i.form.encClass ≠ .legacy := by
  refine ⟨by decide, fun r h => readV_writeV_other s0 r 2 _ h, next_of (by decide), by decide⟩

end Sys2Proof.Tests
end

section
/-! SUPPORT. Signed narrowing at every width: truncation of a value in range, the top bits as a range, and
the functions that clamp (spec/40_pack_primitives.md R51, R52, R58). -/

namespace Sys2Proof.Machine

/-! ### Truncation and the top bits -/

/-- Truncation keeps a signed value that fits the narrower width. -/
theorem toInt_setWidth_of_fits {w n : Nat} (hn : 0 < n) (hnw : n ≤ w) (x : BitVec w)
    (hlo : -2 ^ (n - 1) ≤ x.toInt) (hhi : x.toInt < 2 ^ (n - 1)) :
    (x.setWidth n).toInt = x.toInt := by
  rw [← BitVec.signExtend_eq_setWidth_of_le x hnw, BitVec.signExtend,
    BitVec.toInt_ofInt_eq_self hn hlo hhi]

/-- The bits from `k` up are the truncation of the arithmetic shift by `k`. -/
theorem extractLsb'_top_eq_setWidth {w k l : Nat} (hw : k + l = w) (x : BitVec w) :
    x.extractLsb' k l = (x.sshiftRight k).setWidth l := by
  apply BitVec.eq_of_getLsbD_eq
  intro b hb
  have hbw : b < w := by omega
  have hkb : k + b < w := by omega
  rw [BitVec.getLsbD_extractLsb', BitVec.getLsbD_setWidth, BitVec.getLsbD_sshiftRight]
  simp [hb, hbw, hkb]

/-- As a signed number, the bits from `k` up are the value divided by `2 ^ k`, rounded down. -/
theorem toInt_extractLsb'_top {w k l : Nat} (hw : k + l = w) (hl : 0 < l) (x : BitVec w) :
    (x.extractLsb' k l).toInt = x.toInt / 2 ^ k := by
  have hshift : (x.sshiftRight k).toInt = x.toInt / 2 ^ k := by
    simp [BitVec.toInt_sshiftRight, Int.shiftRight_eq_div_pow]
  have hpow : (2 : Int) ^ (w - 1) = 2 ^ (l - 1) * 2 ^ k := by
    rw [← pow_add]
    congr 1
    omega
  have hk : (0 : Int) < 2 ^ k := by positivity
  have hlo := x.le_toInt
  have hhi := x.toInt_lt
  rw [hpow] at hlo hhi
  rw [extractLsb'_top_eq_setWidth hw, toInt_setWidth_of_fits hl (by omega), hshift]
  · rw [hshift, Int.le_ediv_iff_mul_le hk]
    linarith
  · rw [hshift, Int.ediv_lt_iff_lt_mul hk]
    exact hhi

/-- The bits from `k` up are all equal exactly for the signed values of `k + 1` bits. -/
theorem topBits_equal_iff {w k l : Nat} (hw : k + l = w) (hl : 0 < l) (x : BitVec w) :
    (x.extractLsb' k l = 0#l ∨ x.extractLsb' k l = BitVec.allOnes l) ↔
      -2 ^ k ≤ x.toInt ∧ x.toInt < 2 ^ k := by
  have hk : (0 : Int) < 2 ^ k := by positivity
  rw [← BitVec.toInt_inj, ← BitVec.toInt_inj, toInt_extractLsb'_top hw hl, BitVec.toInt_zero,
    BitVec.toInt_allOnes, if_pos hl, Int.ediv_eq_iff_of_pos hk, Int.ediv_eq_iff_of_pos hk]
  omega

/-! ### Functions that clamp -/

/-- `sat` clamps the signed value of `2n` bits to the signed values of `n` bits. -/
def IsSignedClamp (n : Nat) (sat : BitVec (2 * n) → BitVec n) : Prop :=
  ∀ x, (sat x).toInt = max (-2 ^ (n - 1)) (min (2 ^ (n - 1) - 1) x.toInt)

theorem isSignedClamp_satSW2SB : IsSignedClamp 8 satSW2SB := toInt_satSW2SB

theorem isSignedClamp_satSD2SW : IsSignedClamp 16 satSD2SW := toInt_satSD2SW

namespace IsSignedClamp

variable {n : Nat} {sat : BitVec (2 * n) → BitVec n}

theorem eq_intMax_of_gt (h : IsSignedClamp n sat) {x : BitVec (2 * n)}
    (hx : 2 ^ (n - 1) - 1 < x.toInt) : sat x = BitVec.intMax n := by
  have hpos : (0 : Int) < 2 ^ (n - 1) := by positivity
  apply BitVec.eq_of_toInt_eq
  rw [h x, BitVec.toInt_intMax]
  omega

theorem eq_intMin_of_lt (h : IsSignedClamp n sat) (hn : 0 < n) {x : BitVec (2 * n)}
    (hx : x.toInt < -2 ^ (n - 1)) : sat x = BitVec.intMin n := by
  have hpos : (0 : Int) < 2 ^ (n - 1) := by positivity
  apply BitVec.eq_of_toInt_eq
  rw [h x, BitVec.toInt_intMin_of_pos hn]
  omega

theorem toInt_of_fits (h : IsSignedClamp n sat) {x : BitVec (2 * n)}
    (hlo : -2 ^ (n - 1) ≤ x.toInt) (hhi : x.toInt < 2 ^ (n - 1)) : (sat x).toInt = x.toInt := by
  rw [h x]
  omega

theorem eq_setWidth_of_fits (h : IsSignedClamp n sat) (hn : 0 < n) {x : BitVec (2 * n)}
    (hlo : -2 ^ (n - 1) ≤ x.toInt) (hhi : x.toInt < 2 ^ (n - 1)) : sat x = x.setWidth n := by
  apply BitVec.eq_of_toInt_eq
  rw [h.toInt_of_fits hlo hhi, toInt_setWidth_of_fits hn (by omega) x hlo hhi]

/-- Where the bits from `n - 1` up are all equal, nothing is lost: the low half (R51, R52). -/
theorem eq_extractLsb'_of_topBits (h : IsSignedClamp n sat) (hn : 0 < n) {x : BitVec (2 * n)}
    (htop : x.extractLsb' (n - 1) (n + 1) = 0#(n + 1) ∨
      x.extractLsb' (n - 1) (n + 1) = BitVec.allOnes (n + 1)) :
    sat x = x.extractLsb' 0 n := by
  obtain ⟨hlo, hhi⟩ := (topBits_equal_iff (by omega) (by omega) x).1 htop
  rw [h.eq_setWidth_of_fits hn hlo hhi, BitVec.setWidth_eq_extractLsb' (by omega)]

/-- Where they are not, the sign bit says which end (R51, R52). -/
theorem eq_end_of_not_topBits (h : IsSignedClamp n sat) (hn : 0 < n) {x : BitVec (2 * n)}
    (htop : ¬(x.extractLsb' (n - 1) (n + 1) = 0#(n + 1) ∨
      x.extractLsb' (n - 1) (n + 1) = BitVec.allOnes (n + 1))) :
    sat x = if x.getLsbD (2 * n - 1) then BitVec.intMin n else BitVec.intMax n := by
  have hpos : (0 : Int) < 2 ^ (n - 1) := by positivity
  rw [topBits_equal_iff (by omega) (by omega)] at htop
  rw [← BitVec.msb_eq_getLsbD_last, BitVec.msb_eq_toInt]
  by_cases hneg : x.toInt < 0
  · rw [h.eq_intMin_of_lt hn (by omega)]
    simp [hneg]
  · rw [h.eq_intMax_of_gt (by omega)]
    simp [hneg]

/-- Every law of R58 follows from the clamp. -/
theorem satLaws (h : IsSignedClamp n sat) (hn : 0 < n) :
    SatLaws n (-2 ^ (n - 1)) (2 ^ (n - 1) - 1) sat := by
  have hpos : (0 : Int) < 2 ^ (n - 1) := by positivity
  have hwide : (2 : Int) ^ (n - 1) ≤ 2 ^ (2 * n - 1) :=
    pow_le_pow_right₀ (by decide) (by omega)
  constructor
  case value => exact h
  case exact =>
    intro x hlo hhi
    refine ⟨h.eq_setWidth_of_fits hn hlo (by omega), BitVec.eq_of_toInt_eq ?_⟩
    rw [BitVec.toInt_signExtend_of_le (by omega), h.toInt_of_fits hlo (by omega)]
  case sign =>
    intro x
    rw [BitVec.msb_eq_toInt, BitVec.msb_eq_toInt, h x]
    exact decide_eq_decide.2 (by omega)
  case monotone =>
    intro x y hxy
    rw [h x, h y]
    omega
  case zero =>
    have hwideZero : (0 : BitVec (2 * n)).toInt = 0 := BitVec.toInt_zero
    have hnarrowZero : (0 : BitVec n).toInt = 0 := BitVec.toInt_zero
    apply BitVec.eq_of_toInt_eq
    rw [h 0, hwideZero, hnarrowZero]
    omega
  case top =>
    apply BitVec.eq_of_toInt_eq
    rw [h, BitVec.toInt_ofInt_eq_self (by omega) (by omega) (by omega),
      BitVec.toInt_ofInt_eq_self hn (by omega) (by omega)]
    omega
  case bottom =>
    apply BitVec.eq_of_toInt_eq
    rw [h, BitVec.toInt_ofInt_eq_self (by omega) (by omega) (by omega),
      BitVec.toInt_ofInt_eq_self hn (by omega) (by omega)]
    omega

end IsSignedClamp

/-- Saturating twice is one clamp to bytes (R58). -/
theorem satSW2SB_satSD2SW (d : BitVec 32) :
    satSW2SB (satSD2SW d) = BitVec.ofInt 8 (max (-128) (min 127 d.toInt)) := by
  apply BitVec.eq_of_toInt_eq
  rw [toInt_satSW2SB, toInt_satSD2SW,
    BitVec.toInt_ofInt_eq_self (by decide) (by omega) (by omega)]
  omega

end Sys2Proof.Machine
end

section
/-! SUPPORT. Packing lane by lane, and the masked write case by case (spec/40_pack_primitives.md R53, R54,
R56). -/

namespace Sys2Proof.Machine

/-! ### Packing -/

/-- An assembled value holds nothing above its elements. -/
theorem getLsbD_ofElems_of_ge {w n b : Nat} (hw : 0 < w) (f : Nat → BitVec w) (hn : w * n ≤ 512)
    (hb : w * n ≤ b) : (ofElems w n f).getLsbD b = false := by
  simp [getLsbD_ofElems w hw f b n hn, Nat.not_lt.2 hb]

/-- A lane number below VL/128 names sixteen bytes below VL. -/
theorem lane_fits {vl : VecLen} {l : Nat} (h : l < vl.bits / 128) : 16 * l + 16 ≤ vl.bytes := by
  simp only [VecLen.bits] at h
  omega

/-- The low half of a lane of `PackWB` is a's lane (R53). -/
theorem packWBElem_low (a b : Vec) (l : Nat) {t : Nat} (ht : t ≤ 7) :
    packWBElem a b (16 * l + t) = satSW2SB (elem 16 (8 * l + t) a) := by
  have hpos : (16 * l + t) % 16 = t := by omega
  have hlane : (16 * l + t) / 16 = l := by omega
  rw [packWBElem, hpos, hlane, if_pos (by omega)]

/-- The high half of a lane of `PackWB` is b's lane (R53). -/
theorem packWBElem_high (a b : Vec) (l : Nat) {t : Nat} (ht : t ≤ 7) :
    packWBElem a b (16 * l + 8 + t) = satSW2SB (elem 16 (8 * l + t) b) := by
  have hpos : (16 * l + 8 + t) % 16 = 8 + t := by omega
  have hlane : (16 * l + 8 + t) / 16 = l := by omega
  rw [packWBElem, hpos, hlane, if_neg (by omega), Nat.add_sub_cancel_left]

theorem getLsbD_packWB_of_ge (vl : VecLen) (a b : Vec) {n : Nat} (h : vl.bits ≤ n) :
    (packWB vl a b).getLsbD n = false :=
  getLsbD_ofElems_of_ge (by decide) _ (by have := bytes_le vl; omega) h

/-- The low half of a lane of `PackDW` is a's lane (R54). -/
theorem packDWElem_low (a b : Vec) (l : Nat) {t : Nat} (ht : t ≤ 3) :
    packDWElem a b (8 * l + t) = satSD2SW (elem 32 (4 * l + t) a) := by
  have hpos : (8 * l + t) % 8 = t := by omega
  have hlane : (8 * l + t) / 8 = l := by omega
  rw [packDWElem, hpos, hlane, if_pos (by omega)]

/-- The high half of a lane of `PackDW` is b's lane (R54). -/
theorem packDWElem_high (a b : Vec) (l : Nat) {t : Nat} (ht : t ≤ 3) :
    packDWElem a b (8 * l + 4 + t) = satSD2SW (elem 32 (4 * l + t) b) := by
  have hpos : (8 * l + 4 + t) % 8 = 4 + t := by omega
  have hlane : (8 * l + 4 + t) / 8 = l := by omega
  rw [packDWElem, hpos, hlane, if_neg (by omega), Nat.add_sub_cancel_left]

theorem sixteen_mul_half_bytes (vl : VecLen) : 16 * (vl.bytes / 2) = vl.bits := by
  cases vl <;> rfl

theorem getLsbD_packDW_of_ge (vl : VecLen) (a b : Vec) {n : Nat} (h : vl.bits ≤ n) :
    (packDW vl a b).getLsbD n = false := by
  have hbits := sixteen_mul_half_bytes vl
  exact getLsbD_ofElems_of_ge (by decide) _ (hbits.trans_le (bits_le vl)) (hbits.trans_le h)

/-! ### The masked write -/

@[simp] theorem maskElem_none (ew : Nat) (old tmp : Vec) (z : Bool) (j : Nat) :
    maskElem ew old tmp none z j = elem ew j tmp := rfl

theorem maskElem_of_set (ew : Nat) (old tmp : Vec) (z : Bool) {m : BitVec 64} {j : Nat}
    (h : m.getLsbD j = true) : maskElem ew old tmp (some m) z j = elem ew j tmp := by
  simp [maskElem, h]

theorem maskElem_of_clear_merging (ew : Nat) (old tmp : Vec) {m : BitVec 64} {j : Nat}
    (h : m.getLsbD j = false) : maskElem ew old tmp (some m) false j = elem ew j old := by
  simp [maskElem, h]

theorem maskElem_of_clear_zeroing (ew : Nat) (old tmp : Vec) {m : BitVec 64} {j : Nat}
    (h : m.getLsbD j = false) : maskElem ew old tmp (some m) true j = 0#ew := by
  simp [maskElem, h]

/-- Element j reads bit j of the mask and no other. -/
theorem maskElem_congr (ew : Nat) (old tmp : Vec) (z : Bool) {m m' : BitVec 64} {j : Nat}
    (h : m.getLsbD j = m'.getLsbD j) :
    maskElem ew old tmp (some m) z j = maskElem ew old tmp (some m') z j := by
  simp only [maskElem, h]

/-- The masked write reads the mask bits below KL only (R56). -/
theorem maskWrite_congr (ew kl : Nat) (old tmp : Vec) (z : Bool) {m m' : BitVec 64}
    (h : ∀ j, j < kl → m.getLsbD j = m'.getLsbD j) :
    maskWrite ew kl old tmp (some m) z = maskWrite ew kl old tmp (some m') z :=
  ofElems_congr ew kl _ _ fun j hj => maskElem_congr ew old tmp z (h j hj)

/-- The fields the decoder accepts are the ones the write mask stands for (R38, R39). -/
theorem evexMask_eq_some {z : Bool} {aaa : KReg} {wm : Writemask} (h : evexMask z aaa = some wm) :
    wm.z = z ∧ wm.aaa = aaa := by
  unfold evexMask at h
  split at h
  · next haaa =>
    cases z
    · cases h
      exact ⟨rfl, haaa.symm⟩
    · cases h
  · cases z <;> cases h <;> exact ⟨rfl, rfl⟩

/-- A write mask is in use exactly where aaa is not 000 (R66), for the terms the decoder answers. -/
theorem maskValue_isSome (s : State) (wm : Writemask)
    (hwm : ∀ k, wm = .merging k ∨ wm = .zeroing k → k ≠ 0#3) :
    (maskValue s wm).isSome = decide (wm.aaa ≠ 0#3) := by
  cases wm with
  | none => rfl
  | merging k => exact (decide_eq_true (hwm k (.inl rfl))).symm
  | zeroing k => exact (decide_eq_true (hwm k (.inr rfl))).symm

/-- The mask in use is `k[aaa]` (R66). -/
theorem maskValue_eq_some (s : State) (wm : Writemask) (h : wm.aaa ≠ 0#3) :
    maskValue s wm = some (s.k[wm.aaa.toNat]'wm.aaa.isLt) := by
  cases wm with
  | none => exact absurd rfl h
  | merging k => rfl
  | zeroing k => rfl

end Sys2Proof.Machine
end

section
/-! PROOFS. Saturation, packing, masking: the statements about spec/40_pack_primitives.md. -/

namespace Sys2Proof.Proofs

open Sys2Proof.Machine

/-- Settles O1: both descriptions follow from the clamp at N = 8. -/
theorem satWordToByteClamps : Obligations.SatWordToByteClamps := by
  intro w
  have hclamp := isSignedClamp_satSW2SB
  exact ⟨fun hgt => hclamp.eq_intMax_of_gt hgt,
    fun hlt => hclamp.eq_intMin_of_lt (by decide) hlt,
    fun hlo hhi => hclamp.toInt_of_fits hlo (Int.lt_add_one_of_le hhi),
    fun htop => hclamp.eq_extractLsb'_of_topBits (by decide) htop,
    fun htop => hclamp.eq_end_of_not_topBits (by decide) htop⟩

/-- Settles O2: both descriptions follow from the clamp at N = 16. -/
theorem satDwordToWordClamps : Obligations.SatDwordToWordClamps := by
  intro d
  have hclamp := isSignedClamp_satSD2SW
  exact ⟨fun hgt => hclamp.eq_intMax_of_gt hgt,
    fun hlt => hclamp.eq_intMin_of_lt (by decide) hlt,
    fun hlo hhi => hclamp.toInt_of_fits hlo (Int.lt_add_one_of_le hhi),
    fun htop => hclamp.eq_extractLsb'_of_topBits (by decide) htop,
    fun htop => hclamp.eq_end_of_not_topBits (by decide) htop⟩

/-- Settles O3: the laws of both clamps, the three examples by evaluation, and the composition. -/
theorem saturationLaws : Obligations.SaturationLaws :=
  ⟨isSignedClamp_satSW2SB.satLaws (by decide), isSignedClamp_satSD2SW.satLaws (by decide),
    by decide, by decide, by decide, satSW2SB_satSD2SW⟩

/-- Settles O4, from what `PackWB` holds at each element and the two halves of a lane. -/
theorem packWBByLanes : Obligations.PackWBByLanes := by
  intro vl a b
  refine ⟨fun l t hl ht => ?_, fun n hn => getLsbD_packWB_of_ge vl a b hn⟩
  have hfits := lane_fits hl
  rw [elem_packWB vl a b _ (by omega), elem_packWB vl a b _ (by omega)]
  exact ⟨packWBElem_low a b l ht, packWBElem_high a b l ht⟩

/-- Settles O5, from what `PackDW` holds at each element and the two halves of a lane. -/
theorem packDWByLanes : Obligations.PackDWByLanes := by
  intro vl a b
  refine ⟨fun l t hl ht => ?_, fun n hn => getLsbD_packDW_of_ge vl a b hn⟩
  have hfits := lane_fits hl
  rw [elem_packDW vl a b _ (by omega), elem_packDW vl a b _ (by omega)]
  exact ⟨packDWElem_low a b l ht, packDWElem_high a b l ht⟩

/-- Settles O6: each clause is one fact about the masked element, read through `elem_maskWrite`, or about the
mask the fields name. -/
theorem maskWriteByElements : Obligations.MaskWriteByElements := by
  intro ew kl old tmp zeroing hew _ hbits
  have hpos : 0 < ew := by omega
  have hfits : ew * kl ≤ 512 := Nat.mul_comm kl ew ▸ hbits
  have helem (m : Option (BitVec 64)) {j : Nat} (hj : j < kl) :
      elem ew j (maskWrite ew kl old tmp m zeroing) = maskElem ew old tmp m zeroing j :=
    elem_maskWrite ew kl old tmp m zeroing hpos hfits j hj
  refine ⟨?unmasked, ?masked, ?unread, ?above, ?fields, ?mask⟩
  case unmasked =>
    intro j hj
    rw [helem none hj, maskElem_none]
  case masked =>
    intro m j hj
    rw [helem (some m) hj]
    refine ⟨maskElem_of_set ew old tmp zeroing, ?merging, ?zeroing⟩
    case merging =>
      rintro hclear rfl
      exact maskElem_of_clear_merging ew old tmp hclear
    case zeroing =>
      rintro hclear rfl
      exact maskElem_of_clear_zeroing ew old tmp hclear
  case unread => exact fun m m' h => maskWrite_congr ew kl old tmp zeroing h
  case above =>
    intro m n hn
    exact getLsbD_ofElems_of_ge hpos _ hfits (Nat.mul_comm kl ew ▸ hn)
  case fields => exact fun z aaa wm h => evexMask_eq_some h
  case mask =>
    intro s wm hwm
    refine ⟨maskValue_isSome s wm hwm, ?_⟩
    rintro k rfl hk
    exact maskValue_eq_some s wm hk

end Sys2Proof.Proofs
end

section
/-! SUPPORT. Instructions that read the same operand in the same way: what the read answers, when the
instruction is available, and the read events (spec/43_evex.md R67). -/

namespace Sys2Proof.Machine

/-! ### What the read depends on -/

/-- Two instructions agree on all that the read of the last operand is made of. The write mask, DEST and SRC1 are
not among it (R67). -/
structure ReadsAlike (i i' : Instr) : Prop where
  form : i.form = i'.form
  pfx : i.pfx = i'.pfx
  len : i.len = i'.len
  src2 : i.src2 = i'.src2

namespace ReadsAlike

variable {i i' : Instr}

theorem operandAddr_eq (h : ReadsAlike i i') (s : State) (bcst : Bool) (m : AddrMode) :
    operandAddr i s bcst m = operandAddr i' s bcst m := by
  simp only [operandAddr, h.form, h.pfx, h.len]

theorem alignStop_eq (h : ReadsAlike i i') (s : State) (addr : Nat) :
    alignStop i s addr = alignStop i' s addr := by
  simp only [alignStop, h.form]

/-- The value, the state after the read, and every way the read stops are the same. -/
theorem readSrc2_eq (h : ReadsAlike i i') (s : State) : readSrc2 i s = readSrc2 i' s := by
  simp only [readSrc2, h.form, h.pfx, h.src2, h.operandAddr_eq, h.alignStop_eq]

theorem memAccess_eq (h : ReadsAlike i i') (s : State) : memAccess i s = memAccess i' s := by
  simp only [memAccess, h.form, h.pfx, h.src2, h.operandAddr_eq]

theorem eventsOf_eq (h : ReadsAlike i i') (s : State) : eventsOf i s = eventsOf i' s := by
  simp only [eventsOf, h.memAccess_eq]

theorem available_eq (h : ReadsAlike i i') {s : State}
    (hwf : i.wellFormed s.cfg = i'.wellFormed s.cfg) : available i s = available i' s := by
  simp only [available, hwf, h.form]

end ReadsAlike

/-! ### What the outcome takes from the read -/

section Outcomes

variable {i i' : Instr} {s : State} (h : ReadsAlike i i')
  (hwf : i.wellFormed s.cfg = i'.wellFormed s.cfg)

include h hwf

theorem ReadsAlike.exec_fault_iff_exec_fault (f : Fault) :
    exec i s = .fault f ↔ exec i' s = .fault f := by
  rw [exec_fault_iff, exec_fault_iff, hwf, h.form, h.available_eq hwf, h.readSrc2_eq]

theorem ReadsAlike.exec_refused_iff_exec_refused (r : Refusal) :
    exec i s = .refused r ↔ exec i' s = .refused r := by
  rw [exec_refused_iff, exec_refused_iff, hwf, h.available_eq hwf, h.readSrc2_eq]

end Outcomes

/-! ### The history after a completion -/

theorem history_of_exec_next {i : Instr} {s t : State} (h : exec i s = .next t) :
    t.history = eventsOf i s ++ s.history := by
  obtain ⟨-, rfl⟩ := (exec_next_iff_runs i s t).1 h
  exact (completed_with i s (srcValue i s)).events

theorem eventsOf_mem {i : Instr} {m : AddrMode} (h : i.src2 = .mem m) (s : State) :
    eventsOf i s = [{ addr := operandAddr i s false m, size := i.form.vl.bytes }] := by
  simp only [eventsOf, memAccess, h]

theorem eventsOf_bcst {i : Instr} {m : AddrMode} (h : i.src2 = .bcst m) (s : State) :
    eventsOf i s = [{ addr := operandAddr i s true m, size := 4 }] := by
  simp only [eventsOf, memAccess, h]

end Sys2Proof.Machine
end

section
/-! PROOFS. The EVEX forms: the statement about the write mask and the read of spec/43_evex.md. -/

namespace Sys2Proof.Proofs

open Sys2Proof.Machine

/-- Settles O24: instructions that differ in the write mask alone read alike, and both are well-formed. So each
fault and refusal has the same cause, and each completion has the events of the one access. -/
theorem writemaskPlaysNoPartInRead : Obligations.WritemaskPlaysNoPartInRead := by
  intro s i i' hmasks hi hi'
  have halike : ReadsAlike i i' := by
    rcases hmasks with ⟨p, wm, wm', d, s1, src2, hwb⟩ | ⟨p, wm, wm', d, s1, src2, hdw⟩
    · rcases hwb with ⟨rfl, rfl⟩ | ⟨rfl, rfl⟩ | ⟨rfl, rfl⟩ <;> exact ⟨rfl, rfl, rfl, rfl⟩
    · rcases hdw with ⟨rfl, rfl⟩ | ⟨rfl, rfl⟩ | ⟨rfl, rfl⟩ <;> exact ⟨rfl, rfl, rfl, rfl⟩
  have hwf : i.wellFormed s.cfg = i'.wellFormed s.cfg := hi.trans hi'.symm
  refine ⟨halike.exec_fault_iff_exec_fault hwf, halike.exec_refused_iff_exec_refused hwf,
    fun t t' ht ht' => ?sameEvents,
    fun t m ht => ⟨fun hmem => ?wholeOperand, fun hbcst => ?broadcast⟩⟩
  case sameEvents =>
    rw [history_of_exec_next ht, history_of_exec_next ht', halike.eventsOf_eq]
  case wholeOperand =>
    rw [history_of_exec_next ht, eventsOf_mem hmem, List.singleton_append]
  case broadcast =>
    rw [history_of_exec_next ht, eventsOf_bcst hbcst, List.singleton_append]

end Sys2Proof.Proofs
end

section
/-! SUPPORT. Which faults can come from the operand read, and why: the causes of a fault once the form is
available (spec/60_exceptions.md R83, R84, R86 to R89). -/

namespace Sys2Proof.Machine

/-! ### The first checks -/

theorem available_iff (i : Instr) (s : State) :
    available i s = true ↔
      i.wellFormed s.cfg = true ∧ formEnabled s.cfg i.form = true ∧ s.cfg.nmCondition = false := by
  simp only [available, Bool.and_eq_true, Bool.not_eq_true', and_assoc]

/-! ### The causes of a fault of the read -/

/-- A fault the launch memory answers is the segment's, where a byte lies in such a region, or a page fault. -/
theorem accessVerdict_fault {s : State} {a : MemAccess} {f : Fault}
    (h : accessVerdict s a.seg a.addr a.size = some (.fault f)) :
    (touches RegionKind.isSegFault s a = true ∧ f = segFaultOf a.seg) ∨ ∃ code, f = .pf code := by
  rw [accessVerdict_eq] at h
  split at h
  case isTrue => cases h
  split at h
  case isTrue => cases h
  split at h
  case isTrue => cases h
  split at h
  case isTrue hseg =>
    cases h
    exact .inl ⟨hseg, rfl⟩
  split at h
  · next code _ =>
    cases h
    exact .inr ⟨code, rfl⟩
  · cases h

/-- A read that faults has one of three causes, in the order of R89: Legacy SSE alignment, the oracle, and the
alignment of a broadcast. -/
theorem stopOf_fault {i : Instr} {s : State} {a : MemAccess} {f : Fault}
    (h : stopOf i s a = some (.fault f)) :
    (i.form.encClass = .legacy ∧ f = .gp0) ∨
      accessVerdict s a.seg a.addr a.size = some (.fault f) ∨ f = .ac0 := by
  unfold stopOf at h
  split at h
  case isTrue =>
    unfold alignStopOf at h
    cases hc : i.form.encClass <;>
      simp only [hc, Option.some.injEq, Stop.fault.injEq, reduceCtorEq] at h
    exact .inl ⟨rfl, h.symm⟩
  split at h
  · next hv => exact .inr (.inl (hv.trans h))
  split at h
  · cases h
    exact .inr (.inr rfl)
  · cases h

/-- `NM` is a first check's, never the read's (R83, R89). -/
theorem readSrc2_ne_nm (i : Instr) (s : State) : readSrc2 i s ≠ .error (.fault .nm) := by
  intro h
  obtain ⟨a, -, hstop⟩ := (readSrc2_error_iff i s _).1 h
  rcases stopOf_fault hstop with ⟨-, hf⟩ | hv | hf
  · cases hf
  · rcases accessVerdict_fault hv with ⟨-, hf⟩ | ⟨code, hf⟩
    · unfold segFaultOf at hf
      split at hf <;> cases hf
    · cases hf
  · cases hf

/-- Past the first checks every fault is the read's, so it has a memory access as its cause. -/
theorem exec_fault_iff_of_available {i : Instr} {s : State} (h : available i s = true) (f : Fault) :
    exec i s = .fault f ↔ ∃ a, memAccess i s = some a ∧ stopOf i s a = some (.fault f) := by
  obtain ⟨hwf, hen, hnm⟩ := (available_iff i s).1 h
  rw [← readSrc2_error_iff, exec_fault_iff]
  simp [h, hwf, hen, hnm]

/-! ### The alignment of a Legacy SSE operand -/

/-- A Legacy SSE operand is no broadcast, so its alignment is checked before the read. -/
theorem reachesRead_legacy {i : Instr} (hc : i.form.encClass = .legacy) (s : State) (a : MemAccess) :
    reachesRead i s a = decide (a.addr % 16 = 0) := by
  have hbcst : i.src2.isBcst = false := by
    cases hs : i.src2 with
    | reg r => rfl
    | mem m => rfl
    | bcst m => cases hc.symm.trans (bcst_evex hs)
  simp only [reachesRead, hbcst, Bool.false_or, aligned, hc]

/-- The stop of a misaligned Legacy SSE operand does not depend on the launch memory (R84). -/
theorem stopOf_legacy_misaligned {i : Instr} (hc : i.form.encClass = .legacy) (s : State)
    {a : MemAccess} (ha : a.addr % 16 ≠ 0) : stopOf i s a = some (.fault .gp0) := by
  have hreach : reachesRead i s a = false := by rw [reachesRead_legacy hc, decide_eq_false ha]
  simp only [stopOf, hreach, if_true, alignStopOf, hc]

end Sys2Proof.Machine
end

section
/-! PROOFS. Faults: the statements about `NM` and the Legacy SSE alignment of spec/60_exceptions.md. -/

namespace Sys2Proof.Proofs

open Sys2Proof.Machine

/-- Settles O20: of the causes of a fault only the second check gives `NM`, since the read never does, and a
completion requires that check passed and keeps the configuration. -/
theorem nmConditionRaisesNM : Obligations.NMConditionRaisesNM := by
  intro i s hwf
  refine ⟨fun hen hnm => ?raised, fun h => ?onlyThen, fun hnm t ht => ?noCompletion,
    fun t ht => ?kept, rfl⟩
  case raised => exact (exec_fault_iff i s .nm).2 ⟨hwf, .inr (.inl ⟨rfl, hen, hnm⟩)⟩
  case onlyThen =>
    obtain ⟨-, ⟨hud, -⟩ | ⟨-, hcond⟩ | ⟨-, hread⟩⟩ := (exec_fault_iff i s .nm).1 h
    · cases hud
    · exact hcond
    · exact absurd hread (readSrc2_ne_nm i s)
  case noCompletion =>
    obtain ⟨hav, -⟩ := (exec_next_iff i s t).1 ht
    obtain ⟨-, -, hnm'⟩ := (available_iff i s).1 hav
    exact absurd (hnm.symm.trans hnm') (by decide)
  case kept =>
    obtain ⟨-, b, -, rfl⟩ := (exec_next_iff i s t).1 ht
    exact congrArg Config.nmCondition (completed_frame i s b).config

/-- Settles O21: the alignment of a Legacy SSE operand stops the read before the launch memory is asked; without
that cause, the one `GP(0)` left is the oracle's segment fault. -/
theorem misalignedLegacyRaisesGP : Obligations.MisalignedLegacyRaisesGP := by
  intro i s hav
  refine ⟨fun a hacc hc ha => ?legacy, fun hc h => ?vexEvex⟩
  case legacy =>
    exact (exec_fault_iff_of_available hav .gp0).2 ⟨a, hacc, stopOf_legacy_misaligned hc s ha⟩
  case vexEvex =>
    obtain ⟨a, hacc, hstop⟩ := (exec_fault_iff_of_available hav .gp0).1 h
    refine ⟨a, hacc, ?_⟩
    rcases stopOf_fault hstop with ⟨hleg, -⟩ | hv | hac
    · exact absurd hleg hc
    · rcases accessVerdict_fault hv with ⟨hseg, -⟩ | ⟨code, hpf⟩
      · exact hseg
      · cases hpf
    · cases hac

end Sys2Proof.Proofs
end

section
/-! SUPPORT. Reading an encoding back: the bytes of each format, behind the leading bytes the encoder writes
(spec/30_encoding.md R31 to R33, R38 to R46). -/

namespace Sys2Proof

/-! ### Fields and bytes -/

/-- The opcode byte of an operation (R43). -/
def PackOp.byte : PackOp → Byte
  | .wb => 0x63#8
  | .dw => 0x6B#8

theorem packOp_byte (op : PackOp) : packOp op.byte = some op := by cases op <;> rfl

/-- The EVEX field `L'L` of a vector length (R33). -/
def VecLen.ll : VecLen → BitVec 2
  | .v128 => 0#2
  | .v256 => 1#2
  | .v512 => 2#2

theorem evexVl_ll (vl : VecLen) : evexVl vl.ll = some vl := by cases vl <;> rfl

/-- The fields aaa and z of a write mask that names no k0 are read back (R38, R39). -/
theorem evexMask_self {wm : Writemask} (h : ∀ k, wm = .merging k ∨ wm = .zeroing k → k ≠ 0#3) :
    evexMask wm.z wm.aaa = some wm := by
  cases wm with
  | none => rfl
  | merging k => simp [evexMask, Writemask.z, Writemask.aaa, h k (.inl rfl)]
  | zeroing k => simp [evexMask, Writemask.z, Writemask.aaa, h k (.inr rfl)]

/-- The fields of a REX byte (R31). -/
theorem rex_fields (r x b : Bool) (byte : Byte) (h : byte = 4#4 ++ (bit false ++ (bit r ++ (bit x ++ bit b)))) :
    pfxByte byte = .other ∧ byte ≠ 0x0F#8 ∧ byte.extractLsb' 4 4 = 4#4 ∧
      byte.getLsbD 2 = r ∧ byte.getLsbD 1 = x ∧ byte.getLsbD 0 = b := by
  subst h
  revert r x b
  decide

/-- The fields of the last byte before a VEX opcode (R32): bit 7, the inverted `vvvv`, L and pp. -/
theorem vex_fields (e l : Bool) (v : BitVec 4) (byte : Byte)
    (h : byte = bit e ++ (~~~v ++ (bit l ++ 1#2))) :
    byte.getLsbD 7 = e ∧ byte.extractLsb' 3 4 = ~~~v ∧ byte.getLsbD 2 = l ∧
      byte.extractLsb' 0 2 = 1#2 ∧ byte.getLsbD 6 = !v.getLsbD 3 := by
  subst h
  revert e l v
  decide

/-- The fields of the second byte of a three-byte VEX head (R32). -/
theorem vex3_fields (r x b : Bool) (byte : Byte) (h : byte = bit r ++ (bit x ++ (bit b ++ 1#5))) :
    byte.getLsbD 7 = r ∧ byte.getLsbD 6 = x ∧ byte.getLsbD 5 = b ∧ byte.extractLsb' 0 5 = 1#5 := by
  subst h
  revert r x b
  decide

/-- The fields of EVEX byte P0 (R33). -/
theorem evex_p0_fields (r x b r' : Bool) (byte : Byte)
    (h : byte = bit r ++ (bit x ++ (bit b ++ (bit r' ++ 1#4)))) :
    byte.getLsbD 7 = r ∧ byte.getLsbD 6 = x ∧ byte.getLsbD 5 = b ∧ byte.getLsbD 4 = r' ∧
      byte.extractLsb' 2 2 = 0#2 ∧ byte.extractLsb' 0 2 = 1#2 := by
  subst h
  revert r x b r'
  decide

/-- The fields of EVEX byte P1 (R33), with W = 0. -/
theorem evex_p1_fields (v : BitVec 4) (byte : Byte) (h : byte = bit false ++ (~~~v ++ 5#3)) :
    byte.getLsbD 7 = false ∧ byte.extractLsb' 3 4 = ~~~v ∧ byte.getLsbD 2 = true ∧
      byte.extractLsb' 0 2 = 1#2 ∧ byte.getLsbD 6 = !v.getLsbD 3 := by
  subst h
  revert v
  decide

/-- The fields of EVEX byte P2 (R33). -/
theorem evex_p2_fields (z bc v' : Bool) (ll : BitVec 2) (aaa : KReg) (byte : Byte)
    (h : byte = bit z ++ (ll ++ (bit bc ++ (bit v' ++ aaa)))) :
    byte.getLsbD 7 = z ∧ byte.extractLsb' 5 2 = ll ∧ byte.getLsbD 4 = bc ∧ byte.getLsbD 3 = v' ∧
      byte.extractLsb' 0 3 = aaa := by
  subst h
  revert z bc v' ll aaa
  decide

/-- The two top bits of a byte are 11 exactly where both are set (R49). -/
theorem topTwo_iff (byte : Byte) :
    byte.extractLsb' 6 2 = 3#2 ↔ byte.getLsbD 7 = true ∧ byte.getLsbD 6 = true := by
  revert byte
  decide

/-- A register number below 8 needs no extension bit (R49). -/
theorem vreg_below_eight {r : VReg} (h : r.toNat < 8) :
    r.getLsbD 3 = false ∧ r.getLsbD 4 = false ∧ (r.setWidth 4).getLsbD 3 = false := by
  revert r
  decide

/-- A register number is its top bit and the four bits of `vvvv` (R42). -/
theorem vvvv_self (r : VReg) : BitVec.cons (r.getLsbD 4) (r.setWidth 4) = r := by
  revert r
  decide

/-! ### The last operand -/

/-- The last operand as ModRM spells it. -/
def RegMemBcst.raw : RegMemBcst → RawRM
  | .reg r => .reg (r.setWidth 3)
  | .mem m | .bcst m => .mem m

/-- ModRM and what follows it are read back, given the operand's own extension bits (R40, R45). -/
theorem takeModRM_encode (src : RegMemBcst) (reg : BitVec 3) (rest : List Byte)
    (h : src.addrWf = true) :
    takeModRM src.extX src.extB (src.encode reg ++ rest) = .ok (reg, src.raw, rest) := by
  cases src with
  | reg r => exact takeModRM_reg _ _ reg r rest
  | mem m => exact takeModRM_mem reg m rest h
  | bcst m => exact takeModRM_mem reg m rest h

/-- A register number is assembled from the operand's own extension bits (R42). -/
theorem toRegMem_raw (src : RegMem) :
    src.toBcst.raw.toRegMem src.toBcst.extX src.toBcst.extB = src := by
  cases src with
  | reg r => exact congrArg RegMem.reg (vregOf_self r)
  | mem m => rfl

/-- A register the Legacy SSE and VEX formats number has no bit 4 (R42). -/
theorem toRegMem_raw_low16 {src : RegMem} (h : src.toBcst.low16 = true) :
    src.toBcst.raw.toRegMem false src.toBcst.extB = src := by
  cases src with
  | reg r =>
    have h4 : r.getLsbD 4 = false := by simpa [RegMem.toBcst, RegMemBcst.low16] using h
    exact congrArg RegMem.reg (h4 ▸ vregOf_self r)
  | mem m => rfl

/-- `EVEX.b` tells full-width memory from a broadcast (R38). -/
theorem toBcst_raw (src2 : RegMemBcst) :
    src2.raw.toBcst src2.extX src2.extB src2.isBcst = some src2 := by
  cases src2 with
  | reg r => exact congrArg (fun x => some (RegMemBcst.reg x)) (vregOf_self r)
  | mem m => rfl
  | bcst m => rfl

/-! ### What a term of a mode satisfies -/

theorem wellFormed_iff (c : Config) (i : Instr) :
    i.wellFormed c = true ↔
      i.regsInFile c = true ∧ i.src2.addrWf = true ∧ i.fitsFormat = true ∧
        (c.aw = .w32 → i.fits32 = true ∧ i.hasRex = false) := by
  unfold Instr.wellFormed
  cases c.aw <;> simp [and_assoc]

theorem fits32_iff (i : Instr) :
    i.fits32 = true ↔
      i.pfx.a32 = false ∧ i.dest.toNat < 8 ∧ i.src1.toNat < 8 ∧ i.src2.extB = false ∧
        i.src2.extX = false := by
  simp only [Instr.fits32, Bool.and_eq_true, Bool.not_eq_true', decide_eq_true_eq, and_assoc]

/-- NVREG = 32 is no limit on a register number of five bits (R3, R44). -/
theorem regsInFile_n32 (c : Config) (i : Instr) : i.regsInFile { c with nvreg := .n32 } = true := by
  have hreg (r : VReg) : VReg.inFile { c with nvreg := .n32 } r = true := decide_eq_true r.isLt
  unfold Instr.regsInFile RegMemBcst.inFile
  cases i.src2 <;> simp [hreg]

/-- A well-formed term is an encoding where NVREG is 32. -/
theorem wellFormed_n32 {c : Config} {i : Instr} (h : i.wellFormed c = true) :
    i.wellFormed { c with nvreg := .n32 } = true := by
  obtain ⟨-, haddr, hfit, hmode⟩ := (wellFormed_iff c i).1 h
  exact (wellFormed_iff _ i).2 ⟨regsInFile_n32 c i, haddr, hfit, hmode⟩

/-! ### Leading bytes -/

/-- Behind the leading bytes the decoder goes on at the first other byte. -/
theorem decode_pfx {c : Config} {p : Pfx} {b : Byte} (bs : List Byte)
    (h32 : c.aw = .w32 → p.a32 = false) (hb : pfxByte b = .other) :
    decode c (p.encode ++ b :: bs) = decodeMain c { pfx := p, op66 := false } b bs := by
  simp only [decode, scanPfx_encode c.aw p false (b :: bs) h32, scanPfx, hb]

/-- A `66` after them is noted (R31). -/
theorem decode_pfx_op66 {c : Config} {p : Pfx} {b : Byte} (bs : List Byte)
    (h32 : c.aw = .w32 → p.a32 = false) (hb : pfxByte b = .other) :
    decode c (p.encode ++ 0x66#8 :: b :: bs) = decodeMain c { pfx := p, op66 := true } b bs := by
  have h66 : pfxByte 0x66#8 = .op66 := rfl
  simp only [decode, scanPfx_encode c.aw p false (0x66#8 :: b :: bs) h32, scanPfx, h66, hb,
    Bool.false_eq_true, if_false]

/-! ### Format LEGACY -/

@[simp] theorem legacyInstr_src2 (op : PackOp) (p : Pfx) (rex : Bool) (d : VReg) (src : RegMem) :
    (legacyInstr op p rex d src).src2 = src.toBcst := by cases op <;> rfl

@[simp] theorem legacyInstr_pfx (op : PackOp) (p : Pfx) (rex : Bool) (d : VReg) (src : RegMem) :
    (legacyInstr op p rex d src).pfx = p := by cases op <;> rfl

@[simp] theorem legacyInstr_hasRex (op : PackOp) (p : Pfx) (rex : Bool) (d : VReg) (src : RegMem) :
    (legacyInstr op p rex d src).hasRex = rex := by cases op <;> rfl

/-- What the LEGACY format can spell (R31, R42). -/
theorem legacyInstr_fitsFormat_iff (op : PackOp) (p : Pfx) (rex : Bool) (d : VReg) (src : RegMem) :
    (legacyInstr op p rex d src).fitsFormat = true ↔
      d.getLsbD 4 = false ∧ src.toBcst.low16 = true ∧
        (rex = false → d.getLsbD 3 = false ∧ src.toBcst.extB = false ∧ src.toBcst.extX = false) := by
  cases op <;> cases rex <;> simp [legacyInstr, Instr.fitsFormat, and_assoc]

theorem encode_legacyInstr (op : PackOp) (p : Pfx) (rex : Bool) (d : VReg) (src : RegMem) :
    encode (legacyInstr op p rex d src) = encodeLegacy p rex op.byte d src.toBcst := by
  cases op <;> rfl

/-- After `0F`: the opcode and the operands are read back, given the extension bits of a REX byte or of
none. -/
theorem decodeLegacy_encode (c : Config) (op : PackOp) (p : Pfx) (rex : Option Byte) {d : VReg}
    {src : RegMem} (rest : List Byte) (haddr : src.toBcst.addrWf = true)
    (hd : d.getLsbD 4 = false) (hlow : src.toBcst.low16 = true)
    (hr : (rex.getD 0x40#8).getLsbD 2 = d.getLsbD 3)
    (hx : (rex.getD 0x40#8).getLsbD 1 = src.toBcst.extX)
    (hb : (rex.getD 0x40#8).getLsbD 0 = src.toBcst.extB) :
    decodeLegacy c { pfx := p, op66 := true } rex
        (op.byte :: src.toBcst.encode (d.setWidth 3) ++ rest) =
      finish c (legacyInstr op p rex.isSome d src) rest := by
  have hdest : vregOf false (d.getLsbD 3) (d.setWidth 3) = d := hd ▸ vregOf_self d
  simp only [decodeLegacy, List.cons_append, packOp_byte, Bool.not_true, Bool.false_eq_true,
    if_false, hr, hx, hb, takeModRM_encode _ _ rest haddr, hdest, toRegMem_raw_low16 hlow]

theorem decode_encode_legacy {c : Config} {op : PackOp} {p : Pfx} {rex : Bool} {d : VReg}
    {src : RegMem} (rest : List Byte)
    (h : (legacyInstr op p rex d src).wellFormed { c with nvreg := .n32 } = true) :
    decode c (encode (legacyInstr op p rex d src) ++ rest) =
      finish c (legacyInstr op p rex d src) rest := by
  obtain ⟨-, haddr, hfit, hmode⟩ := (wellFormed_iff _ _).1 h
  obtain ⟨hd, hlow, hext⟩ := (legacyInstr_fitsFormat_iff op p rex d src).1 hfit
  rw [legacyInstr_src2] at haddr
  have h32 : c.aw = .w32 → p.a32 = false := fun hc => by
    simpa using ((fits32_iff _).1 (hmode hc).1).1
  rw [encode_legacyInstr, encodeLegacy]
  cases rex with
  | false =>
    obtain ⟨hd3, hextB, hextX⟩ := hext rfl
    have hbody := decodeLegacy_encode c op p none rest haddr hd hlow hd3.symm hextX.symm hextB.symm
    simp only [Bool.false_eq_true, if_false, List.append_nil, List.append_assoc, List.cons_append,
      List.nil_append]
    rw [decode_pfx_op66 _ h32 rfl, decodeMain, if_pos rfl]
    exact hbody
  | true =>
    have h64 : c.aw = .w64 := by
      cases hc : c.aw with
      | w64 => rfl
      | w32 => simpa using (hmode hc).2
    obtain ⟨hother, hesc, hrex, hr, hx, hb⟩ :=
      rex_fields (d.getLsbD 3) src.toBcst.extX src.toBcst.extB _ rfl
    have hbody := decodeLegacy_encode c op p (some _) rest haddr hd hlow hr hx hb
    simp only [if_true, List.append_assoc, List.cons_append, List.nil_append]
    rw [decode_pfx_op66 _ h32 hother, decodeMain, if_neg hesc, if_pos ⟨h64, hrex⟩]
    exact hbody

/-! ### Format VEX -/

@[simp] theorem vexInstr_src2 (op : PackOp) (l : Bool) (p : Pfx) (vex3 : Bool) (d s1 : VReg)
    (src2 : RegMem) : (vexInstr op l p vex3 d s1 src2).src2 = src2.toBcst := by
  cases op <;> cases l <;> rfl

@[simp] theorem vexInstr_pfx (op : PackOp) (l : Bool) (p : Pfx) (vex3 : Bool) (d s1 : VReg)
    (src2 : RegMem) : (vexInstr op l p vex3 d s1 src2).pfx = p := by cases op <;> cases l <;> rfl

@[simp] theorem vexInstr_dest (op : PackOp) (l : Bool) (p : Pfx) (vex3 : Bool) (d s1 : VReg)
    (src2 : RegMem) : (vexInstr op l p vex3 d s1 src2).dest = d := by cases op <;> cases l <;> rfl

@[simp] theorem vexInstr_src1 (op : PackOp) (l : Bool) (p : Pfx) (vex3 : Bool) (d s1 : VReg)
    (src2 : RegMem) : (vexInstr op l p vex3 d s1 src2).src1 = s1 := by cases op <;> cases l <;> rfl

@[simp] theorem vexInstr_hasRex (op : PackOp) (l : Bool) (p : Pfx) (vex3 : Bool) (d s1 : VReg)
    (src2 : RegMem) : (vexInstr op l p vex3 d s1 src2).hasRex = false := by
  cases op <;> cases l <;> rfl

/-- What the VEX format can spell (R32, R42). -/
theorem vexInstr_fitsFormat_iff (op : PackOp) (l : Bool) (p : Pfx) (vex3 : Bool) (d s1 : VReg)
    (src2 : RegMem) :
    (vexInstr op l p vex3 d s1 src2).fitsFormat = true ↔
      d.getLsbD 4 = false ∧ s1.getLsbD 4 = false ∧ src2.toBcst.low16 = true ∧
        (vex3 = false → src2.toBcst.extB = false ∧ src2.toBcst.extX = false) := by
  cases op <;> cases l <;> cases vex3 <;> simp [vexInstr, Instr.fitsFormat, and_assoc]

theorem encode_vexInstr (op : PackOp) (l : Bool) (p : Pfx) (vex3 : Bool) (d s1 : VReg)
    (src2 : RegMem) :
    encode (vexInstr op l p vex3 d s1 src2) = encodeVex p vex3 l op.byte d s1 src2.toBcst := by
  cases op <;> cases l <;> rfl

/-- After the head: the opcode and the operands are read back from the true extension bits and `vvvv`. -/
theorem decodeVexBody_encode (c : Config) (op : PackOp) (l : Bool) (p : Pfx) (vex3 : Bool)
    {d s1 : VReg} {src2 : RegMem} (rest : List Byte) (haddr : src2.toBcst.addrWf = true)
    (hd : d.getLsbD 4 = false) (hs1 : s1.getLsbD 4 = false) (hlow : src2.toBcst.low16 = true) :
    decodeVexBody c p vex3 (d.getLsbD 3) src2.toBcst.extX src2.toBcst.extB (s1.setWidth 4) l 1#2
        (op.byte :: (src2.toBcst.encode (d.setWidth 3) ++ rest)) =
      finish c (vexInstr op l p vex3 d s1 src2) rest := by
  have hdest : vregOf false (d.getLsbD 3) (d.setWidth 3) = d := hd ▸ vregOf_self d
  have hsrc1 : BitVec.cons false (s1.setWidth 4) = s1 := hs1 ▸ vvvv_self s1
  simp only [decodeVexBody, packOp_byte, ne_eq, not_true_eq_false, if_false,
    takeModRM_encode _ _ rest haddr, hdest, hsrc1, toRegMem_raw_low16 hlow]

/-- Behind no `66` the three first bytes of a head are told apart (R30, R48). -/
theorem decodeMain_vex2 (c : Config) (p : Pfx) (bs : List Byte) :
    decodeMain c { pfx := p, op66 := false } 0xC5#8 bs = decodeVex2 c p bs := by simp [decodeMain]

theorem decodeMain_vex3 (c : Config) (p : Pfx) (bs : List Byte) :
    decodeMain c { pfx := p, op66 := false } 0xC4#8 bs = decodeVex3 c p bs := by simp [decodeMain]

theorem decodeMain_evex (c : Config) (p : Pfx) (bs : List Byte) :
    decodeMain c { pfx := p, op66 := false } 0x62#8 bs = decodeEvex c p bs := by simp [decodeMain]

/-- The two-byte VEX head is read back; in 32-bit mode its inverted bits must be 1 (R32, R49). -/
theorem decodeVex2_encode {c : Config} {p : Pfx} {r l : Bool} {v : BitVec 4} (bs : List Byte)
    (h32 : c.aw = .w32 → r = false ∧ v.getLsbD 3 = false) :
    decodeVex2 c p ((bit (!r) ++ (~~~v ++ (bit l ++ 1#2))) :: bs) =
      decodeVexBody c p false r false false v l 1#2 bs := by
  obtain ⟨hr, hv, hl, hpp, h6⟩ := vex_fields (!r) l v _ rfl
  have hmode : ¬(c.aw = .w32 ∧ (bit (!r) ++ (~~~v ++ (bit l ++ 1#2)) : Byte).extractLsb' 6 2 ≠ 3#2) := by
    rintro ⟨hc, htop⟩
    obtain ⟨rfl, hv3⟩ := h32 hc
    exact htop ((topTwo_iff _).2 ⟨hr, by rw [h6, hv3, Bool.not_false]⟩)
  rw [decodeVex2, if_neg hmode, hr, hv, hl, hpp, Bool.not_not, BitVec.not_not]

/-- The three-byte VEX head is read back; in 32-bit mode its inverted bits must be 1 (R32, R49). -/
theorem decodeVex3_encode {c : Config} {p : Pfx} {r x b l : Bool} {v : BitVec 4} (bs : List Byte)
    (h32 : c.aw = .w32 → r = false ∧ x = false ∧ b = false ∧ v.getLsbD 3 = false) :
    decodeVex3 c p ((bit (!r) ++ (bit (!x) ++ (bit (!b) ++ 1#5))) ::
        (bit false ++ (~~~v ++ (bit l ++ 1#2))) :: bs) =
      decodeVexBody c p true r x b v l 1#2 bs := by
  obtain ⟨hr, hx, hb, hmap⟩ := vex3_fields (!r) (!x) (!b) _ rfl
  obtain ⟨-, hv, hl, hpp, h6⟩ := vex_fields false l v _ rfl
  have htop : ¬(c.aw = .w32 ∧
      (bit (!r) ++ (bit (!x) ++ (bit (!b) ++ 1#5)) : Byte).extractLsb' 6 2 ≠ 3#2) := by
    rintro ⟨hc, htop⟩
    obtain ⟨rfl, rfl, -⟩ := h32 hc
    exact htop ((topTwo_iff _).2 ⟨hr, hx⟩)
  have hext : ¬(c.aw = .w32 ∧
      ((bit (!r) ++ (bit (!x) ++ (bit (!b) ++ 1#5)) : Byte).getLsbD 5 = false ∨
        (bit false ++ (~~~v ++ (bit l ++ 1#2)) : Byte).getLsbD 6 = false)) := by
    rintro ⟨hc, hext⟩
    obtain ⟨-, -, rfl, hv3⟩ := h32 hc
    rw [hb, h6, hv3] at hext
    simp at hext
  rw [decodeVex3, if_neg htop, if_neg hext, if_neg (not_not.2 hmap), hr, hx, hb, hv, hl, hpp,
    Bool.not_not, Bool.not_not, Bool.not_not, BitVec.not_not]

theorem decode_encode_vex {c : Config} {op : PackOp} {l : Bool} {p : Pfx} {vex3 : Bool}
    {d s1 : VReg} {src2 : RegMem} (rest : List Byte)
    (h : (vexInstr op l p vex3 d s1 src2).wellFormed { c with nvreg := .n32 } = true) :
    decode c (encode (vexInstr op l p vex3 d s1 src2) ++ rest) =
      finish c (vexInstr op l p vex3 d s1 src2) rest := by
  obtain ⟨-, haddr, hfit, hmode⟩ := (wellFormed_iff _ _).1 h
  obtain ⟨hd, hs1, hlow, hext⟩ := (vexInstr_fitsFormat_iff op l p vex3 d s1 src2).1 hfit
  rw [vexInstr_src2] at haddr
  have h32 : c.aw = .w32 → p.a32 = false ∧ d.getLsbD 3 = false ∧ (s1.setWidth 4).getLsbD 3 = false ∧
      src2.toBcst.extB = false ∧ src2.toBcst.extX = false := fun hc => by
    obtain ⟨ha32, hdest, hsrc1, hextB, hextX⟩ := (fits32_iff _).1 (hmode hc).1
    rw [vexInstr_pfx] at ha32
    rw [vexInstr_dest] at hdest
    rw [vexInstr_src1] at hsrc1
    rw [vexInstr_src2] at hextB hextX
    exact ⟨ha32, (vreg_below_eight hdest).1, (vreg_below_eight hsrc1).2.2, hextB, hextX⟩
  have hbody := decodeVexBody_encode c op l p vex3 rest haddr hd hs1 hlow
  rw [encode_vexInstr, encodeVex]
  cases vex3 with
  | false =>
    obtain ⟨hextB, hextX⟩ := hext rfl
    rw [hextX, hextB] at hbody
    simp only [Bool.false_eq_true, if_false, List.append_assoc, List.cons_append, List.nil_append]
    rw [decode_pfx _ (fun hc => (h32 hc).1) rfl, decodeMain_vex2,
      decodeVex2_encode _ fun hc => ⟨(h32 hc).2.1, (h32 hc).2.2.1⟩]
    exact hbody
  | true =>
    simp only [if_true, List.append_assoc, List.cons_append, List.nil_append]
    rw [decode_pfx _ (fun hc => (h32 hc).1) rfl, decodeMain_vex3,
      decodeVex3_encode _ fun hc => by
        obtain ⟨-, hr, hv, hb, hx⟩ := h32 hc
        exact ⟨hr, hx, hb, hv⟩]
    exact hbody

/-! ### Format EVEX -/

/-- What the two families of EVEX instructions share: the operands, and a mask that is not k0 (R39). -/
structure EvexTerm (i : Instr) (p : Pfx) (wm : Writemask) (d s1 : VReg) (src2 : RegMemBcst) : Prop where
  pfx : i.pfx = p
  dest : i.dest = d
  src1 : i.src1 = s1
  src2 : i.src2 = src2
  hasRex : i.hasRex = false
  mask : i.fitsFormat = true ↔ ∀ k, wm = .merging k ∨ wm = .zeroing k → k ≠ 0#3
  headLen : i.headLen = 5

theorem evexWb_term (vl : VecLen) (p : Pfx) (wm : Writemask) (d s1 : VReg) (src2 : RegMem) :
    EvexTerm (evexWb vl p wm d s1 src2) p wm d s1 src2.toBcst where
  pfx := by cases vl <;> rfl
  dest := by cases vl <;> rfl
  src1 := by cases vl <;> rfl
  src2 := by cases vl <;> rfl
  hasRex := by cases vl <;> rfl
  mask := by cases vl <;> cases wm <;> simp [evexWb, Instr.fitsFormat]
  headLen := by cases vl <;> rfl

theorem evexDw_term (vl : VecLen) (p : Pfx) (wm : Writemask) (d s1 : VReg) (src2 : RegMemBcst) :
    EvexTerm (evexDw vl p wm d s1 src2) p wm d s1 src2 where
  pfx := by cases vl <;> rfl
  dest := by cases vl <;> rfl
  src1 := by cases vl <;> rfl
  src2 := by cases vl <;> rfl
  hasRex := by cases vl <;> rfl
  mask := by cases vl <;> cases wm <;> simp [evexDw, Instr.fitsFormat]
  headLen := by cases vl <;> rfl

theorem encode_evexWb (vl : VecLen) (p : Pfx) (wm : Writemask) (d s1 : VReg) (src2 : RegMem) :
    encode (evexWb vl p wm d s1 src2) =
      encodeEvex p vl.ll PackOp.wb.byte wm d s1 src2.toBcst := by cases vl <;> rfl

theorem encode_evexDw (vl : VecLen) (p : Pfx) (wm : Writemask) (d s1 : VReg) (src2 : RegMemBcst) :
    encode (evexDw vl p wm d s1 src2) = encodeEvex p vl.ll PackOp.dw.byte wm d s1 src2 := by
  cases vl <;> rfl

/-- The EVEX instruction of an operation is assembled from the fields of its own encoding (R43). -/
theorem evexInstr_wb (vl : VecLen) (p : Pfx) (wm : Writemask) (d s1 : VReg) (src2 : RegMem) :
    evexInstr .wb vl false src2.toBcst.isBcst p wm d s1 src2.toBcst.extX src2.toBcst.extB
      src2.toBcst.raw = .ok (evexWb vl p wm d s1 src2) := by
  have hb : src2.toBcst.isBcst = false := by cases src2 <;> rfl
  simp only [evexInstr, hb, toRegMem_raw, Bool.false_eq_true, if_false]

theorem evexInstr_dw (vl : VecLen) (p : Pfx) (wm : Writemask) (d s1 : VReg) (src2 : RegMemBcst) :
    evexInstr .dw vl false src2.isBcst p wm d s1 src2.extX src2.extB src2.raw =
      .ok (evexDw vl p wm d s1 src2) := by
  simp only [evexInstr, toBcst_raw, Bool.false_eq_true, if_false]

/-- The EVEX bytes are read back as the instruction their fields assemble (R33, R38, R39). -/
theorem decode_encodeEvex {c : Config} {op : PackOp} {vl : VecLen} {i : Instr} {p : Pfx}
    {wm : Writemask} {d s1 : VReg} {src2 : RegMemBcst} (rest : List Byte)
    (hterm : EvexTerm i p wm d s1 src2)
    (hinstr : evexInstr op vl false src2.isBcst p wm d s1 src2.extX src2.extB src2.raw = .ok i)
    (h : i.wellFormed { c with nvreg := .n32 } = true) :
    decode c (encodeEvex p vl.ll op.byte wm d s1 src2 ++ rest) = finish c i rest := by
  obtain ⟨-, haddr, hfit, hmode⟩ := (wellFormed_iff _ _).1 h
  rw [hterm.src2] at haddr
  have h32 : c.aw = .w32 → p.a32 = false ∧ d.toNat < 8 ∧ s1.toNat < 8 ∧ src2.extB = false ∧
      src2.extX = false := fun hc => by
    have := (fits32_iff _).1 (hmode hc).1
    rwa [hterm.pfx, hterm.dest, hterm.src1, hterm.src2] at this
  obtain ⟨h07, h06, h05, h04, h0res, h0map⟩ :=
    evex_p0_fields (!d.getLsbD 3) (!src2.extX) (!src2.extB) (!d.getLsbD 4) _ rfl
  obtain ⟨h17, h1v, h1res, h1pp, h16⟩ := evex_p1_fields (s1.setWidth 4) _ rfl
  obtain ⟨h2z, h2ll, h2b, h2v, h2k⟩ :=
    evex_p2_fields wm.z src2.isBcst (!s1.getLsbD 4) vl.ll wm.aaa _ rfl
  simp only [encodeEvex, List.append_assoc, List.cons_append, List.nil_append]
  rw [decode_pfx _ (fun hc => (h32 hc).1) rfl, decodeMain_evex]
  generalize (bit (!d.getLsbD 3) ++
      (bit (!src2.extX) ++ (bit (!src2.extB) ++ (bit (!d.getLsbD 4) ++ 1#4))) : Byte) = p0 at *
  generalize (bit false ++ (~~~(s1.setWidth 4) ++ 5#3) : Byte) = p1 at *
  generalize (bit wm.z ++ (vl.ll ++ (bit src2.isBcst ++ (bit (!s1.getLsbD 4) ++ wm.aaa))) : Byte) =
    p2 at *
  have htop : ¬(c.aw = .w32 ∧ p0.extractLsb' 6 2 ≠ 3#2) := by
    rintro ⟨hc, htop⟩
    obtain ⟨-, hd, -, -, hx⟩ := h32 hc
    exact htop ((topTwo_iff _).2 ⟨by rw [h07, (vreg_below_eight hd).1, Bool.not_false],
      by rw [h06, hx, Bool.not_false]⟩)
  have hext : ¬(c.aw = .w32 ∧ (p0.getLsbD 5 = false ∨ p0.getLsbD 4 = false ∨ p1.getLsbD 6 = false ∨
      p2.getLsbD 3 = false)) := by
    rintro ⟨hc, hext⟩
    obtain ⟨-, hd, hs1, hb, -⟩ := h32 hc
    obtain ⟨-, hs14, hs13⟩ := vreg_below_eight hs1
    rw [h05, h04, h16, h2v, hb, (vreg_below_eight hd).2.1, hs14, hs13] at hext
    simp at hext
  rw [decodeEvex, if_neg htop, if_neg hext, if_neg (by simp [h0res, h1res]),
    if_neg (not_not.2 h0map), if_neg (not_not.2 h1pp)]
  simp only [decodeEvexBody, packOp_byte, h2ll, evexVl_ll, h2z, h2k, evexMask_self (hterm.mask.1 hfit),
    h06, h05, h04, h07, h17, h2b, h1v, h2v, Bool.not_not, BitVec.not_not, takeModRM_encode _ _ rest haddr,
    vregOf_self, vvvv_self, hinstr]

theorem decode_encode_evexWb {c : Config} {vl : VecLen} {p : Pfx} {wm : Writemask} {d s1 : VReg}
    {src2 : RegMem} (rest : List Byte)
    (h : (evexWb vl p wm d s1 src2).wellFormed { c with nvreg := .n32 } = true) :
    decode c (encode (evexWb vl p wm d s1 src2) ++ rest) = finish c (evexWb vl p wm d s1 src2) rest := by
  rw [encode_evexWb]
  exact decode_encodeEvex rest (evexWb_term ..) (evexInstr_wb ..) h

theorem decode_encode_evexDw {c : Config} {vl : VecLen} {p : Pfx} {wm : Writemask} {d s1 : VReg}
    {src2 : RegMemBcst} (rest : List Byte)
    (h : (evexDw vl p wm d s1 src2).wellFormed { c with nvreg := .n32 } = true) :
    decode c (encode (evexDw vl p wm d s1 src2) ++ rest) = finish c (evexDw vl p wm d s1 src2) rest := by
  rw [encode_evexDw]
  exact decode_encodeEvex rest (evexDw_term ..) (evexInstr_dw ..) h

/-! ### All twelve forms -/

/-- The decoder reads back an instruction from its encoding, up to its last check (R30, R44). -/
theorem decode_encode {c : Config} {i : Instr} (rest : List Byte)
    (h : i.wellFormed { c with nvreg := .n32 } = true) :
    decode c (encode i ++ rest) = finish c i rest := by
  cases i with
  | packsswbSse128 p rex d src => exact decode_encode_legacy (op := .wb) rest h
  | packssdwSse128 p rex d src => exact decode_encode_legacy (op := .dw) rest h
  | vpacksswbVex128 p vex3 d s1 src2 => exact decode_encode_vex (op := .wb) (l := false) rest h
  | vpackssdwVex128 p vex3 d s1 src2 => exact decode_encode_vex (op := .dw) (l := false) rest h
  | vpacksswbVex256 p vex3 d s1 src2 => exact decode_encode_vex (op := .wb) (l := true) rest h
  | vpackssdwVex256 p vex3 d s1 src2 => exact decode_encode_vex (op := .dw) (l := true) rest h
  | vpacksswbEvex128 p wm d s1 src2 => exact decode_encode_evexWb (vl := .v128) rest h
  | vpacksswbEvex256 p wm d s1 src2 => exact decode_encode_evexWb (vl := .v256) rest h
  | vpacksswbEvex512 p wm d s1 src2 => exact decode_encode_evexWb (vl := .v512) rest h
  | vpackssdwEvex128 p wm d s1 src2 => exact decode_encode_evexDw (vl := .v128) rest h
  | vpackssdwEvex256 p wm d s1 src2 => exact decode_encode_evexDw (vl := .v256) rest h
  | vpackssdwEvex512 p wm d s1 src2 => exact decode_encode_evexDw (vl := .v512) rest h

end Sys2Proof
end

section
/-! SUPPORT. All the decoder can answer: the term is well-formed, and the bytes consumed are its length
(spec/30_encoding.md R30 to R49). -/

namespace Sys2Proof

/-! ### The last operand -/

theorem vregOf_fields (x b : Bool) (f : BitVec 3) :
    (vregOf x b f).getLsbD 4 = x ∧ (vregOf x b f).getLsbD 3 = b := by
  revert x b f
  decide

/-- A register number without extension bits is below 8 (R42, R49). -/
theorem vreg_lt_eight {r : VReg} (h3 : r.getLsbD 3 = false) (h4 : r.getLsbD 4 = false) :
    r.toNat < 8 := by
  revert r
  decide

/-- The fields of a register number given by `vvvv` (R42). -/
theorem vvvv_fields (e : Bool) (v : BitVec 4) :
    (BitVec.cons e v : VReg).getLsbD 4 = e ∧ (BitVec.cons e v : VReg).getLsbD 3 = v.getLsbD 3 := by
  revert e v
  decide

/-- A decoded last operand is encodable, needs no extension bit that is not there, and has `n` bytes after
ModRM. -/
structure OperandOk (x b : Bool) (n : Nat) (src : RegMemBcst) : Prop where
  addrWf : src.addrWf = true
  extB : src.extB = true → b = true
  extX : src.extX = true → x = true
  len : src.len = n

theorem OperandOk.no_ext {n : Nat} {src : RegMemBcst} (h : OperandOk false false n src) :
    src.extB = false ∧ src.extX = false :=
  ⟨Bool.eq_false_iff.2 fun e => Bool.false_ne_true (h.extB e),
    Bool.eq_false_iff.2 fun e => Bool.false_ne_true (h.extX e)⟩

theorem RawRM.Ok.operand {x b : Bool} {m : AddrMode} {src : RegMemBcst}
    (hm : RawRM.Ok x b (.mem m)) (h : src = .mem m ∨ src = .bcst m) : OperandOk x b m.len src := by
  obtain ⟨hwf, hextB, hextX⟩ := hm
  rcases h with rfl | rfl <;> exact ⟨hwf, hextB, hextX, rfl⟩

theorem operandOk_reg {x x' b : Bool} (f : BitVec 3) (hx : x' = true → x = true) :
    OperandOk x b 0 (.reg (vregOf x' b f)) where
  addrWf := rfl
  extB h := (vregOf_fields x' b f).2.symm.trans h
  extX h := hx ((vregOf_fields x' b f).1.symm.trans h)
  len := rfl

theorem RawRM.Ok.toRegMem {x x' b : Bool} {rm : RawRM} (h : rm.Ok x b) (hx : x' = true → x = true) :
    OperandOk x b rm.len (rm.toRegMem x' b).toBcst := by
  cases rm with
  | reg f => exact operandOk_reg f hx
  | mem m => exact h.operand (.inl rfl)

theorem RawRM.Ok.toBcst {x b bc : Bool} {rm : RawRM} {src : RegMemBcst} (h : rm.Ok x b)
    (hsrc : rm.toBcst x b bc = some src) : OperandOk x b rm.len src := by
  cases rm with
  | reg f =>
    cases bc <;> cases hsrc
    exact operandOk_reg f id
  | mem m => cases bc <;> cases hsrc <;> exact h.operand (by simp)

theorem toRegMem_low16 (b : Bool) (rm : RawRM) : (rm.toRegMem false b).toBcst.low16 = true := by
  cases rm with
  | reg f => exact congrArg Bool.not (vregOf_fields false b f).1
  | mem m => rfl

/-! ### One format after another -/

/-- What a decoded instruction satisfies behind its leading bytes `p`; `n` counts the bytes from its
format's own head on. -/
structure BodyOk (c : Config) (p : Pfx) (n : Nat) (i : Instr) : Prop where
  pfx : i.pfx = p
  regs : i.regsInFile c = true
  addr : i.src2.addrWf = true
  format : i.fitsFormat = true
  mode : c.aw = .w32 → i.dest.toNat < 8 ∧ i.src1.toNat < 8 ∧ i.src2.extB = false ∧
    i.src2.extX = false ∧ i.hasRex = false
  len : i.headLen + 1 + i.src2.len = n

theorem legacyInstr_dest (op : PackOp) (p : Pfx) (rex : Bool) (d : VReg) (src : RegMem) :
    (legacyInstr op p rex d src).dest = d ∧ (legacyInstr op p rex d src).src1 = d := by
  cases op <;> exact ⟨rfl, rfl⟩

theorem legacyInstr_headLen (op : PackOp) (p : Pfx) (rex : Bool) (d : VReg) (src : RegMem) :
    (legacyInstr op p rex d src).headLen = 3 + (if rex then 1 else 0) := by cases op <;> rfl

theorem vexInstr_headLen (op : PackOp) (l : Bool) (p : Pfx) (vex3 : Bool) (d s1 : VReg)
    (src2 : RegMem) :
    (vexInstr op l p vex3 d s1 src2).headLen = 3 + (if vex3 then 1 else 0) := by
  cases op <;> cases l <;> rfl

theorem bodyOk_legacy {c : Config} {op : PackOp} {p : Pfx} {rex x b : Bool} {d : VReg} {src : RegMem}
    {n : Nat} (hregs : (legacyInstr op p rex d src).regsInFile c = true)
    (hsrc : OperandOk x b n src.toBcst) (hlow : src.toBcst.low16 = true) (hd : d.getLsbD 4 = false)
    (hext : rex = false → d.getLsbD 3 = false ∧ x = false ∧ b = false)
    (h32 : c.aw = .w32 → rex = false) :
    BodyOk c p (3 + (if rex then 1 else 0) + 1 + n) (legacyInstr op p rex d src) := by
  have hno : rex = false → d.getLsbD 3 = false ∧ src.toBcst.extB = false ∧ src.toBcst.extX = false := by
    intro hr
    obtain ⟨hd3, rfl, rfl⟩ := hext hr
    exact ⟨hd3, hsrc.no_ext⟩
  obtain ⟨hdest, hsrc1⟩ := legacyInstr_dest op p rex d src
  constructor
  case pfx => exact legacyInstr_pfx ..
  case regs => exact hregs
  case addr => exact legacyInstr_src2 op p rex d src ▸ hsrc.addrWf
  case format => exact (legacyInstr_fitsFormat_iff ..).2 ⟨hd, hlow, hno⟩
  case mode =>
    intro hc
    obtain ⟨hd3, hnoExt⟩ := hno (h32 hc)
    rw [hdest, hsrc1, legacyInstr_src2, legacyInstr_hasRex]
    exact ⟨vreg_lt_eight hd3 hd, vreg_lt_eight hd3 hd, hnoExt.1, hnoExt.2, h32 hc⟩
  case len => rw [legacyInstr_headLen, legacyInstr_src2, hsrc.len]

theorem bodyOk_vex {c : Config} {op : PackOp} {l : Bool} {p : Pfx} {vex3 x b : Bool} {d s1 : VReg}
    {src2 : RegMem} {n : Nat} (hregs : (vexInstr op l p vex3 d s1 src2).regsInFile c = true)
    (hsrc : OperandOk x b n src2.toBcst) (hlow : src2.toBcst.low16 = true)
    (hd : d.getLsbD 4 = false) (hs1 : s1.getLsbD 4 = false)
    (hext : vex3 = false → x = false ∧ b = false)
    (h32 : c.aw = .w32 → d.getLsbD 3 = false ∧ s1.getLsbD 3 = false ∧ x = false ∧ b = false) :
    BodyOk c p (3 + (if vex3 then 1 else 0) + 1 + n) (vexInstr op l p vex3 d s1 src2) := by
  constructor
  case pfx => exact vexInstr_pfx ..
  case regs => exact hregs
  case addr => exact vexInstr_src2 op l p vex3 d s1 src2 ▸ hsrc.addrWf
  case format =>
    refine (vexInstr_fitsFormat_iff ..).2 ⟨hd, hs1, hlow, fun hv => ?_⟩
    obtain ⟨rfl, rfl⟩ := hext hv
    exact hsrc.no_ext
  case mode =>
    intro hc
    obtain ⟨hd3, hs13, rfl, rfl⟩ := h32 hc
    obtain ⟨hextB, hextX⟩ := hsrc.no_ext
    rw [vexInstr_dest, vexInstr_src1, vexInstr_src2, vexInstr_hasRex]
    exact ⟨vreg_lt_eight hd3 hd, vreg_lt_eight hs13 hs1, hextB, hextX, rfl⟩
  case len => rw [vexInstr_headLen, vexInstr_src2, hsrc.len]

theorem bodyOk_evex {c : Config} {i : Instr} {p : Pfx} {wm : Writemask} {d s1 : VReg}
    {src2 : RegMemBcst} {x b : Bool} {n : Nat} (hterm : EvexTerm i p wm d s1 src2)
    (hregs : i.regsInFile c = true) (hsrc : OperandOk x b n src2)
    (hmask : ∀ k, wm = .merging k ∨ wm = .zeroing k → k ≠ 0#3)
    (h32 : c.aw = .w32 → d.toNat < 8 ∧ s1.toNat < 8 ∧ x = false ∧ b = false) :
    BodyOk c p (6 + n) i := by
  constructor
  case pfx => exact hterm.pfx
  case regs => exact hregs
  case addr => exact hterm.src2 ▸ hsrc.addrWf
  case format => exact hterm.mask.2 hmask
  case mode =>
    intro hc
    obtain ⟨hd, hs1, rfl, rfl⟩ := h32 hc
    obtain ⟨hextB, hextX⟩ := hsrc.no_ext
    rw [hterm.dest, hterm.src1, hterm.src2]
    exact ⟨hd, hs1, hextB, hextX, hterm.hasRex⟩
  case len => rw [hterm.headLen, hterm.src2, hsrc.len]

/-- All the LEGACY format can answer: a `66` was there, and the extension bits are those of the REX byte
(R31, R42, R48). -/
theorem decodeLegacy_ok {c : Config} {acc : PfxAcc} {rex : Option Byte} {bs : List Byte} {i : Instr}
    {rest : List Byte} (h : decodeLegacy c acc rex bs = .ok (i, rest))
    (h32 : c.aw = .w32 → rex = none) :
    ∃ u, bs = u ++ rest ∧ acc.op66 = true ∧
      BodyOk c acc.pfx (u.length + 2 + (if rex.isSome then 1 else 0)) i := by
  unfold decodeLegacy at h
  split at h
  case h_1 => cases h
  next op bs =>
  split at h
  case h_1 => cases h
  next pk hop =>
  split at h
  case isTrue => cases h
  next h66 =>
  simp only at h
  split at h
  case h_1 => cases h
  next reg rm bs' hrm =>
  obtain ⟨rfl, rfl, hregs⟩ := finish_ok h
  obtain ⟨u, rfl, hu, hok⟩ := takeModRM_ok hrm
  refine ⟨op :: u, rfl, by simpa using h66, ?_⟩
  have hbody := bodyOk_legacy hregs (hok.toRegMem (by simp)) (toRegMem_low16 _ rm)
    (vregOf_fields ..).1 (fun hr => by
      have hnone : rex = none := by simpa using hr
      subst hnone
      exact ⟨(vregOf_fields ..).2, rfl, rfl⟩) (fun hc => by simp [h32 hc])
  convert hbody using 1
  simp only [List.length_cons, hu]
  omega

/-- All the VEX format can answer behind its head (R32, R42). -/
theorem decodeVexBody_ok {c : Config} {p : Pfx} {vex3 r x b l : Bool} {v : BitVec 4} {pp : BitVec 2}
    {bs : List Byte} {i : Instr} {rest : List Byte}
    (h : decodeVexBody c p vex3 r x b v l pp bs = .ok (i, rest))
    (hext : vex3 = false → x = false ∧ b = false)
    (h32 : c.aw = .w32 → r = false ∧ v.getLsbD 3 = false ∧ x = false ∧ b = false) :
    ∃ u, bs = u ++ rest ∧ pp = 1#2 ∧
      BodyOk c p (u.length + 2 + (if vex3 then 1 else 0)) i := by
  unfold decodeVexBody at h
  split at h
  case h_1 => cases h
  next op bs =>
  split at h
  case h_1 => cases h
  next pk hop =>
  split at h
  case isTrue => cases h
  next hpp =>
  split at h
  case h_1 => cases h
  next reg rm bs' hrm =>
  obtain ⟨rfl, rfl, hregs⟩ := finish_ok h
  obtain ⟨u, rfl, hu, hok⟩ := takeModRM_ok hrm
  refine ⟨op :: u, rfl, not_not.1 hpp, ?_⟩
  have hbody := bodyOk_vex hregs (hok.toRegMem (by simp)) (toRegMem_low16 _ rm)
    (vregOf_fields ..).1 (vvvv_fields ..).1 hext (fun hc => by
      obtain ⟨hr, hv, hx, hb⟩ := h32 hc
      exact ⟨(vregOf_fields ..).2.trans hr, (vvvv_fields ..).2.trans hv, hx, hb⟩)
  convert hbody using 1
  simp only [List.length_cons, hu]
  omega

/-- The inverted `vvvv` has top bit 0 where bit 6 of its byte is 1. -/
theorem vvvv_top (byte : Byte) : (~~~(byte.extractLsb' 3 4)).getLsbD 3 = !byte.getLsbD 6 := by
  revert byte
  decide

theorem decodeVex2_ok {c : Config} {p : Pfx} {bs : List Byte} {i : Instr} {rest : List Byte}
    (h : decodeVex2 c p bs = .ok (i, rest)) :
    ∃ u, bs = u ++ rest ∧ BodyOk c p (u.length + 1) i := by
  unfold decodeVex2 at h
  split at h
  case h_1 => cases h
  next v1 bs =>
  split at h
  case isTrue => cases h
  next htop =>
  obtain ⟨u, rfl, -, hbody⟩ := decodeVexBody_ok h (fun _ => ⟨rfl, rfl⟩) (fun hc => by
    obtain ⟨h7, h6⟩ := (topTwo_iff v1).1 (not_not.1 fun hne => htop ⟨hc, hne⟩)
    rw [h7, vvvv_top, h6]
    exact ⟨rfl, rfl, rfl, rfl⟩)
  exact ⟨v1 :: u, rfl, hbody⟩

theorem decodeVex3_ok {c : Config} {p : Pfx} {bs : List Byte} {i : Instr} {rest : List Byte}
    (h : decodeVex3 c p bs = .ok (i, rest)) :
    ∃ u, bs = u ++ rest ∧ BodyOk c p (u.length + 1) i := by
  unfold decodeVex3 at h
  split at h
  case h_2 => cases h
  next v1 v2 bs =>
  split at h
  case isTrue => cases h
  next htop =>
  split at h
  case isTrue => cases h
  next hext =>
  split at h
  case isTrue => cases h
  obtain ⟨u, rfl, -, hbody⟩ := decodeVexBody_ok h (by simp) (fun hc => by
    obtain ⟨h7, h6⟩ := (topTwo_iff v1).1 (not_not.1 fun hne => htop ⟨hc, hne⟩)
    simp only [hc, true_and, not_or, Bool.not_eq_false] at hext
    rw [h7, h6, vvvv_top, hext.1, hext.2]
    exact ⟨rfl, rfl, rfl, rfl⟩)
  exact ⟨v1 :: v2 :: u, rfl, hbody⟩

/-- A decoded write mask is not k0 (R39). -/
theorem evexMask_ne_zero {z : Bool} {aaa : KReg} {wm : Writemask} (h : evexMask z aaa = some wm) :
    ∀ k, wm = .merging k ∨ wm = .zeroing k → k ≠ 0#3 := by
  unfold evexMask at h
  intro k hk
  split at h
  · cases z <;> cases h
    simp at hk
  · next haaa => cases z <;> cases h <;> simp at hk <;> exact hk ▸ haaa

/-- All the last choice of an EVEX form can answer (R38, R43, R48). -/
theorem evexInstr_ok {op : PackOp} {vl : VecLen} {w bc : Bool} {p : Pfx} {wm : Writemask} {d s1 : VReg}
    {x b : Bool} {rm : RawRM} {i : Instr} (h : evexInstr op vl w bc p wm d s1 x b rm = .ok i)
    (hok : rm.Ok x b) :
    ∃ src2, EvexTerm i p wm d s1 src2 ∧ OperandOk x b rm.len src2 := by
  cases op with
  | wb =>
    simp only [evexInstr] at h
    split at h <;> cases h
    exact ⟨_, evexWb_term .., hok.toRegMem id⟩
  | dw =>
    simp only [evexInstr] at h
    split at h
    · cases h
    split at h <;> cases h
    next src2 hsrc => exact ⟨src2, evexDw_term .., hok.toBcst hsrc⟩

/-- All the EVEX format can answer behind its head (R33, R42). -/
theorem decodeEvexBody_ok {c : Config} {p : Pfx} {p0 p1 p2 : Byte} {bs : List Byte} {i : Instr}
    {rest : List Byte} (h : decodeEvexBody c p p0 p1 p2 bs = .ok (i, rest))
    (h32 : c.aw = .w32 → p0.getLsbD 7 = true ∧ p0.getLsbD 6 = true ∧ p0.getLsbD 5 = true ∧
      p0.getLsbD 4 = true ∧ p1.getLsbD 6 = true ∧ p2.getLsbD 3 = true) :
    ∃ u, bs = u ++ rest ∧ BodyOk c p (u.length + 4) i := by
  unfold decodeEvexBody at h
  split at h
  case h_1 => cases h
  next op bs =>
  split at h
  case h_1 => cases h
  case h_2 => cases h
  case h_3 => cases h
  next pk vl wm hop hvl hwm =>
  simp only at h
  split at h
  case h_1 => cases h
  next reg rm bs' hrm =>
  split at h
  case h_1 => cases h
  next hinstr =>
  obtain ⟨rfl, rfl, hregs⟩ := finish_ok h
  obtain ⟨u, rfl, hu, hok⟩ := takeModRM_ok hrm
  obtain ⟨src2, hterm, hsrc⟩ := evexInstr_ok hinstr hok
  refine ⟨op :: u, rfl, ?_⟩
  have hbody := bodyOk_evex hterm hregs hsrc (evexMask_ne_zero hwm) (fun hc => by
    obtain ⟨h7, h6, h5, h4, hv, hv'⟩ := h32 hc
    refine ⟨vreg_lt_eight ((vregOf_fields ..).2.trans ?_) ((vregOf_fields ..).1.trans ?_),
      vreg_lt_eight ((vvvv_fields ..).2.trans ?_) ((vvvv_fields ..).1.trans ?_), ?_, ?_⟩
    · rw [h7, Bool.not_true]
    · rw [h4, Bool.not_true]
    · rw [vvvv_top, hv, Bool.not_true]
    · rw [hv', Bool.not_true]
    · rw [h6, Bool.not_true]
    · rw [h5, Bool.not_true])
  convert hbody using 1
  simp only [List.length_cons, hu]
  omega

theorem decodeEvex_ok {c : Config} {p : Pfx} {bs : List Byte} {i : Instr} {rest : List Byte}
    (h : decodeEvex c p bs = .ok (i, rest)) :
    ∃ u, bs = u ++ rest ∧ BodyOk c p (u.length + 1) i := by
  unfold decodeEvex at h
  split at h
  case h_2 => cases h
  next p0 p1 p2 bs =>
  split at h
  case isTrue => cases h
  next htop =>
  split at h
  case isTrue => cases h
  next hext =>
  split at h
  case isTrue => cases h
  split at h
  case isTrue => cases h
  split at h
  case isTrue => cases h
  obtain ⟨u, rfl, hbody⟩ := decodeEvexBody_ok h (fun hc => by
    obtain ⟨h7, h6⟩ := (topTwo_iff p0).1 (not_not.1 fun hne => htop ⟨hc, hne⟩)
    simp only [hc, true_and, not_or, Bool.not_eq_false] at hext
    exact ⟨h7, h6, hext⟩)
  exact ⟨p0 :: p1 :: p2 :: u, rfl, hbody⟩

/-! ### The whole decoder -/

/-- All the decoder can answer behind the leading bytes; a `66` counts in the LEGACY format only (R30, R31,
R48). -/
theorem decodeMain_ok {c : Config} {acc : PfxAcc} {b : Byte} {bs : List Byte} {i : Instr}
    {rest : List Byte} (h : decodeMain c acc b bs = .ok (i, rest)) :
    ∃ u, bs = u ++ rest ∧ BodyOk c acc.pfx (u.length + 1 + (if acc.op66 then 1 else 0)) i := by
  unfold decodeMain at h
  split at h
  case isTrue =>
    obtain ⟨u, rfl, h66, hbody⟩ := decodeLegacy_ok h (fun _ => rfl)
    exact ⟨u, rfl, by simpa [h66] using hbody⟩
  split at h
  case isTrue hrex =>
    split at h
    case h_1 => cases h
    split at h
    case isFalse => cases h
    next e bs' _ =>
    obtain ⟨u, rfl, h66, hbody⟩ := decodeLegacy_ok h (fun hc => by simp [hc] at hrex)
    exact ⟨e :: u, rfl, by simpa [h66] using hbody⟩
  split at h
  case isFalse => cases h
  split at h
  case isTrue => cases h
  next h66 =>
  rw [Bool.not_eq_true] at h66
  simp only [h66, Bool.false_eq_true, if_false, Nat.add_zero]
  split at h
  · exact decodeVex2_ok h
  split at h
  · exact decodeVex3_ok h
  · exact decodeEvex_ok h

/-- All the decoder can answer (R30 to R47, R49). -/
theorem decode_ok {c : Config} {bytes : List Byte} {i : Instr} {rest : List Byte}
    (h : decode c bytes = .ok (i, rest)) :
    i.wellFormed c = true ∧ ∃ used, bytes = used ++ rest ∧ used.length = i.len := by
  unfold decode at h
  split at h
  case h_1 => cases h
  next acc b bs hscan =>
  obtain ⟨lead, rfl, hlead, ha32⟩ := scanPfx_ok hscan
  obtain ⟨u, rfl, hbody⟩ := decodeMain_ok h
  refine ⟨(wellFormed_iff c i).2 ⟨hbody.regs, hbody.addr, hbody.format, fun hc => ?_⟩,
    lead ++ b :: u, by simp, ?_⟩
  · obtain ⟨hd, hs1, hextB, hextX, hrex⟩ := hbody.mode hc
    exact ⟨(fits32_iff i).2 ⟨hbody.pfx ▸ ha32 rfl hc, hd, hs1, hextB, hextX⟩, hrex⟩
  · have hlen := hbody.len
    simp only [Pfx.len, Option.isSome_none, Bool.false_eq_true, if_false] at hlead
    rw [Instr.len, hbody.pfx, List.length_append, List.length_cons, Pfx.len]
    omega

end Sys2Proof
end

section
/-! SUPPORT. What the bytes of an answer satisfy: the fields that are reserved (spec/30_encoding.md R48) and
those that 32-bit mode fixes (R49). -/

namespace Sys2Proof

/-! ### Behind leading bytes -/

/-- Nothing decodes behind leading bytes where the walk over them refuses the next byte. -/
theorem decode_lead_ne_ok_of_scan {c : Config} {lead bs : List Byte} {x : Instr × List Byte}
    (hlead : ∀ b ∈ lead, b ∈ Machine.leadBytes)
    (hstop : ∀ acc, ∃ e, scanPfx c.aw acc bs = .error e) : decode c (lead ++ bs) ≠ .ok x := by
  rcases scanPfx_lead c.aw bs lead { pfx := { seg := none, a32 := false }, op66 := false } hlead with
    ⟨e, h⟩ | ⟨p, h⟩
  · simp [decode, h]
  · obtain ⟨e, he⟩ := hstop { pfx := p, op66 := false || decide (0x66#8 ∈ lead) }
    simp [decode, h.trans he]

/-- Nothing decodes behind leading bytes where nothing does from the next byte on. -/
theorem decode_lead_ne_ok {c : Config} {lead bs : List Byte} {b : Byte} {x : Instr × List Byte}
    (hlead : ∀ b ∈ lead, b ∈ Machine.leadBytes) (hb : pfxByte b = .other)
    (hmain : ∀ p, decodeMain c { pfx := p, op66 := decide (0x66#8 ∈ lead) } b bs ≠ .ok x) :
    decode c (lead ++ b :: bs) ≠ .ok x := by
  rcases decode_lead c b bs lead hlead hb with ⟨e, h⟩ | ⟨p, h⟩
  · simp [h]
  · exact h ▸ hmain p

/-- A byte `40` to `4F` is no leading byte (R31). -/
theorem pfxByte_rex {b : Byte} (h : b.extractLsb' 4 4 = 4#4) : pfxByte b = .other := by
  revert b
  decide

theorem ne_escape_of_rex {b : Byte} (h : b.extractLsb' 4 4 = 4#4) : b ≠ 0x0F#8 := by
  rintro rfl
  cases h

/-! ### What follows the leading bytes -/

theorem decodeMain_escape_ok {c : Config} {acc : PfxAcc} {bs : List Byte} {x : Instr × List Byte}
    (h : decodeMain c acc 0x0F#8 bs = .ok x) : acc.op66 = true := by
  obtain ⟨u, -, h66, -⟩ := decodeLegacy_ok (rex := none) h (fun _ => rfl)
  exact h66

/-- A REX byte decodes in 64-bit mode only, between a `66` and `0F` (R31, R48, R49). -/
theorem decodeMain_rex_ok {c : Config} {acc : PfxAcc} {b : Byte} {bs : List Byte}
    {x : Instr × List Byte} (hrex : b.extractLsb' 4 4 = 4#4) (h : decodeMain c acc b bs = .ok x) :
    c.aw = .w64 ∧ acc.op66 = true ∧ ∃ bs', bs = 0x0F#8 :: bs' := by
  have hvex : ¬(b = 0xC5#8 ∨ b = 0xC4#8 ∨ b = 0x62#8) := by
    rintro (rfl | rfl | rfl) <;> cases hrex
  unfold decodeMain at h
  rw [if_neg (ne_escape_of_rex hrex), if_neg hvex] at h
  split at h
  case isFalse => cases h
  next h64 =>
  split at h
  case h_1 => cases h
  split at h
  case isFalse => cases h
  next e bs' he =>
  obtain ⟨u, -, h66, -⟩ := decodeLegacy_ok h (fun hc => by simp [hc] at h64)
  exact ⟨h64.1, h66, bs', by rw [he]⟩

/-- VEX and EVEX decode behind no `66` (R48). -/
theorem decodeMain_vex2_ok {c : Config} {acc : PfxAcc} {bs : List Byte} {x : Instr × List Byte}
    (h : decodeMain c acc 0xC5#8 bs = .ok x) :
    acc.op66 = false ∧ decodeVex2 c acc.pfx bs = .ok x := by
  cases h66 : acc.op66 <;> simp [decodeMain, h66] at h
  exact ⟨rfl, h⟩

theorem decodeMain_vex3_ok {c : Config} {acc : PfxAcc} {bs : List Byte} {x : Instr × List Byte}
    (h : decodeMain c acc 0xC4#8 bs = .ok x) :
    acc.op66 = false ∧ decodeVex3 c acc.pfx bs = .ok x := by
  cases h66 : acc.op66 <;> simp [decodeMain, h66] at h
  exact ⟨rfl, h⟩

theorem decodeMain_evex_ok {c : Config} {acc : PfxAcc} {bs : List Byte} {x : Instr × List Byte}
    (h : decodeMain c acc 0x62#8 bs = .ok x) :
    acc.op66 = false ∧ decodeEvex c acc.pfx bs = .ok x := by
  cases h66 : acc.op66 <;> simp [decodeMain, h66] at h
  exact ⟨rfl, h⟩

/-! ### The fields of an answer -/

/-- The `pp` field of VEX is 01 (R48). -/
theorem decodeVexBody_pp {c : Config} {p : Pfx} {vex3 r x b l : Bool} {v : BitVec 4} {pp : BitVec 2}
    {bs : List Byte} {y : Instr × List Byte}
    (h : decodeVexBody c p vex3 r x b v l pp bs = .ok y) : pp = 1#2 := by
  unfold decodeVexBody at h
  split at h
  case h_1 => cases h
  split at h
  case h_1 => cases h
  split at h
  case isTrue => cases h
  next hpp => exact not_not.1 hpp

theorem decodeVex2_fields {c : Config} {p : Pfx} {v1 : Byte} {bs : List Byte} {x : Instr × List Byte}
    (h : decodeVex2 c p (v1 :: bs) = .ok x) :
    v1.extractLsb' 0 2 = 1#2 ∧ (c.aw = .w32 → v1.extractLsb' 6 2 = 3#2) := by
  simp only [decodeVex2] at h
  split at h
  case isTrue => cases h
  next htop => exact ⟨decodeVexBody_pp h, fun hc => not_not.1 fun hne => htop ⟨hc, hne⟩⟩

theorem decodeVex3_fields {c : Config} {p : Pfx} {v1 v2 : Byte} {bs : List Byte}
    {x : Instr × List Byte} (h : decodeVex3 c p (v1 :: v2 :: bs) = .ok x) :
    v1.extractLsb' 0 5 = 1#5 ∧ v2.extractLsb' 0 2 = 1#2 ∧
      (c.aw = .w32 → v1.extractLsb' 6 2 = 3#2 ∧ v1.getLsbD 5 = true ∧ v2.getLsbD 6 = true) := by
  simp only [decodeVex3] at h
  split at h
  case isTrue => cases h
  next htop =>
  split at h
  case isTrue => cases h
  next hext =>
  split at h
  case isTrue => cases h
  next hmap =>
  refine ⟨not_not.1 hmap, decodeVexBody_pp h, fun hc => ?_⟩
  simp only [hc, true_and, not_or, Bool.not_eq_false] at hext
  exact ⟨not_not.1 fun hne => htop ⟨hc, hne⟩, hext⟩

/-- The rows of R48 that tell the two EVEX operations apart. -/
theorem evexInstr_fields {op : PackOp} {vl : VecLen} {w bc : Bool} {p : Pfx} {wm : Writemask}
    {d s1 : VReg} {x b : Bool} {rm : RawRM} {i : Instr}
    (h : evexInstr op vl w bc p wm d s1 x b rm = .ok i) :
    (op = .wb → bc = false) ∧ (op = .dw → w = false ∧ (bc = true → ∃ m, rm = .mem m)) := by
  cases op with
  | wb => cases bc <;> simp [evexInstr] at h ⊢
  | dw =>
    cases w <;> simp only [evexInstr, if_true, Bool.false_eq_true, if_false] at h
    · cases rm with
      | reg f => cases bc <;> simp [RawRM.toBcst] at h ⊢
      | mem m => simp
    · cases h

/-- A register operand is what mod = 11 spells (R40). -/
theorem takeModRM_mod_ne {x b : Bool} {mb : Byte} {bs bs' : List Byte} {reg : BitVec 3} {m : AddrMode}
    (h : takeModRM x b (mb :: bs) = .ok (reg, .mem m, bs')) : mb.extractLsb' 6 2 ≠ 3#2 := by
  intro h3
  simp [takeModRM, h3] at h

/-- No row of R48 about the opcode, `L'L`, the write mask or the broadcast holds of an answer. -/
theorem decodeEvexBody_fields {c : Config} {p : Pfx} {p0 p1 p2 op m : Byte} {bs : List Byte}
    {x : Instr × List Byte} (h : decodeEvexBody c p p0 p1 p2 (op :: m :: bs) = .ok x) :
    p2.extractLsb' 5 2 ≠ 3#2 ∧ ¬(p2.getLsbD 7 = true ∧ p2.extractLsb' 0 3 = 0#3) ∧
      ¬(op = 0x6B#8 ∧ p1.getLsbD 7 = true) ∧ ¬(op = 0x63#8 ∧ p2.getLsbD 4 = true) ∧
      ¬(op = 0x6B#8 ∧ p2.getLsbD 4 = true ∧ m.extractLsb' 6 2 = 3#2) := by
  simp only [decodeEvexBody] at h
  split at h
  case h_1 => cases h
  case h_2 => cases h
  case h_3 => cases h
  next pk vl wm hop hvl hwm =>
  split at h
  case h_1 => cases h
  next reg rm bs' hrm =>
  split at h
  case h_1 => cases h
  next hinstr =>
  obtain ⟨hwb, hdw⟩ := evexInstr_fields hinstr
  refine ⟨fun h3 => ?length, fun hz => ?mask, fun hw => ?width, fun hb => ?bytes, fun hr => ?register⟩
  case length => simp [evexVl, h3] at hvl
  case mask => simp [evexMask, hz] at hwm
  case width =>
    obtain ⟨rfl, hw⟩ := hw
    cases hop
    exact Bool.false_ne_true ((hdw rfl).1.symm.trans hw)
  case bytes =>
    obtain ⟨rfl, hb⟩ := hb
    cases hop
    exact Bool.false_ne_true ((hwb rfl).symm.trans hb)
  case register =>
    obtain ⟨rfl, hb, h3⟩ := hr
    cases hop
    obtain ⟨a, rfl⟩ := (hdw rfl).2 hb
    exact takeModRM_mod_ne hrm h3

/-- No row of R48 about the EVEX head holds of an answer, nor does R49's about its inverted bits. -/
theorem decodeEvex_fields {c : Config} {p : Pfx} {p0 p1 p2 : Byte} {bs : List Byte}
    {x : Instr × List Byte} (h : decodeEvex c p (p0 :: p1 :: p2 :: bs) = .ok x) :
    p0.extractLsb' 2 2 = 0#2 ∧ p1.getLsbD 2 = true ∧ p0.extractLsb' 0 2 = 1#2 ∧
      p1.extractLsb' 0 2 = 1#2 ∧
      (c.aw = .w32 → p0.extractLsb' 6 2 = 3#2 ∧ p0.getLsbD 5 = true ∧ p0.getLsbD 4 = true ∧
        p1.getLsbD 6 = true ∧ p2.getLsbD 3 = true) ∧
      decodeEvexBody c p p0 p1 p2 bs = .ok x := by
  simp only [decodeEvex] at h
  split at h
  case isTrue => cases h
  next htop =>
  split at h
  case isTrue => cases h
  next hext =>
  split at h
  case isTrue => cases h
  next hres =>
  split at h
  case isTrue => cases h
  next hmap =>
  split at h
  case isTrue => cases h
  next hpp =>
  rw [not_or, not_not, Bool.not_eq_false] at hres
  refine ⟨hres.1, hres.2, not_not.1 hmap, not_not.1 hpp, fun hc => ?_, h⟩
  simp only [hc, true_and, not_or, Bool.not_eq_false] at hext
  exact ⟨not_not.1 fun hne => htop ⟨hc, hne⟩, hext⟩

/-! ### The length -/

/-- The bytes from a format's head to the opcode are 3 to 5 (R47). -/
theorem headLen_bounds (i : Instr) : 3 ≤ i.headLen ∧ i.headLen ≤ 5 := by
  cases i <;> grind [Instr.headLen]

theorem four_le_len (i : Instr) : 4 ≤ i.len := by
  have := (headLen_bounds i).1
  unfold Instr.len
  omega

theorem len_le_thirteen (i : Instr) : i.len ≤ 13 := by
  have hpfx : i.pfx.len ≤ 2 := by unfold Pfx.len; split <;> split <;> decide
  have hhead := (headLen_bounds i).2
  have hsrc : i.src2.len ≤ 5 := by
    cases i.src2 with
    | reg r => exact Nat.zero_le 5
    | mem m => exact addrLen_le m
    | bcst m => exact addrLen_le m
  unfold Instr.len
  omega

/-! ### Register numbers -/

theorem inFile_iff (c : Config) (r : VReg) : VReg.inFile c r = true ↔ r.toNat < c.nvreg.count :=
  decide_eq_true_iff

/-- A term has its registers exactly where no number is at or above NVREG (R44). -/
theorem regsInFile_iff (c : Config) (i : Instr) :
    i.regsInFile c = true ↔
      i.dest.toNat < c.nvreg.count ∧ i.src1.toNat < c.nvreg.count ∧
        ∀ r, i.src2 = .reg r → r.toNat < c.nvreg.count := by
  unfold Instr.regsInFile RegMemBcst.inFile
  cases i.src2 <;> simp [inFile_iff, and_assoc]

theorem regsInFile_eq_false {c : Config} {i : Instr}
    (h : c.nvreg.count ≤ i.dest.toNat ∨ c.nvreg.count ≤ i.src1.toNat ∨
      ∃ r, i.src2 = .reg r ∧ c.nvreg.count ≤ r.toNat) : i.regsInFile c = false := by
  rw [← Bool.not_eq_true, regsInFile_iff]
  rintro ⟨hd, hs1, hs2⟩
  rcases h with h | h | ⟨r, hr, h⟩
  · omega
  · omega
  · have := hs2 r hr
    omega

end Sys2Proof
end

section
/-! PROOFS. The decoder and the encoder: the statements about spec/30_encoding.md. -/

namespace Sys2Proof.Proofs

open Sys2Proof.Machine

/-- Settles O38: the decoder reads back every field the encoder wrote, and its last check is part of being
well-formed. -/
theorem decodeOfEncode : Obligations.DecodeOfEncode := by
  intro c i rest hwf
  obtain ⟨hregs, -⟩ := (wellFormed_iff c i).1 hwf
  rw [decode_encode rest (wellFormed_n32 hwf), finish, if_pos hregs]

/-- Settles O39, format by format. -/
theorem decodeYieldsWellFormed : Obligations.DecodeYieldsWellFormed :=
  fun _ _ _ _ h => decode_ok h

/-- An instruction of length 4, `PACKSSWB xmm0, xmm0`. -/
def shortest : Instr := .packsswbSse128 { seg := none, a32 := false } false 0#5 (.reg 0#5)

/-- An instruction of length 13: both leading bytes, EVEX, SIB and a 4-byte displacement. -/
def longest : Instr :=
  .vpacksswbEvex128 { seg := some .fs, a32 := true } .none 0#5 0#5 (.mem (.sibNoBase none 0#32))

/-- Settles O40: the bytes consumed are counted by O39's argument, and the bounds come from the parts of a
length. -/
theorem lengthCountsBytes : Obligations.LengthCountsBytes := by
  have hback (i : Instr) (h : i.wellFormed Config.launch = true) :
      decode Config.launch (encode i) = .ok (i, []) := by
    simpa using decodeOfEncode Config.launch i [] h
  refine ⟨fun c bytes i rest h => ?_, ⟨shortest, hback _ (by decide), rfl⟩,
    ⟨longest, hback _ (by decide), rfl⟩⟩
  obtain ⟨-, used, rfl, hused⟩ := decode_ok h
  exact ⟨by rw [List.length_append, hused], four_le_len i, len_le_thirteen i⟩

/-- Settles O41: a decoded term passed the last check, a term that fails it is not well-formed, and the
encoding of one is read back up to that check. -/
theorem registerNumbersBelowNVREG : Obligations.RegisterNumbersBelowNVREG := by
  refine ⟨fun c bytes i rest h => ?decoded, fun i s hout => ?executed, fun c i rest hwf hout => ?encoded⟩
  case decoded =>
    obtain ⟨hregs, -⟩ := (wellFormed_iff c i).1 (decode_ok h).1
    exact (regsInFile_iff c i).1 hregs
  case executed =>
    have hwf : i.wellFormed s.cfg = false := by
      simp [Instr.wellFormed, regsInFile_eq_false hout]
    exact (exec_refused_iff i s .notAForm).2 (.inl ⟨hwf, rfl⟩)
  case encoded =>
    rw [decode_encode rest hwf, finish, regsInFile_eq_false hout]
    rfl

/-- Settles O42: behind leading bytes the decoder stops at the byte, or goes on at it and what it answers
has none of the reserved fields. -/
theorem reservedEncodingsAreRefused : Obligations.ReservedEncodingsAreRefused := by
  intro c lead bytes rex p0 p1 p2 op m x hlead
  have hvex66 (b : Byte) (bs : List Byte) (hb : pfxByte b = .other)
      (h : ∀ acc, decodeMain c acc b bs = .ok x → acc.op66 = false) (h66 : 0x66#8 ∈ lead) :
      decode c (lead ++ b :: bs) ≠ .ok x :=
    decode_lead_ne_ok hlead hb fun p hx => absurd (h _ hx) (by simp [h66])
  refine ⟨?lock, ?repne, ?rep, fun h66 => ⟨?mmx, fun hrex => ?mmxRex⟩, fun hrex h0 => ?rexPlace,
    fun h66 hb => ?vexAfter66, fun hf => ?vex3, fun hf => ?vex2, fun hf => ?evex⟩
  case lock => exact decode_lead_ne_ok_of_scan hlead fun _ => ⟨_, rfl⟩
  case repne => exact decode_lead_ne_ok_of_scan hlead fun _ => ⟨_, rfl⟩
  case rep => exact decode_lead_ne_ok_of_scan hlead fun _ => ⟨_, rfl⟩
  case mmx =>
    refine decode_lead_ne_ok hlead rfl fun p hx => h66 ?_
    simpa using decodeMain_escape_ok hx
  case mmxRex =>
    refine decode_lead_ne_ok hlead (pfxByte_rex hrex) fun p hx => h66 ?_
    simpa using (decodeMain_rex_ok hrex hx).2.1
  case rexPlace =>
    refine decode_lead_ne_ok hlead (pfxByte_rex hrex) fun p hx => h0 ?_
    obtain ⟨-, -, bs', hbs⟩ := decodeMain_rex_ok hrex hx
    exact (List.cons.inj hbs).1
  case vexAfter66 =>
    rcases hb with rfl | rfl | rfl
    · exact hvex66 _ _ rfl (fun _ hx => (decodeMain_vex3_ok hx).1) h66
    · exact hvex66 _ _ rfl (fun _ hx => (decodeMain_vex2_ok hx).1) h66
    · exact hvex66 _ _ rfl (fun _ hx => (decodeMain_evex_ok hx).1) h66
  case vex3 =>
    refine decode_lead_ne_ok hlead rfl fun p hx => ?_
    obtain ⟨hmap, hpp, -⟩ := decodeVex3_fields (decodeMain_vex3_ok hx).2
    exact hf.elim (absurd hmap) (absurd hpp)
  case vex2 =>
    refine decode_lead_ne_ok hlead rfl fun p hx => hf ?_
    exact (decodeVex2_fields (decodeMain_vex2_ok hx).2).1
  case evex =>
    refine decode_lead_ne_ok hlead rfl fun p hx => ?_
    obtain ⟨hres, hone, hmap, hpp, -, hbody⟩ := decodeEvex_fields (decodeMain_evex_ok hx).2
    obtain ⟨hll, hmask, hw, hwb, hdw⟩ := decodeEvexBody_fields hbody
    rcases hf with h | h | h | h | h | h | h | h | h
    · exact h hres
    · exact Bool.false_ne_true (h.symm.trans hone)
    · exact h hmap
    · exact h hpp
    · exact hll h
    · exact hmask h
    · exact hw h
    · exact hwb h
    · exact hdw h

/-- Settles O43: a decoded term is well-formed for the mode, and the fields of an answer show the top bits
and the inverted bits stored 1. -/
theorem mode32Restrictions : Obligations.Mode32Restrictions := by
  intro c hc
  refine ⟨fun bytes i rest h => ?decoded, fun lead bytes b q p1 p2 x hlead => ⟨fun hb => ?rexOr67,
    fun hb hq => ?topBits, fun hf => ?vex3, fun hf => ?evex⟩⟩
  case decoded =>
    obtain ⟨-, -, -, hmode⟩ := (wellFormed_iff c i).1 (decode_ok h).1
    exact hmode hc
  case rexOr67 =>
    rcases hb with hrex | rfl
    · refine decode_lead_ne_ok hlead (pfxByte_rex hrex) fun p hx => ?_
      exact absurd (hc.symm.trans (decodeMain_rex_ok hrex hx).1) (by decide)
    · exact decode_lead_ne_ok_of_scan hlead fun acc => ⟨.addressSize16, by rw [hc]; rfl⟩
  case topBits =>
    rcases hb with rfl | rfl | rfl <;> refine decode_lead_ne_ok hlead rfl fun p hx => hq ?_
    · obtain ⟨-, hx⟩ := decodeMain_vex3_ok hx
      cases bytes with
      | nil => cases hx
      | cons p1 bytes => exact ((decodeVex3_fields hx).2.2 hc).1
    · exact (decodeVex2_fields (decodeMain_vex2_ok hx).2).2 hc
    · obtain ⟨-, hx⟩ := decodeMain_evex_ok hx
      match bytes, hx with
      | [], hx => cases hx
      | [_], hx => cases hx
      | p1 :: p2 :: bytes, hx =>
        obtain ⟨-, -, -, -, hinv, -⟩ := decodeEvex_fields hx
        exact (hinv hc).1
  case vex3 =>
    refine decode_lead_ne_ok hlead rfl fun p hx => ?_
    obtain ⟨-, -, hinv⟩ := decodeVex3_fields (decodeMain_vex3_ok hx).2
    obtain ⟨-, hB, hV⟩ := hinv hc
    simp only [hB, hV, Bool.true_eq_false, or_self] at hf
  case evex =>
    refine decode_lead_ne_ok hlead rfl fun p hx => ?_
    obtain ⟨-, -, -, -, hinv, -⟩ := decodeEvex_fields (decodeMain_evex_ok hx).2
    obtain ⟨-, hB, hR', hV, hV'⟩ := hinv hc
    simp only [hB, hR', hV, hV', Bool.true_eq_false, or_self] at hf

/-- Settles O44, by running the decoder on the four words. -/
theorem listedEncodingsDecode : Obligations.ListedEncodingsDecode := by
  refine ⟨?_, ?_, ?_, ?_⟩ <;> rfl

end Sys2Proof.Proofs
end

section
/-! SUPPORT. What a completion and a step can do, and the invariant of the machine (spec/10_state.md R10, R14;
spec/70_reset_and_hazards.md R106). -/

namespace Sys2Proof.Machine

/-! ### Completions -/

/-- A completion leaves the frame, the next pc and the one read event. -/
theorem completesWith_of_exec {i : Instr} {s t : State} (h : exec i s = .next t) :
    CompletesWith i s t := by
  obtain ⟨-, rfl⟩ := (exec_next_iff_runs i s t).1 h
  exact completed_with i s _

theorem space_le (aw : AddrWidth) : aw.space ≤ 2 ^ 64 := by cases aw <;> decide

theorem space_pos (aw : AddrWidth) : 0 < aw.space := by cases aw <;> decide

/-- The next pc is the sum modulo 2^AW, none of its bits lost (R14). -/
theorem toNat_nextPc (i : Instr) (s : State) :
    (nextPc i s).toNat = (s.pc.toNat + i.len) % s.cfg.aw.space := by
  have hlt := Nat.mod_lt (s.pc.toNat + i.len) (space_pos s.cfg.aw)
  rw [nextPc, BitVec.toNat_ofNat, Nat.mod_eq_of_lt (hlt.trans_le (space_le s.cfg.aw))]

/-- DEST holds nothing above MAXVL after a completion (R10). -/
theorem dest_width_of_exec {i : Instr} {s t : State} (h : exec i s = .next t) {b : Nat}
    (hb : s.cfg.maxvl.bits ≤ b) : (readV t i.dest).getLsbD b = false := by
  obtain ⟨-, rfl⟩ := (exec_next_iff_runs i s t).1 h
  rw [readV_completed, getLsbD_lowBits, decide_eq_false (Nat.not_lt.2 hb), Bool.false_and]

/-! ### The invariant -/

/-- A completion keeps the invariant: it writes DEST cut at MAXVL, pc modulo 2^AW, and no memory. -/
theorem Inv.exec {i : Instr} {s t : State} (hinv : Inv s) (h : exec i s = .next t) : Inv t := by
  obtain ⟨hframe, hpc, -⟩ := completesWith_of_exec h
  constructor
  case width =>
    intro r b hb
    rw [hframe.config] at hb
    by_cases hr : r = i.dest
    · exact hr ▸ dest_width_of_exec h hb
    · rw [hframe.vregs r hr]
      exact hinv.width r b hb
  case pcWidth =>
    rw [hpc, toNat_nextPc, hframe.config]
    exact Nat.mod_lt _ (space_pos _)
  case memory => exact hframe.listed ▸ hinv.memory
  case program => exact hframe.program ▸ hinv.program

theorem readV_reset (r : VReg) : readV State.reset r = 0#512 := by simp [readV, State.reset]

/-! ### Steps -/

/-- Where the bytes at pc decode, a step is the decoded instruction, unless that lies near the top (R14). -/
theorem step_of_decode {s : State} {i : Instr} {rest : List Byte} (hrec : s.faultRecord = none)
    (hdec : decode s.cfg (fetch s) = .ok (i, rest)) :
    step s = if nearTop s i.len then .refused .programAtTop else exec i s := by
  unfold step
  rw [hrec]
  cases hf : fetch s with
  | nil => simp [hf, decode, scanPfx] at hdec
  | cons b bs =>
    rw [hf] at hdec
    simp only [hdec]

/-- All a step that completes can do: no fault was recorded, and the decoded instruction completed. -/
theorem step_next {s t : State} (h : step s = .next t) :
    s.faultRecord = none ∧ ∃ i rest, decode s.cfg (fetch s) = .ok (i, rest) ∧ exec i s = .next t := by
  cases hrec : s.faultRecord with
  | some f => simp [step, hrec, raise] at h
  | none =>
    refine ⟨rfl, ?_⟩
    cases hdec : decode s.cfg (fetch s) with
    | ok r =>
      obtain ⟨i, rest⟩ := r
      rw [step_of_decode hrec hdec] at h
      split at h
      · cases h
      · exact ⟨i, rest, rfl, h⟩
    | error e =>
      cases hf : fetch s with
      | nil => simp [step, hrec, hf] at h
      | cons b bs => simp [step, hrec, hf, hf ▸ hdec] at h

/-- The last fifteen addresses: some byte of the instruction lies there exactly where its last one does
(R14). -/
theorem nearTop_iff (s : State) {n : Nat} (hn : 0 < n) :
    nearTop s n = true ↔ s.cfg.aw.space ≤ s.pc.toNat + (n - 1) + 15 := by
  rw [nearTop, decide_eq_true_iff]
  omega

/-! ### The run of a program -/

/-- The three ways R106 lets a program end: every instruction completed; one faulted; one was refused. -/
def EndsAsR106 (prog : List Instr) (s : State) : Prop :=
  (∃ t, runProgram prog.length s = .finished t ∧ RunsThrough prog s t ∧
    t.pc.toNat = s.pc.toNat + programLen prog) ∨
  (∃ done i rest u f, prog = done ++ i :: rest ∧ RunsThrough done s u ∧
    u.pc.toNat = s.pc.toNat + programLen done ∧ exec i u = .fault f ∧
    runProgram prog.length s = .faulted (recordFault f u)) ∨
  (∃ done i rest u r, prog = done ++ i :: rest ∧ RunsThrough done s u ∧
    u.pc.toNat = s.pc.toNat + programLen done ∧
    (exec i u = .refused r ∨ s.cfg.aw.space ≤ u.pc.toNat + i.len + 14 ∧ r = .programAtTop) ∧
    runProgram prog.length s = .refused r)

theorem endsAsR106_of_fault {i : Instr} {prog : List Instr} {s : State} {f : Fault}
    (hstep : step s = .fault f) (h : exec i s = .fault f) : EndsAsR106 (i :: prog) s :=
  .inr (.inl ⟨[], i, prog, s, f, rfl, rfl, rfl, h, by simp [runProgram, hstep]⟩)

theorem endsAsR106_of_refusal {i : Instr} {prog : List Instr} {s : State} {r : Refusal}
    (hstep : step s = .refused r)
    (h : exec i s = .refused r ∨ s.cfg.aw.space ≤ s.pc.toNat + i.len + 14 ∧ r = .programAtTop) :
    EndsAsR106 (i :: prog) s :=
  .inr (.inr ⟨[], i, prog, s, r, rfl, rfl, rfl, h, by simp [runProgram, hstep]⟩)

/-- A first instruction that completes hands its end to the rest of the program. -/
theorem EndsAsR106.cons {i : Instr} {prog : List Instr} {s t : State} (hstep : step s = .next t)
    (h : exec i s = .next t) (hpc : t.pc.toNat = s.pc.toNat + i.len) (hcfg : t.cfg = s.cfg)
    (hrest : EndsAsR106 prog t) : EndsAsR106 (i :: prog) s := by
  have hrun : runProgram (i :: prog).length s = runProgram prog.length t := by
    simp [runProgram, hstep]
  unfold EndsAsR106
  rw [hrun, ← hcfg]
  rcases hrest with ⟨t', hend, hthrough, hpc'⟩ | ⟨done, j, rest, u, f, rfl, hthrough, hpc', hx, hend⟩ |
    ⟨done, j, rest, u, r, rfl, hthrough, hpc', hx, hend⟩
  · exact .inl ⟨t', hend, ⟨t, h, hthrough⟩, by rw [programLen_cons]; omega⟩
  · exact .inr (.inl ⟨i :: done, j, rest, u, f, rfl, ⟨t, h, hthrough⟩,
      by rw [programLen_cons]; omega, hx, hend⟩)
  · exact .inr (.inr ⟨i :: done, j, rest, u, r, rfl, ⟨t, h, hthrough⟩,
      by rw [programLen_cons]; omega, hx, hend⟩)

/-- Every placed program of well-formed instructions ends in one of the three ways, by induction on the
program. -/
theorem endsAsR106_of_placed : ∀ (prog : List Instr) (s : State), s.faultRecord = none →
    (∀ i ∈ prog, i.wellFormed s.cfg = true) → Placed s (prog.flatMap encode) → EndsAsR106 prog s
  | [], s, _, _, _ => .inl ⟨s, rfl, rfl, rfl⟩
  | i :: prog, s, hrec, hwf, hplaced => by
    rw [List.flatMap_cons] at hplaced
    have hlen := length_encode i
    obtain ⟨rest, hfetch⟩ := fetch_placed hplaced (hlen ▸ len_le_max i)
    have hi := hwf i List.mem_cons_self
    have hdec : decode s.cfg (fetch s) = .ok (i, rest) := by
      rw [hfetch, decode_encode rest (wellFormed_n32 hi), finish, if_pos ((wellFormed_iff _ _).1 hi).1]
    have hstep := step_of_decode hrec hdec
    by_cases htop : nearTop s i.len = true
    · rw [if_pos htop] at hstep
      exact endsAsR106_of_refusal hstep (.inr ⟨by simpa [nearTop] using htop, rfl⟩)
    · rw [if_neg htop] at hstep
      cases hx : exec i s with
      | fault f => exact endsAsR106_of_fault (hstep.trans hx) hx
      | refused r => exact endsAsR106_of_refusal (hstep.trans hx) (.inl hx)
      | next t =>
        obtain ⟨hframe, hpc, -⟩ := completesWith_of_exec hx
        have hpcNat : t.pc.toNat = s.pc.toNat + i.len := by
          simp only [nearTop, decide_eq_true_eq] at htop
          rw [hpc, toNat_nextPc, Nat.mod_eq_of_lt (by omega)]
        refine .cons (hstep.trans hx) hx hpcNat hframe.config ?_
        exact endsAsR106_of_placed prog t (hframe.record.trans hrec)
          (fun j hj => hframe.config ▸ hwf j (List.mem_cons_of_mem _ hj))
          (hplaced.tail (hlen ▸ hpcNat) hframe.program hframe.config)

end Sys2Proof.Machine
end

section
/-! PROOFS. Steps, runs and the invariant: the statements about spec/10_state.md and
spec/70_reset_and_hazards.md. -/

namespace Sys2Proof.Proofs

open Sys2Proof.Machine

/-- Settles O31: a step that completes is an instruction that completes, and that keeps the invariant. -/
theorem stepKeepsInvariant : Obligations.StepKeepsInvariant := by
  intro s t hinv hstep
  obtain ⟨-, i, rest, -, hexec⟩ := step_next hstep
  exact hinv.exec hexec

/-- Settles O32: every register is zero at launch, and no byte is listed. -/
theorem launchHasInvariant : Obligations.LaunchHasInvariant where
  width r b _ := by rw [readV_reset, BitVec.getLsbD_zero]
  pcWidth := by decide
  memory := reset_memory_wf
  program := rfl

/-- Settles O33: a completion is `completed`, whose frame, pc and event are known. -/
theorem completionChangesOnlyDest : Obligations.CompletionChangesOnlyDest :=
  fun _ _ _ h => completesWith_of_exec h

/-- Settles O34, by induction on the number of steps; each is a completion and keeps its frame. -/
theorem runKeepsAllButVectors : Obligations.RunKeepsAllButVectors := by
  intro n
  induction n with
  | zero =>
    rintro s t rfl
    exact ⟨rfl, rfl, rfl, rfl, rfl, rfl, rfl, rfl, fun _ => rfl⟩
  | succ n ih =>
    rintro s t ⟨u, hstep, hreach⟩
    obtain ⟨-, i, rest, -, hexec⟩ := step_next hstep
    have hframe := (completesWith_of_exec hexec).frame
    obtain ⟨hk, hx, hbase, hmem, htext, hregions, hcfg, hrec, hbytes⟩ := ih u t hreach
    exact ⟨hk.trans hframe.opmasks, hx.trans hframe.gregs, hbase.trans hframe.bases,
      hmem.trans hframe.listed, htext.trans hframe.program, hregions.trans hframe.launch,
      hcfg.trans hframe.config, hrec.trans hframe.record,
      fun a => (hbytes a).trans (hframe.bytes a)⟩

/-- Settles O35: the next pc of a completion, and the one check of a step after decoding. -/
theorem pcAdvancesByLength : Obligations.PcAdvancesByLength := by
  refine ⟨fun i s t h => ?_, fun s i rest hrec hdec htop => ?_⟩
  · rw [(completesWith_of_exec h).pc]
    exact toNat_nextPc i s
  · rw [step_of_decode hrec hdec, if_pos ((nearTop_iff s (len_pos i)).2 htop)]

/-- Settles O30, by induction on the program: the fetch at pc begins with the next encoding, which decodes
to its instruction. -/
theorem runEndsInOneOfThreeWays : Obligations.RunEndsInOneOfThreeWays :=
  endsAsR106_of_placed

/-- Settles O29: the record is the first thing a step looks at, and the only field it is kept in. -/
theorem recordedFaultIsTerminal : Obligations.RecordedFaultIsTerminal :=
  fun _ _ => ⟨rfl, rfl⟩

/-- Settles O36: past the check near the top a step is `exec` alone. -/
theorem stepRunsDecodedInstruction : Obligations.StepRunsDecodedInstruction := by
  intro s i rest hrec hdec htop
  rw [step_of_decode hrec hdec, htop]
  rfl

/-- Settles O37: the two refusals of a step before an instruction is known. -/
theorem undecodableIsRefused : Obligations.UndecodableIsRefused := by
  intro s hrec
  refine ⟨fun hempty => by simp [step, hrec, hempty], fun r hne hdec => ?_⟩
  cases hf : fetch s with
  | nil => exact absurd hf hne
  | cons b bs => simp [step, hrec, hf, hf ▸ hdec]

end Sys2Proof.Proofs
end

section
/-! SUPPORT. What a completion leaves in DEST, element by element and above VL (spec/40_pack_primitives.md
R53 to R57, spec/43_evex.md R66). -/

namespace Sys2Proof.Machine

/-! ### The forms -/

/-- Only EVEX forms have a write mask (R66). -/
theorem writemask_of_not_evex {i : Instr} (h : i.form.encClass ≠ .evex) : i.writemask = .none := by
  cases i <;> simp [Instr.form, Form.encClass, Instr.writemask] at h ⊢

theorem vl_of_legacy {i : Instr} (h : i.form.encClass = .legacy) : i.form.vl.bits = 128 := by
  cases hf : i.form <;> simp [hf, Form.encClass] at h <;> rfl

theorem elemWidth_pos (f : Form) : 0 < elemWidth f := by cases f <;> decide

/-- KL elements of the form's width are VL bits (R56). -/
theorem elemWidth_mul_kl (f : Form) : elemWidth f * (f.vl.bits / elemWidth f) = f.vl.bits := by
  cases f <;> rfl

theorem elem_below_vl {f : Form} {j : Nat} (hj : j < f.vl.bits / elemWidth f) :
    elemWidth f * j + elemWidth f ≤ f.vl.bits :=
  calc elemWidth f * j + elemWidth f = elemWidth f * (j + 1) := (Nat.mul_succ _ _).symm
    _ ≤ elemWidth f * (f.vl.bits / elemWidth f) := Nat.mul_le_mul_left _ hj
    _ = f.vl.bits := elemWidth_mul_kl f

/-- An enabled form is no wider than MAXVL (R6). -/
theorem vl_le_maxvl {i : Instr} {s : State} (h : available i s = true) :
    i.form.vl.bits ≤ s.cfg.maxvl.bits := by
  obtain ⟨-, hen, -⟩ := (available_iff i s).1 h
  simp only [formEnabled, Bool.and_eq_true, decide_eq_true_eq] at hen
  exact Nat.mul_le_mul_left 8 hen.2

theorem runs_iff (i : Instr) (s : State) :
    runs i s = true ↔ available i s = true ∧ srcReady i s = true := by
  rw [runs, Bool.and_eq_true]

/-! ### Cutting -/

/-- The wider of two cuts does nothing to what the narrower has cut. -/
theorem lowBits_of_le {vl vl' : VecLen} (h : vl.bits ≤ vl'.bits) (x : Vec) :
    lowBits vl' (lowBits vl x) = lowBits vl x := by
  apply BitVec.eq_of_getLsbD_eq
  intro b _
  rw [getLsbD_lowBits, getLsbD_lowBits]
  by_cases hb : b < vl.bits
  · simp [hb, hb.trans_le h]
  · simp [hb]

/-- Values that agree below VL are equal once cut there. -/
theorem lowBits_congr {vl : VecLen} {x y : Vec}
    (h : ∀ b, b < vl.bits → x.getLsbD b = y.getLsbD b) : lowBits vl x = lowBits vl y := by
  apply BitVec.eq_of_getLsbD_eq
  intro b _
  rw [getLsbD_lowBits, getLsbD_lowBits]
  by_cases hb : b < vl.bits
  · rw [h b hb]
  · simp [hb]

theorem elem_setLow128 {w e : Nat} (old val : Vec) (h : w * e + w ≤ 128) :
    elem w e (setLow128 old val) = elem w e val :=
  elem_congr fun b _ hb => by rw [getLsbD_setLow128, if_pos (by omega)]

/-- A masked write whose elements are those of x is x below VL (R56). -/
theorem lowBits_maskWrite_eq {vl : VecLen} {ew kl : Nat} {old tmp x : Vec} {m : Option (BitVec 64)}
    {z : Bool} (hpos : 0 < ew) (hkl : ew * kl = vl.bits)
    (h : ∀ j, j < kl → maskElem ew old tmp m z j = elem ew j x) :
    lowBits vl (maskWrite ew kl old tmp m z) = lowBits vl x := by
  have hcut (y : Vec) (b : Nat) (hb : ew * kl ≤ b) : (lowBits vl y).getLsbD b = false := by
    simp [getLsbD_lowBits, Nat.not_lt.2 (hkl ▸ hb)]
  refine eq_of_elems ew kl hpos _ _ (fun j hj => ?_) (hcut _) (hcut _)
  have hfits : ew * j + ew ≤ vl.bits := by
    rw [← hkl, ← Nat.mul_succ]
    exact Nat.mul_le_mul_left ew hj
  rw [elem_lowBits _ _ _ _ hfits, elem_lowBits _ _ _ _ hfits,
    elem_maskWrite _ _ _ _ _ _ hpos (hkl.trans_le (bits_le vl)) _ hj, h j hj]

/-! ### DEST, element by element -/

/-- The statement's masked element is the element the masked write assembles (R56, R66). -/
theorem maskElem_eq_maskedElem (ew : Nat) (i : Instr) (s : State) (tmp : Vec) (j : Nat) :
    maskElem ew (readV s i.dest) tmp (maskValue s i.writemask) i.writemask.z j =
      maskedElem ew i s j (elem ew j tmp) := by
  unfold maskElem maskedElem
  cases i.writemask <;> simp [maskValue, Writemask.z]

theorem maskedElem_of_not_evex {i : Instr} (h : i.form.encClass ≠ .evex) (ew : Nat) (s : State) (j : Nat)
    (packed : BitVec ew) : maskedElem ew i s j packed = packed := by
  simp only [maskedElem, writemask_of_not_evex h]

/-- Below VL the value a form writes is the packed value under the write mask. -/
theorem elem_destValue (i : Instr) (s : State) (a b : Vec) {j : Nat}
    (hj : j < i.form.vl.bits / elemWidth i.form) :
    elem (elemWidth i.form) j (destValue i s a b) =
      maskedElem (elemWidth i.form) i s j
        (elem (elemWidth i.form) j (packOf i.form i.form.vl a b)) := by
  have hfits := elem_below_vl hj
  unfold destValue
  cases hc : i.form.encClass with
  | legacy =>
    rw [maskedElem_of_not_evex (by simp [hc])]
    exact elem_setLow128 _ _ (vl_of_legacy hc ▸ hfits)
  | vex =>
    rw [maskedElem_of_not_evex (by simp [hc])]
    exact elem_lowBits _ _ _ _ hfits
  | evex =>
    have hold : elem (elemWidth i.form) j (lowBits i.form.vl (readV s i.dest)) =
        elem (elemWidth i.form) j (readV s i.dest) := elem_lowBits _ _ _ _ hfits
    simp only [elem_lowBits _ _ _ _ hfits,
      elem_maskWrite _ _ _ _ _ _ (elemWidth_pos _) ((elemWidth_mul_kl _).trans_le (bits_le _)) _ hj]
    rw [← maskElem_eq_maskedElem]
    simp only [maskElem, hold]

/-- Below VL every element of DEST is the packed element under the write mask. -/
theorem elem_dest_completed {i : Instr} {s : State} (h : available i s = true) (b : Vec) {ew j : Nat}
    (hew : elemWidth i.form = ew) (hj : j < i.form.vl.bits / ew) :
    elem ew j (readV (completed i s b) i.dest) =
      maskedElem ew i s j (elem ew j (packOf i.form i.form.vl (readSrc1 i s) b)) := by
  subst hew
  rw [readV_completed, elem_lowBits _ _ _ _ ((elem_below_vl hj).trans (vl_le_maxvl h)),
    elem_destValue i s _ b hj]

/-! ### The packed elements -/

/-- The bytes of a value that can be read are the bytes of the last operand (R21, R55). -/
theorem elem_srcValue {i : Instr} {s : State} (h : srcReady i s = true) {n : Nat}
    (hn : n < i.form.vl.bytes) : elem 8 n (srcValue i s) = srcByte i s n := by
  obtain ⟨b, hb, hbytes⟩ := readSrc2_ready h
  rw [← readSrc2_value hb, hbytes n hn]

theorem word_srcValue {i : Instr} {s : State} (h : srcReady i s = true) {u : Nat}
    (hu : 2 * u + 1 < i.form.vl.bytes) : elem 16 u (srcValue i s) = srcWord i s u := by
  rw [word_of_bytes, elem_srcValue h hu, elem_srcValue h (by omega), srcWord]

theorem dword_srcValue {i : Instr} {s : State} (h : srcReady i s = true) {u : Nat}
    (hu : 4 * u + 3 < i.form.vl.bytes) : elem 32 u (srcValue i s) = srcDword i s u := by
  rw [dword_of_bytes, elem_srcValue h hu, elem_srcValue h (by omega), elem_srcValue h (by omega),
    elem_srcValue h (by omega), srcDword]

theorem sixteen_dvd_bytes (vl : VecLen) : vl.bytes = 16 * (vl.bytes / 16) := by cases vl <;> rfl

/-- Byte j of `PackWB` on the sources read is the statement's packed byte (R53). -/
theorem packWBElem_sources {i : Instr} {s : State} (h : srcReady i s = true) {j : Nat}
    (hj : j < i.form.vl.bytes) : packWBElem (readSrc1 i s) (srcValue i s) j = packedByte i s j := by
  have hlanes := sixteen_dvd_bytes i.form.vl
  unfold packWBElem packedByte
  split
  · rw [readSrc1, elem_lowBits _ _ _ _ (by unfold VecLen.bits; omega)]
  · rw [word_srcValue h (by omega)]

/-- Word j of `PackDW` on the sources read is the statement's packed word (R54). -/
theorem packDWElem_sources {i : Instr} {s : State} (h : srcReady i s = true) {j : Nat}
    (hj : j < i.form.vl.bytes / 2) :
    packDWElem (readSrc1 i s) (srcValue i s) j = packedWord i s j := by
  have hlanes := sixteen_dvd_bytes i.form.vl
  unfold packDWElem packedWord
  split
  · rw [readSrc1, elem_lowBits _ _ _ _ (by unfold VecLen.bits; omega)]
  · rw [dword_srcValue h (by omega)]

theorem packOf_of_bytes {f : Form} (h : elemWidth f = 8) : packOf f = packWB := by
  cases f <;> simp [elemWidth] at h <;> rfl

theorem packOf_of_words {f : Form} (h : elemWidth f = 16) : packOf f = packDW := by
  cases f <;> simp [elemWidth] at h <;> rfl

theorem bits_div_eight (vl : VecLen) : vl.bits / 8 = vl.bytes := by cases vl <;> rfl

theorem bits_div_sixteen (vl : VecLen) : vl.bits / 16 = vl.bytes / 2 := by cases vl <;> rfl

/-! ### The whole completion -/

theorem exec_of_runs {i : Instr} {s : State} (h : runs i s = true) :
    exec i s = .next (completed i s (srcValue i s)) :=
  (exec_next_iff_runs i s _).2 ⟨h, rfl⟩

theorem destBytes_of_exec {i : Instr} {s t : State} (hew : elemWidth i.form = 8)
    (h : exec i s = .next t) : DestBytes i s t := by
  obtain ⟨hruns, rfl⟩ := (exec_next_iff_runs i s t).1 h
  obtain ⟨hav, hready⟩ := (runs_iff i s).1 hruns
  intro j hj
  rw [elem_dest_completed hav _ hew (by rwa [bits_div_eight]), packOf_of_bytes hew,
    elem_packWB _ _ _ _ hj, packWBElem_sources hready hj]

theorem destWords_of_exec {i : Instr} {s t : State} (hew : elemWidth i.form = 16)
    (h : exec i s = .next t) : DestWords i s t := by
  obtain ⟨hruns, rfl⟩ := (exec_next_iff_runs i s t).1 h
  obtain ⟨hav, hready⟩ := (runs_iff i s).1 hruns
  intro j hj
  rw [elem_dest_completed hav _ hew (by rwa [bits_div_sixteen]), packOf_of_words hew,
    elem_packDW _ _ _ _ hj, packDWElem_sources hready hj]

/-- Above bit 127 a Legacy SSE form writes back what DEST held (R60, R61). -/
theorem upperKept_of_exec {i : Instr} {s t : State} (hc : i.form.encClass = .legacy)
    (h : exec i s = .next t) : UpperKept i s t := by
  obtain ⟨-, rfl⟩ := (exec_next_iff_runs i s t).1 h
  intro b hb hmax
  simp only [readV_completed, destValue, hc, getLsbD_lowBits, getLsbD_setLow128, hmax, decide_true,
    Bool.true_and, if_neg (Nat.not_lt.2 hb)]

/-- From VL on a VEX or EVEX form writes zeros (R62 to R66). -/
theorem upperZero_of_exec {i : Instr} {s t : State} (hc : i.form.encClass ≠ .legacy)
    (h : exec i s = .next t) : UpperZero i t := by
  obtain ⟨-, rfl⟩ := (exec_next_iff_runs i s t).1 h
  intro b hb
  have hcut (x : Vec) : (lowBits i.form.vl x).getLsbD b = false := by
    simp [getLsbD_lowBits, Nat.not_lt.2 hb]
  rw [readV_completed, getLsbD_lowBits, destValue]
  cases hcl : i.form.encClass with
  | legacy => exact absurd hcl hc
  | vex => simp only [hcut, Bool.and_false]
  | evex => simp only [hcut, Bool.and_false]

/-- What the statement of a form that packs words to bytes asks, given what it asks above the result. -/
theorem completes_with_bytes {i : Instr} {s : State} {Upper : State → Prop}
    (hew : elemWidth i.form = 8) (hupper : ∀ t, exec i s = .next t → Upper t) (h : runs i s = true) :
    ∃ t, exec i s = .next t ∧ DestBytes i s t ∧ Upper t ∧ CompletesWith i s t :=
  have hexec := exec_of_runs h
  ⟨_, hexec, destBytes_of_exec hew hexec, hupper _ hexec, completesWith_of_exec hexec⟩

/-- What the statement of a form that packs doublewords to words asks, given what it asks above the result. -/
theorem completes_with_words {i : Instr} {s : State} {Upper : State → Prop}
    (hew : elemWidth i.form = 16) (hupper : ∀ t, exec i s = .next t → Upper t) (h : runs i s = true) :
    ∃ t, exec i s = .next t ∧ DestWords i s t ∧ Upper t ∧ CompletesWith i s t :=
  have hexec := exec_of_runs h
  ⟨_, hexec, destWords_of_exec hew hexec, hupper _ hexec, completesWith_of_exec hexec⟩

end Sys2Proof.Machine
end

section
/-! PROOFS. The result and the frame of each form: the statements about spec/41_legacy_sse.md,
spec/42_vex.md and spec/43_evex.md. -/

namespace Sys2Proof.Proofs

open Sys2Proof.Machine

/-- Settles O7: words packed to bytes, bits above 127 kept. -/
theorem packsswbSse128Completes : Obligations.PacksswbSse128Completes :=
  fun _ _ _ _ _ => completes_with_bytes rfl fun _ => upperKept_of_exec rfl

/-- Settles O8: doublewords packed to words, bits above 127 kept. -/
theorem packssdwSse128Completes : Obligations.PackssdwSse128Completes :=
  fun _ _ _ _ _ => completes_with_words rfl fun _ => upperKept_of_exec rfl

/-- Settles O9: words packed to bytes, zeros above VL. -/
theorem vpacksswbVex128Completes : Obligations.VpacksswbVex128Completes :=
  fun _ _ _ _ _ _ => completes_with_bytes rfl fun _ => upperZero_of_exec nofun

/-- Settles O10: doublewords packed to words, zeros above VL. -/
theorem vpackssdwVex128Completes : Obligations.VpackssdwVex128Completes :=
  fun _ _ _ _ _ _ => completes_with_words rfl fun _ => upperZero_of_exec nofun

/-- Settles O11: words packed to bytes, zeros above VL. -/
theorem vpacksswbVex256Completes : Obligations.VpacksswbVex256Completes :=
  fun _ _ _ _ _ _ => completes_with_bytes rfl fun _ => upperZero_of_exec nofun

/-- Settles O12: doublewords packed to words, zeros above VL. -/
theorem vpackssdwVex256Completes : Obligations.VpackssdwVex256Completes :=
  fun _ _ _ _ _ _ => completes_with_words rfl fun _ => upperZero_of_exec nofun

/-- Settles O13: words packed to bytes, zeros above VL, under the write mask. -/
theorem vpacksswbEvex128Completes : Obligations.VpacksswbEvex128Completes :=
  fun _ _ _ _ _ _ => completes_with_bytes rfl fun _ => upperZero_of_exec nofun

/-- Settles O14: words packed to bytes, zeros above VL, under the write mask. -/
theorem vpacksswbEvex256Completes : Obligations.VpacksswbEvex256Completes :=
  fun _ _ _ _ _ _ => completes_with_bytes rfl fun _ => upperZero_of_exec nofun

/-- Settles O15: words packed to bytes, zeros above VL, under the write mask. -/
theorem vpacksswbEvex512Completes : Obligations.VpacksswbEvex512Completes :=
  fun _ _ _ _ _ _ => completes_with_bytes rfl fun _ => upperZero_of_exec nofun

/-- Settles O16: doublewords packed to words, zeros above VL, under the write mask. -/
theorem vpackssdwEvex128Completes : Obligations.VpackssdwEvex128Completes :=
  fun _ _ _ _ _ _ => completes_with_words rfl fun _ => upperZero_of_exec nofun

/-- Settles O17: doublewords packed to words, zeros above VL, under the write mask. -/
theorem vpackssdwEvex256Completes : Obligations.VpackssdwEvex256Completes :=
  fun _ _ _ _ _ _ => completes_with_words rfl fun _ => upperZero_of_exec nofun

/-- Settles O18: doublewords packed to words, zeros above VL, under the write mask. -/
theorem vpackssdwEvex512Completes : Obligations.VpackssdwEvex512Completes :=
  fun _ _ _ _ _ _ => completes_with_words rfl fun _ => upperZero_of_exec nofun

/-- Settles O56: what each class of form writes above its result. -/
theorem upperBitsAfterEachClass : Obligations.UpperBitsAfterEachClass :=
  fun _ _ _ h => ⟨fun hc => upperKept_of_exec hc h, fun hc => upperZero_of_exec hc h⟩

end Sys2Proof.Proofs
end

section
/-! SUPPORT. What DEST depends on: two forms on the same operands, the write mask, and the bits of a source
at VL and above (spec/10_state.md R12, R13; spec/43_evex.md R66, R68). -/

namespace Sys2Proof.Machine

/-! ### The value written -/

theorem destValue_legacy {i : Instr} (hc : i.form.encClass = .legacy) (s : State) (a b : Vec) :
    destValue i s a b = setLow128 (readV s i.dest) (packOf i.form i.form.vl a b) := by
  simp only [destValue, hc]

theorem destValue_vex {i : Instr} (hc : i.form.encClass = .vex) (s : State) (a b : Vec) :
    destValue i s a b = lowBits i.form.vl (packOf i.form i.form.vl a b) := by
  simp only [destValue, hc]

/-- An EVEX form whose masked elements are those of x writes x below VL (R56, R66). -/
theorem destValue_evex_eq {i : Instr} (hc : i.form.encClass = .evex) {s : State} {a b x : Vec}
    (h : ∀ j, j < i.form.vl.bits / elemWidth i.form →
      maskElem (elemWidth i.form) (lowBits i.form.vl (readV s i.dest)) (packOf i.form i.form.vl a b)
        (maskValue s i.writemask) i.writemask.z j = elem (elemWidth i.form) j x) :
    destValue i s a b = lowBits i.form.vl x := by
  simp only [destValue, hc]
  exact lowBits_maskWrite_eq (elemWidth_pos _) (elemWidth_mul_kl _) h

/-- Without a write mask an EVEX form writes the packed value (R66). -/
theorem destValue_evex_unmasked {i : Instr} (hc : i.form.encClass = .evex)
    (hm : i.writemask = .none) (s : State) (a b : Vec) :
    destValue i s a b = lowBits i.form.vl (packOf i.form i.form.vl a b) :=
  destValue_evex_eq hc fun j _ => by rw [hm]; rfl

/-- Under a mask of ones it writes the packed value too (R68 (b)). -/
theorem destValue_evex_ones {i : Instr} (hc : i.form.encClass = .evex) {s : State} {k : KReg}
    (hm : i.writemask = .merging k ∨ i.writemask = .zeroing k)
    (hk : ∀ j, j < i.form.vl.bits / elemWidth i.form → (s.k[k.toNat]'k.isLt).getLsbD j = true)
    (a b : Vec) : destValue i s a b = lowBits i.form.vl (packOf i.form i.form.vl a b) := by
  refine destValue_evex_eq hc fun j hj => ?_
  rcases hm with hm | hm <;> rw [hm] <;> exact maskElem_of_set _ _ _ _ (hk j hj)

/-- Under a mask of zeros, merging writes DEST's own bits below VL (R68 (c)). -/
theorem destValue_evex_zeros_merging {i : Instr} (hc : i.form.encClass = .evex) {s : State} {k : KReg}
    (hm : i.writemask = .merging k)
    (hk : ∀ j, j < i.form.vl.bits / elemWidth i.form → (s.k[k.toNat]'k.isLt).getLsbD j = false)
    (a b : Vec) : destValue i s a b = lowBits i.form.vl (readV s i.dest) := by
  rw [← lowBits_of_le (le_refl i.form.vl.bits)]
  refine destValue_evex_eq hc fun j hj => ?_
  rw [hm]
  exact maskElem_of_clear_merging _ _ _ (hk j hj)

/-- Under a mask of zeros, zeroing writes zero (R68 (c)). -/
theorem destValue_evex_zeros_zeroing {i : Instr} (hc : i.form.encClass = .evex) {s : State} {k : KReg}
    (hm : i.writemask = .zeroing k)
    (hk : ∀ j, j < i.form.vl.bits / elemWidth i.form → (s.k[k.toNat]'k.isLt).getLsbD j = false)
    (a b : Vec) : destValue i s a b = lowBits i.form.vl 0#512 := by
  refine destValue_evex_eq hc fun j hj => ?_
  rw [hm, elem, BitVec.extractLsb'_zero]
  exact maskElem_of_clear_zeroing _ _ _ (hk j hj)

/-- The six EVEX forms and their KL, as the statements list them. -/
theorem evex_kl {f : Form} {kl : Nat}
    (h : (f = .vpacksswbEvex128 ∧ kl = 16) ∨ (f = .vpacksswbEvex256 ∧ kl = 32) ∨
      (f = .vpacksswbEvex512 ∧ kl = 64) ∨ (f = .vpackssdwEvex128 ∧ kl = 8) ∨
      (f = .vpackssdwEvex256 ∧ kl = 16) ∨ (f = .vpackssdwEvex512 ∧ kl = 32)) :
    f.encClass = .evex ∧ kl = f.vl.bits / elemWidth f := by
  rcases h with ⟨rfl, rfl⟩ | ⟨rfl, rfl⟩ | ⟨rfl, rfl⟩ | ⟨rfl, rfl⟩ | ⟨rfl, rfl⟩ | ⟨rfl, rfl⟩ <;>
    exact ⟨rfl, rfl⟩

/-! ### Two forms on the same operands -/

/-- Two instructions name the same operation, length and operands. -/
structure SameOperation (i i' : Instr) : Prop where
  pack : packOf i.form = packOf i'.form
  vl : i.form.vl = i'.form.vl
  dest : i.dest = i'.dest
  src1 : i.src1 = i'.src1
  src2 : i.src2 = i'.src2

namespace SameOperation

variable {i i' : Instr}

theorem readSrc1_eq (h : SameOperation i i') (s : State) : readSrc1 i s = readSrc1 i' s := by
  rw [readSrc1, readSrc1, h.vl, h.src1]

/-- They read the same value where they read at the same address. -/
theorem srcValue_eq (h : SameOperation i i') {s : State} (hacc : memAccess i s = memAccess i' s) :
    srcValue i s = srcValue i' s := by
  unfold memAccess at hacc
  unfold srcValue
  rw [h.src2, h.vl] at hacc ⊢
  cases hs : i'.src2 with
  | reg r => rfl
  | mem m =>
    simp only [hs, Option.some.injEq, MemAccess.mk.injEq] at hacc
    simp only [hacc.2.1]
  | bcst m =>
    simp only [hs, Option.some.injEq, MemAccess.mk.injEq] at hacc
    simp only [hacc.2.1]

/-- So they pack the same value. -/
theorem packed_eq (h : SameOperation i i') {s : State} (hacc : memAccess i s = memAccess i' s) :
    packOf i.form i.form.vl (readSrc1 i s) (srcValue i s) =
      packOf i'.form i'.form.vl (readSrc1 i' s) (srcValue i' s) := by
  rw [h.readSrc1_eq, h.srcValue_eq hacc, h.pack, h.vl]

end SameOperation

/-- The vector registers after a completion depend on DEST and the value written alone. -/
theorem completed_v_eq {i i' : Instr} {s : State} {b b' : Vec} (hd : i.dest = i'.dest)
    (h : destValue i s (readSrc1 i s) b = destValue i' s (readSrc1 i' s) b') :
    (completed i s b).v = (completed i' s b').v := by
  simp only [completed, advance_v, writeV, hd, h, afterRead]

theorem ReadsAlike.srcValue_eq {i i' : Instr} (h : ReadsAlike i i') (s : State) :
    srcValue i s = srcValue i' s := by
  simp only [srcValue, h.form, h.src2, h.operandAddr_eq]

/-- Instructions that read alike and write the same value to the same DEST leave the same state. -/
theorem ReadsAlike.completed_eq {i i' : Instr} (h : ReadsAlike i i') {s : State} {b : Vec}
    (hd : i.dest = i'.dest)
    (hval : destValue i s (readSrc1 i s) b = destValue i' s (readSrc1 i' s) b) :
    completed i s b = completed i' s b := by
  simp only [completed, afterRead, h.eventsOf_eq, h.len, hd, hval]

/-- Leaving out the write mask of an EVEX form changes neither the read nor the sources, and leaves a term
of the mode. -/
structure Unmasks (i i0 : Instr) : Prop where
  evex : i.form.encClass = .evex
  alike : ReadsAlike i i0
  dest : i.dest = i0.dest
  src1 : i.src1 = i0.src1
  unmasked : i0.writemask = .none
  wellFormed : ∀ c, i.wellFormed c = true → i0.wellFormed c = true

theorem Unmasks.runs {i i0 : Instr} (h : Unmasks i i0) {s : State} (hruns : runs i s = true) :
    runs i0 s = true := by
  obtain ⟨hav, hready⟩ := (runs_iff i s).1 hruns
  have hwf := ((available_iff i s).1 hav).1
  refine (runs_iff i0 s).2 ⟨?_, ?_⟩
  · rw [← h.alike.available_eq (hwf.trans (h.wellFormed _ hwf).symm), hav]
  · have hread := (readSrc2_ok_iff i s _ _).2 ⟨hready, rfl, rfl⟩
    rw [h.alike.readSrc2_eq] at hread
    exact (readSrc2_ok hread).1

/-- A mask of ones gives the outcome of no mask (R68 (b)). -/
theorem Unmasks.exec_eq_of_ones {i i0 : Instr} (h : Unmasks i i0) {s : State} {k : KReg}
    (hm : i.writemask = .merging k ∨ i.writemask = .zeroing k)
    (hk : ∀ j, j < i.form.vl.bits / elemWidth i.form → (s.k[k.toNat]'k.isLt).getLsbD j = true)
    (hruns : Machine.runs i s = true) : exec i s = exec i0 s := by
  rw [exec_of_runs hruns, exec_of_runs (h.runs hruns), ← h.alike.srcValue_eq]
  congr 1
  refine h.alike.completed_eq h.dest ?_
  rw [destValue_evex_ones h.evex hm hk, destValue_evex_unmasked (h.alike.form ▸ h.evex) h.unmasked]
  simp only [readSrc1, h.alike.form, h.src1]

theorem unmasks_evexWb (vl : VecLen) (p : Pfx) (wm : Writemask) (d s1 : VReg) (src2 : RegMem) :
    Unmasks (evexWb vl p wm d s1 src2) (evexWb vl p .none d s1 src2) := by
  have hwf (c : Config) (h : (evexWb vl p wm d s1 src2).wellFormed c = true) :
      (evexWb vl p .none d s1 src2).wellFormed c = true := by
    obtain ⟨hregs, haddr, -, hmode⟩ := (wellFormed_iff c _).1 h
    refine (wellFormed_iff c _).2 ?_
    cases vl <;> exact ⟨hregs, haddr, rfl, hmode⟩
  cases vl <;> exact ⟨rfl, ⟨rfl, rfl, rfl, rfl⟩, rfl, rfl, rfl, hwf⟩

theorem unmasks_evexDw (vl : VecLen) (p : Pfx) (wm : Writemask) (d s1 : VReg) (src2 : RegMemBcst) :
    Unmasks (evexDw vl p wm d s1 src2) (evexDw vl p .none d s1 src2) := by
  have hwf (c : Config) (h : (evexDw vl p wm d s1 src2).wellFormed c = true) :
      (evexDw vl p .none d s1 src2).wellFormed c = true := by
    obtain ⟨hregs, haddr, -, hmode⟩ := (wellFormed_iff c _).1 h
    refine (wellFormed_iff c _).2 ?_
    cases vl <;> exact ⟨hregs, haddr, rfl, hmode⟩
  cases vl <;> exact ⟨rfl, ⟨rfl, rfl, rfl, rfl⟩, rfl, rfl, rfl, hwf⟩

/-! ### Another opmask file -/

/-- The value an EVEX form writes takes nothing from the opmask file but bits KL-1:0 of the named register
(R13). -/
theorem destValue_opmasks {i : Instr} (hc : i.form.encClass = .evex) {s : State}
    {k' : Vector (BitVec 64) 8}
    (hk : ∀ k j, i.writemask = .merging k ∨ i.writemask = .zeroing k →
      j < i.form.vl.bits / elemWidth i.form →
      (k'[k.toNat]'k.isLt).getLsbD j = (s.k[k.toNat]'k.isLt).getLsbD j) (a b : Vec) :
    destValue i { s with k := k' } a b = destValue i s a b := by
  simp only [destValue, hc]
  congr 1
  cases hm : i.writemask with
  | none => rfl
  | merging k => exact maskWrite_congr _ _ _ _ _ fun j hj => hk k j (.inl hm) hj
  | zeroing k => exact maskWrite_congr _ _ _ _ _ fun j hj => hk k j (.inr hm) hj

/-- Nothing else of an instruction looks at the opmask file. -/
theorem completed_opmasks {i : Instr} {s : State} {k' : Vector (BitVec 64) 8}
    (h : ∀ a b, destValue i { s with k := k' } a b = destValue i s a b) :
    completed i { s with k := k' } (srcValue i { s with k := k' }) =
      { completed i s (srcValue i s) with k := k' } := by
  rw [completed, h]
  rfl

theorem runs_opmasks (i : Instr) (s : State) (k' : Vector (BitVec 64) 8) :
    runs i { s with k := k' } = runs i s := rfl

/-! ### Another vector register file -/

theorem runs_vregs (i : Instr) (s : State) (v' : Vector Vec 32) :
    runs i { s with v := v' } = runs i s := rfl

section Vregs

variable {i : Instr} {s : State} {v' : Vector Vec 32}
  (h : ∀ (r : VReg) (b : Nat), b < i.form.vl.bits →
    (readV { s with v := v' } r).getLsbD b = (readV s r).getLsbD b)

include h

/-- The sources are cut at VL, so they are the same in files that agree below VL (R12). -/
theorem readSrc1_vregs : readSrc1 i { s with v := v' } = readSrc1 i s :=
  lowBits_congr fun b hb => h i.src1 b hb

theorem srcValue_vregs : srcValue i { s with v := v' } = srcValue i s := by
  unfold srcValue
  cases i.src2 with
  | reg r => exact lowBits_congr fun b hb => h r b hb
  | mem m => rfl
  | bcst m => rfl

/-- A VEX or EVEX form writes the same value: what it keeps of DEST is cut at VL too. -/
theorem destValue_vregs (hc : i.form.encClass ≠ .legacy) (a b : Vec) :
    destValue i { s with v := v' } a b = destValue i s a b := by
  have hold : lowBits i.form.vl (readV { s with v := v' } i.dest) =
      lowBits i.form.vl (readV s i.dest) := lowBits_congr fun b hb => h i.dest b hb
  cases hcl : i.form.encClass with
  | legacy => exact absurd hcl hc
  | vex => simp only [destValue, hcl]
  | evex =>
    simp only [destValue, hcl, hold]
    rfl

/-- Every form writes the same bits below VL. -/
theorem destValue_vregs_low (a b : Vec) {n : Nat} (hn : n < i.form.vl.bits) :
    (destValue i { s with v := v' } a b).getLsbD n = (destValue i s a b).getLsbD n := by
  by_cases hc : i.form.encClass = .legacy
  · rw [destValue_legacy hc, destValue_legacy hc, getLsbD_setLow128, getLsbD_setLow128,
      if_pos (vl_of_legacy hc ▸ hn), if_pos (vl_of_legacy hc ▸ hn)]
  · rw [destValue_vregs h hc]

/-- DEST after the two completions, from the values written. -/
theorem readV_completed_vregs :
    readV (completed i { s with v := v' } (srcValue i { s with v := v' })) i.dest =
      lowBits s.cfg.maxvl (destValue i { s with v := v' } (readSrc1 i s) (srcValue i s)) := by
  rw [readV_completed, readSrc1_vregs h, srcValue_vregs h]

end Vregs

/-! ### A register as the last operand -/

theorem srcReady_reg {i : Instr} {r : VReg} (h : i.src2 = .reg r) (s : State) :
    srcReady i s = true := by
  simp only [srcReady, memAccess, h]

theorem srcWord_reg {i : Instr} {r : VReg} (h : i.src2 = .reg r) (s : State) (u : Nat) :
    srcWord i s u = elem 16 u (readV s r) := by
  simp only [srcWord, srcByte, h, word_of_bytes]

theorem srcDword_reg {i : Instr} {r : VReg} (h : i.src2 = .reg r) (s : State) (u : Nat) :
    srcDword i s u = elem 32 u (readV s r) := by
  simp only [srcDword, srcByte, h, dword_of_bytes]

/-- With SRC = SRC1 both halves of the first lane are packed from that register (R60 (a)). -/
theorem packedByte_self {i : Instr} (h : i.src2 = .reg i.src1) (s : State) {j : Nat} (hj : j < 8) :
    packedByte i s j = satSW2SB (elem 16 j (readV s i.src1)) ∧
      packedByte i s (8 + j) = satSW2SB (elem 16 j (readV s i.src1)) := by
  have hlow : 8 * (j / 16) + j % 16 = j := by omega
  have hhigh : 8 * ((8 + j) / 16) + ((8 + j) % 16 - 8) = j := by omega
  rw [packedByte, packedByte, if_pos (by omega), if_neg (by omega), hlow, hhigh, srcWord_reg h]
  exact ⟨rfl, rfl⟩

theorem packedWord_self {i : Instr} (h : i.src2 = .reg i.src1) (s : State) {j : Nat} (hj : j < 4) :
    packedWord i s j = satSD2SW (elem 32 j (readV s i.src1)) ∧
      packedWord i s (4 + j) = satSD2SW (elem 32 j (readV s i.src1)) := by
  have hlow : 4 * (j / 8) + j % 8 = j := by omega
  have hhigh : 4 * ((4 + j) / 8) + ((4 + j) % 8 - 4) = j := by omega
  rw [packedWord, packedWord, if_pos (by omega), if_neg (by omega), hlow, hhigh, srcDword_reg h]
  exact ⟨rfl, rfl⟩

end Sys2Proof.Machine
end

section
/-! PROOFS. Relations between forms, and what a form does not read: the statements about spec/43_evex.md,
spec/41_legacy_sse.md and spec/10_state.md. -/

namespace Sys2Proof.Proofs

open Sys2Proof.Machine

/-- Settles O49: without a write mask the EVEX form writes the packed value below VL, as the VEX form does. -/
theorem unmaskedEvexEqualsVex : Obligations.UnmaskedEvexEqualsVex := by
  intro s p vex3 d s1 src2 iv ie hforms hv he hacc
  have hboth : iv.form.encClass = .vex ∧ ie.form.encClass = .evex ∧ ie.writemask = .none ∧
      SameOperation iv ie := by
    rcases hforms with ⟨rfl, rfl⟩ | ⟨rfl, rfl⟩ | ⟨rfl, rfl⟩ | ⟨rfl, rfl⟩ <;>
      exact ⟨rfl, rfl, rfl, rfl, rfl, rfl, rfl, rfl⟩
  obtain ⟨hvex, hevex, hmask, hsame⟩ := hboth
  refine ⟨_, _, exec_of_runs hv, exec_of_runs he, completed_v_eq hsame.dest ?_⟩
  rw [destValue_vex hvex, destValue_evex_unmasked hevex hmask, hsame.packed_eq hacc, hsame.vl]

/-- Settles O50: both write the same packed value at bits 127:0; above them each class does what it always
does. -/
theorem legacyAgainstVex128 : Obligations.LegacyAgainstVex128 := by
  intro s p rex vex3 d src il iv hforms hl hv hacc
  have hboth : il.form.encClass = .legacy ∧ iv.form.encClass = .vex ∧ iv.form.vl = .v128 ∧
      il.dest = d ∧ iv.dest = d ∧ SameOperation il iv := by
    rcases hforms with ⟨rfl, rfl⟩ | ⟨rfl, rfl⟩ <;>
      exact ⟨rfl, rfl, rfl, rfl, rfl, rfl, rfl, rfl, rfl, rfl⟩
  obtain ⟨hleg, hvex, h128, rfl, hdest, hsame⟩ := hboth
  have hexl := exec_of_runs hl
  have hexv := exec_of_runs hv
  refine ⟨_, _, hexl, hexv, fun b hb => ?low,
    fun b hb hmax => ⟨upperKept_of_exec hleg hexl b hb hmax, ?zeroed⟩⟩
  case low =>
    have hvl : b < iv.form.vl.bits := by rwa [h128]
    rw [readV_completed, ← hdest, readV_completed, destValue_legacy hleg, destValue_vex hvex,
      hsame.packed_eq hacc]
    simp only [getLsbD_lowBits, getLsbD_setLow128, hb, if_true, hvl, decide_true, Bool.true_and]
  case zeroed =>
    rw [← hdest]
    exact upperZero_of_exec (by simp [hvex]) hexv b (by rwa [h128])

/-- Settles O51: DEST's elements are the packed ones, and both sources are its old value. -/
theorem selfPackUsesOldValue : Obligations.SelfPackUsesOldValue := by
  intro s p rex d
  refine ⟨fun hav => ?bytes, fun hav => ?words⟩
  case bytes =>
    have hexec := exec_of_runs ((runs_iff _ s).2 ⟨hav, srcReady_reg rfl s⟩)
    refine ⟨_, hexec, fun j hj => ?_⟩
    have hdest := destBytes_of_exec rfl hexec
    obtain ⟨hlow, hhigh⟩ := packedByte_self (i := .packsswbSse128 p rex d (.reg d)) rfl s hj
    exact ⟨(hdest j (show j < 16 by omega)).trans hlow,
      (hdest (8 + j) (show 8 + j < 16 by omega)).trans hhigh⟩
  case words =>
    have hexec := exec_of_runs ((runs_iff _ s).2 ⟨hav, srcReady_reg rfl s⟩)
    refine ⟨_, hexec, fun j hj => ?_⟩
    have hdest := destWords_of_exec rfl hexec
    obtain ⟨hlow, hhigh⟩ := packedWord_self (i := .packssdwSse128 p rex d (.reg d)) rfl s hj
    have hwords : VecLen.v128.bytes / 2 = 8 := rfl
    exact ⟨(hdest j (show j < VecLen.v128.bytes / 2 by omega)).trans hlow,
      (hdest (4 + j) (show 4 + j < VecLen.v128.bytes / 2 by omega)).trans hhigh⟩

/-- Settles O52: under a mask of ones every element is the packed one, as without a mask, and the mask plays
no part in the rest. -/
theorem allOnesMaskEqualsNoMask : Obligations.AllOnesMaskEqualsNoMask := by
  intro s k wm i i0 kl hwm hforms hk hruns
  have hall : Unmasks i i0 ∧ i.writemask = wm ∧ kl = i.form.vl.bits / elemWidth i.form := by
    rcases hforms with ⟨p, d, s1, src2, hwb⟩ | ⟨p, d, s1, src2, hdw⟩
    · rcases hwb with ⟨rfl, rfl, rfl⟩ | ⟨rfl, rfl, rfl⟩ | ⟨rfl, rfl, rfl⟩
      · exact ⟨unmasks_evexWb .v128 .., rfl, (evex_kl (f := .vpacksswbEvex128) (by simp)).2⟩
      · exact ⟨unmasks_evexWb .v256 .., rfl, (evex_kl (f := .vpacksswbEvex256) (by simp)).2⟩
      · exact ⟨unmasks_evexWb .v512 .., rfl, (evex_kl (f := .vpacksswbEvex512) (by simp)).2⟩
    · rcases hdw with ⟨rfl, rfl, rfl⟩ | ⟨rfl, rfl, rfl⟩ | ⟨rfl, rfl, rfl⟩
      · exact ⟨unmasks_evexDw .v128 .., rfl, (evex_kl (f := .vpackssdwEvex128) (by simp)).2⟩
      · exact ⟨unmasks_evexDw .v256 .., rfl, (evex_kl (f := .vpackssdwEvex256) (by simp)).2⟩
      · exact ⟨unmasks_evexDw .v512 .., rfl, (evex_kl (f := .vpackssdwEvex512) (by simp)).2⟩
  obtain ⟨hun, rfl, rfl⟩ := hall
  exact hun.exec_eq_of_ones hwm hk hruns

/-- Settles O53: under a mask of zeros the value written is zero, or DEST's own bits below VL. -/
theorem allZerosMask : Obligations.AllZerosMask := by
  intro s k i kl hform hk hruns
  obtain ⟨hc, rfl⟩ := evex_kl hform
  have hle := vl_le_maxvl ((runs_iff i s).1 hruns).1
  refine ⟨_, exec_of_runs hruns, fun hm => ?zeroing, fun hm b => ?merging⟩
  case zeroing =>
    rw [readV_completed, destValue_evex_zeros_zeroing hc hm hk, lowBits_of_le hle]
    exact BitVec.eq_of_getLsbD_eq fun b _ => by simp [getLsbD_lowBits]
  case merging =>
    rw [readV_completed, destValue_evex_zeros_merging hc hm hk, lowBits_of_le hle, getLsbD_lowBits]

/-- Settles O54: the value written is the same, and nothing else of an instruction looks at the opmask file.
-/
theorem opmaskBitsAboveKLIgnored : Obligations.OpmaskBitsAboveKLIgnored := by
  intro s k' i kl t hform hk h
  obtain ⟨hc, rfl⟩ := evex_kl hform
  obtain ⟨hruns, rfl⟩ := (exec_next_iff_runs i s t).1 h
  exact (exec_next_iff_runs _ _ _).2 ⟨(runs_opmasks i s k').trans hruns,
    (completed_opmasks fun a b => destValue_opmasks hc hk a b).symm⟩

/-- Settles O55: the sources are read cut at VL, and so is what an EVEX form keeps of DEST. -/
theorem sourceBitsAboveVLIgnored : Obligations.SourceBitsAboveVLIgnored := by
  intro s v' i t hv h
  obtain ⟨hruns, rfl⟩ := (exec_next_iff_runs i s t).1 h
  refine ⟨_, exec_of_runs ((runs_vregs i s v').trans hruns), fun b hb => ?low, fun hc => ?all⟩
  case low =>
    rw [readV_completed_vregs hv, readV_completed, getLsbD_lowBits, getLsbD_lowBits,
      destValue_vregs_low hv _ _ hb]
  case all => rw [readV_completed_vregs hv, readV_completed, destValue_vregs hv hc]

end Sys2Proof.Proofs
end

section
/-! SUPPORT. The causes of a fault of the operand read, and the outcome each stop of the read gives
(spec/60_exceptions.md R80 to R89, spec/20_memory.md R20 to R27). -/

namespace Sys2Proof.Machine

/-! ### What the launch memory answers -/

theorem admitted_iff (s : State) (a : MemAccess) :
    admitted s a = true ↔
      inSpace s a = true ∧ touches RegionKind.isUnadmitted s a = false ∧
        touches RegionKind.isDevice s a = false := by
  simp only [admitted, Bool.and_eq_true, Bool.not_eq_true', and_assoc]

/-- A page-faulting region is found exactly where some byte of the access lies in one. -/
theorem touches_isPageFault_of_first {s : State} {a : MemAccess} {kd : RegionKind}
    (h : firstRegion RegionKind.isPageFault s.regions a.addr a.size = some kd) :
    touches RegionKind.isPageFault s a = true := by
  rw [touches, ← firstRegion_isSome, h]
  rfl

/-- An admitted access that meets a segment fault is answered with it (R86, R87, assumption 7). -/
theorem accessVerdict_segFault {s : State} {a : MemAccess} (hadm : admitted s a = true)
    (hseg : touches RegionKind.isSegFault s a = true) :
    accessVerdict s a.seg a.addr a.size = some (.fault (segFaultOf a.seg)) := by
  obtain ⟨hin, hun, hdev⟩ := (admitted_iff s a).1 hadm
  simp [accessVerdict_eq, hin, hun, hdev, hseg]

/-- One that meets none is answered with the code of its lowest page-faulting byte (R85, assumption 7). -/
theorem accessVerdict_pageFault {s : State} {a : MemAccess} {code : BitVec 32}
    (hadm : admitted s a = true) (hseg : touches RegionKind.isSegFault s a = false)
    (hpage : firstRegion RegionKind.isPageFault s.regions a.addr a.size = some (.pageFault code)) :
    accessVerdict s a.seg a.addr a.size = some (.fault (.pf code)) := by
  obtain ⟨hin, hun, hdev⟩ := (admitted_iff s a).1 hadm
  simp [accessVerdict_eq, hin, hun, hdev, hseg, hpage]

/-- The oracle's faults, each with the checks before it passed (R85 to R87, R89). -/
theorem accessVerdict_fault_cause {s : State} {a : MemAccess} {f : Fault}
    (h : accessVerdict s a.seg a.addr a.size = some (.fault f)) :
    admitted s a = true ∧
      ((touches RegionKind.isSegFault s a = true ∧ f = segFaultOf a.seg) ∨
        (touches RegionKind.isSegFault s a = false ∧ touches RegionKind.isPageFault s a = true ∧
          ∃ code, f = .pf code)) := by
  rw [accessVerdict_eq] at h
  split at h
  case isTrue => cases h
  next hin =>
  split at h
  case isTrue => cases h
  next hun =>
  split at h
  case isTrue => cases h
  next hdev =>
  refine ⟨(admitted_iff s a).2 ⟨by simpa using hin, by simpa using hun, by simpa using hdev⟩, ?_⟩
  split at h
  case isTrue hseg =>
    cases h
    exact .inl ⟨hseg, rfl⟩
  next hseg =>
  split at h
  · next code hpage =>
    cases h
    exact .inr ⟨by simpa using hseg, touches_isPageFault_of_first hpage, code, rfl⟩
  · cases h

/-! ### The causes of a fault -/

/-- The causes of a fault of an access, in R89's order: Legacy SSE alignment, the oracle's segment fault,
its page fault, and the alignment of a broadcast. -/
def FaultCause (i : Instr) (s : State) (a : MemAccess) (f : Fault) : Prop :=
  (f = .gp0 ∧ i.form.encClass = .legacy ∧ a.addr % 16 ≠ 0) ∨
  (f = segFaultOf a.seg ∧ reachesRead i s a = true ∧ admitted s a = true ∧
    touches RegionKind.isSegFault s a = true) ∨
  (∃ code, f = .pf code ∧ reachesRead i s a = true ∧ admitted s a = true ∧
    touches RegionKind.isSegFault s a = false ∧ touches RegionKind.isPageFault s a = true) ∨
  (f = .ac0 ∧ i.src2.isBcst = true ∧ readable s a = true ∧ s.cfg.alignCheck = true ∧ a.addr % 4 ≠ 0)

/-- A read that faults has its cause, with the checks before it passed. -/
theorem faultCause_of_stop {i : Instr} {s : State} {a : MemAccess} {f : Fault}
    (h : stopOf i s a = some (.fault f)) : FaultCause i s a f := by
  unfold stopOf at h
  split at h
  case isTrue hreach =>
    unfold alignStopOf at h
    cases hc : i.form.encClass <;>
      simp only [hc, Option.some.injEq, Stop.fault.injEq, reduceCtorEq] at h
    exact .inl ⟨h.symm, hc, by simpa [reachesRead_legacy hc] using hreach⟩
  next hreach =>
  rw [Bool.not_eq_false] at hreach
  split at h
  · next hv =>
    rcases accessVerdict_fault_cause (hv.trans h) with ⟨hadm, ⟨hseg, hf⟩ | ⟨hseg, hpage, code, hf⟩⟩
    · exact .inr (.inl ⟨hf, hreach, hadm, hseg⟩)
    · exact .inr (.inr (.inl ⟨code, hf, hreach, hadm, hseg, hpage⟩))
  next hv =>
  split at h
  · next hac =>
    cases h
    exact .inr (.inr (.inr ⟨rfl, hac.1, (accessVerdict_none_iff s a).1 hv, hac.2⟩))
  · cases h

theorem segFaultOf_ss {g : Seg} (h : g = .ss) : segFaultOf g = .ss0 := if_pos h

theorem segFaultOf_ne_ss {g : Seg} (h : g ≠ .ss) : segFaultOf g = .gp0 := if_neg h

/-- `UD` is a first check's, never the read's (R82, R89). -/
theorem faultCause_ne_ud (i : Instr) (s : State) (a : MemAccess) : ¬FaultCause i s a .ud := by
  rintro (⟨hf, -⟩ | ⟨hf, -⟩ | ⟨code, hf, -⟩ | ⟨hf, -⟩)
  · cases hf
  · unfold segFaultOf at hf
    split at hf <;> cases hf
  · cases hf
  · cases hf

/-- `AC(0)` is the broadcast's alone (R88). -/
theorem faultCause_ac0 {i : Instr} {s : State} {a : MemAccess} (h : FaultCause i s a .ac0) :
    i.src2.isBcst = true ∧ readable s a = true ∧ s.cfg.alignCheck = true ∧ a.addr % 4 ≠ 0 := by
  rcases h with ⟨hf, -⟩ | ⟨hf, -⟩ | ⟨code, hf, -⟩ | ⟨-, h⟩
  · cases hf
  · unfold segFaultOf at hf
    split at hf <;> cases hf
  · cases hf
  · exact h

/-- Past the first checks every fault is the access's, with its cause (R89). -/
theorem faultCause_of_read {i : Instr} {s : State} {f : Fault}
    (h : readSrc2 i s = .error (.fault f)) :
    ∃ a, memAccess i s = some a ∧ FaultCause i s a f := by
  obtain ⟨a, hacc, hstop⟩ := (readSrc2_error_iff i s _).1 h
  exact ⟨a, hacc, faultCause_of_stop hstop⟩

/-! ### The outcome of a stop -/

/-- Past the first checks the outcome of an access that stops is its stop. -/
theorem exec_of_stop {i : Instr} {s : State} {a : MemAccess} {st : Stop} (hav : available i s = true)
    (hacc : memAccess i s = some a) (hstop : stopOf i s a = some st) : exec i s = st.outcome := by
  have hread := (readSrc2_error_iff i s st).2 ⟨a, hacc, hstop⟩
  cases st with
  | fault f => exact (exec_fault_iff_of_available hav f).2 ⟨a, hacc, hstop⟩
  | refuse r => exact (exec_refused_iff i s r).2 (.inr ⟨hav, hread⟩)

/-- An access that reaches `MemRead` stops as the launch memory says. -/
theorem stopOf_of_verdict {i : Instr} {s : State} {a : MemAccess} {st : Stop}
    (hreach : reachesRead i s a = true) (hv : accessVerdict s a.seg a.addr a.size = some st) :
    stopOf i s a = some st := by
  simp [stopOf, hreach, hv]

theorem exec_of_verdict {i : Instr} {s : State} {a : MemAccess} {st : Stop}
    (hav : available i s = true) (hacc : memAccess i s = some a) (hreach : reachesRead i s a = true)
    (hv : accessVerdict s a.seg a.addr a.size = some st) : exec i s = st.outcome :=
  exec_of_stop hav hacc (stopOf_of_verdict hreach hv)

/-- A readable broadcast operand that is not 4-byte aligned stops under `AlignCheck` (R88). -/
theorem stopOf_misaligned_broadcast {i : Instr} {s : State} {a : MemAccess}
    (hb : i.src2.isBcst = true) (hread : readable s a = true) (hac : s.cfg.alignCheck = true)
    (ha : a.addr % 4 ≠ 0) : stopOf i s a = some (.fault .ac0) := by
  have hv := (accessVerdict_none_iff s a).2 hread
  simp [stopOf, reachesRead, hb, hv, hac, ha]

/-- A wide VEX or EVEX operand that is not aligned stops under `AlignCheck` (R23, assumption 22). -/
theorem stopOf_misaligned_wide {i : Instr} {s : State} {a : MemAccess}
    (hb : i.src2.isBcst = false) (hc : i.form.encClass ≠ .legacy) (hac : s.cfg.alignCheck = true)
    (ha : a.addr % a.size ≠ 0) : stopOf i s a = some (.refuse .wideMisaligned) := by
  unfold stopOf reachesRead aligned alignStopOf
  cases hcl : i.form.encClass with
  | legacy => exact absurd hcl hc
  | vex => simp [hb, hac, ha]
  | evex => simp [hb, hac, ha]

theorem isBcst_iff (x : RegMemBcst) : x.isBcst = true ↔ ∃ m, x = .bcst m := by
  cases x <;> simp [RegMemBcst.isBcst]

/-- A full-width access has VL/8 bytes (R22). -/
theorem size_of_mem {i : Instr} {s : State} {m : AddrMode} {a : MemAccess} (hm : i.src2 = .mem m)
    (hacc : memAccess i s = some a) : a.size = i.form.vl.bytes := by
  simp only [memAccess, hm, Option.some.injEq] at hacc
  rw [← hacc]

theorem memAccess_reg {i : Instr} {r : VReg} (h : i.src2 = .reg r) (s : State) :
    memAccess i s = none := by
  simp only [memAccess, h]

end Sys2Proof.Machine
end

section
/-! PROOFS. Faults and refusals: the statements about spec/60_exceptions.md and spec/20_memory.md. -/

namespace Sys2Proof.Proofs

open Sys2Proof.Machine

/-- Settles O19: the first check gives `UD`, and of the causes of a fault no other does. -/
theorem disabledFormRaisesUD : Obligations.DisabledFormRaisesUD := by
  intro i s hwf
  refine ⟨fun hoff => (exec_fault_iff i s .ud).2 ⟨hwf, .inl ⟨rfl, hoff⟩⟩, fun h => ?_⟩
  obtain ⟨-, ⟨-, hoff⟩ | ⟨hnm, -⟩ | ⟨-, hread⟩⟩ := (exec_fault_iff i s .ud).1 h
  · exact hoff
  · cases hnm
  · obtain ⟨a, -, hcause⟩ := faultCause_of_read hread
    exact absurd hcause (faultCause_ne_ud i s a)

/-- Settles O22: the first page-faulting region found is that of the lowest such byte. -/
theorem pageFaultIsTaken : Obligations.PageFaultIsTaken := by
  intro i s a j code hav hacc hreach hadm hseg hj hcode hbelow
  have hpage := firstRegion_page s.regions code a.size a.addr j hj hcode hbelow
  exact exec_of_verdict hav hacc hreach (accessVerdict_pageFault hadm hseg hpage)

/-- Settles O23: the segment used decides between the two faults. -/
theorem segmentFaultIsTaken : Obligations.SegmentFaultIsTaken := by
  intro i s a hav hacc hreach hadm hseg
  have hexec := exec_of_verdict hav hacc hreach (accessVerdict_segFault hadm hseg)
  exact ⟨fun hss => segFaultOf_ss hss ▸ hexec, fun hne => segFaultOf_ne_ss hne ▸ hexec⟩

/-- Settles O25: `AC(0)` has the one cause; a full-width operand is stopped before the read, by its class. -/
theorem alignCheckRaisesAC : Obligations.AlignCheckRaisesAC := by
  intro i s hav
  refine ⟨fun m a hm hacc hac hread ha => ?broadcast, fun h => ?onlyThen,
    fun m a hm hacc hc hac ha => ?wide, fun m a hm hacc hc ha => ?legacy⟩
  case broadcast =>
    exact exec_of_stop hav hacc
      (stopOf_misaligned_broadcast ((isBcst_iff _).2 ⟨m, hm⟩) hread hac ha)
  case onlyThen =>
    obtain ⟨a, hacc, hstop⟩ := (exec_fault_iff_of_available hav .ac0).1 h
    obtain ⟨hb, hread, hac, ha⟩ := faultCause_ac0 (faultCause_of_stop hstop)
    obtain ⟨m, hm⟩ := (isBcst_iff _).1 hb
    exact ⟨hac, m, a, hm, hacc, hread, ha⟩
  case wide => exact exec_of_stop hav hacc (stopOf_misaligned_wide (by rw [hm]; rfl) hc hac ha)
  case legacy =>
    have hsize : a.size = 16 := by
      have hbits := vl_of_legacy hc
      rw [VecLen.bits, ← size_of_mem hm hacc] at hbits
      omega
    exact exec_of_stop hav hacc (stopOf_legacy_misaligned hc s (hsize ▸ ha))

/-- Settles O26: a fault is the first check's, the second check's, or the access's with its cause. -/
theorem everyFaultHasItsCause : Obligations.EveryFaultHasItsCause := by
  intro i s f h
  obtain ⟨hwf, hud | hnm | ⟨hav, hread⟩⟩ := (exec_fault_iff i s f).1 h
  · exact ⟨hwf, .inl hud⟩
  · exact ⟨hwf, .inr (.inl hnm)⟩
  · exact ⟨hwf, .inr (.inr ⟨hav, faultCause_of_read hread⟩)⟩

/-- Settles O27: a register operand makes no access, so its read neither faults nor stops. -/
theorem registerFormsFaultOnlyUDNM : Obligations.RegisterFormsFaultOnlyUDNM := by
  intro i r s hr
  refine ⟨fun f h => ?_, fun hav => ⟨_, exec_of_runs ((runs_iff i s).2 ⟨hav, srcReady_reg hr s⟩)⟩⟩
  obtain ⟨-, ⟨hud, -⟩ | ⟨hnm, -⟩ | ⟨-, hread⟩⟩ := (exec_fault_iff i s f).1 h
  · exact .inl hud
  · exact .inr hnm
  · obtain ⟨a, hacc, -⟩ := faultCause_of_read hread
    exact absurd ((memAccess_reg hr s).symm.trans hacc) (by simp)

/-- Settles O28: the three refusals of the launch memory, in the order it asks them. -/
theorem unmodelledAccessIsRefused : Obligations.UnmodelledAccessIsRefused := by
  intro i s a hav hacc hreach
  refine ⟨fun hout => ?wraps, fun hin hun => ?hole, fun hin hun hdev => ?device⟩
  case wraps =>
    exact exec_of_verdict (st := .refuse .addressWraps) hav hacc hreach (by simp [accessVerdict_eq, hout])
  case hole =>
    exact exec_of_verdict (st := .refuse .notAdmitted) hav hacc hreach
      (by simp [accessVerdict_eq, hin, hun])
  case device =>
    exact exec_of_verdict (st := .refuse .deviceMemory) hav hacc hreach
      (by simp [accessVerdict_eq, hin, hun, hdev])

end Sys2Proof.Proofs
end

section
/-! SUPPORT. The address of an operand as an integer modulo a power of two, and lists of cells under many
writes (spec/30_encoding.md R45, R46, R49; spec/20_memory.md R21). -/

namespace Sys2Proof.Machine

/-! ### The effective address -/

theorem addr32_w64 {s : State} (h : s.cfg.aw = .w64) (p : Pfx) : addr32 s p = p.a32 := by
  simp [addr32, h]

/-- A value cut to 32 bits is the integer's residue modulo 2^32. -/
theorem Cong.toNat_narrow_eq {a : Addr} {z : Int} (h : Cong 32 a z) :
    ((Machine.narrow true a).toNat : Int) = z % 2 ^ 32 := by
  rw [toNat_narrow_true, Int.natCast_emod]
  exact h

/-- Without `67` the offset is R45's row modulo 2^64. -/
theorem offsetOf_wide {s : State} {p : Pfx} (h : s.cfg.aw = .w64) (hp : p.a32 = false) (ilen n : Nat)
    (m : AddrMode) :
    ((offsetOf s p ilen n m).toNat : Int) =
      addrSum (fun r => (readX s r).toNat) (s.pc.toNat + ilen) n m % 2 ^ 64 := by
  have his : addr32 s p = false := (addr32_w64 h p).trans hp
  have hreg (r : GReg) : Cong 64 (narrow (addr32 s p) (readX s r)) ((readX s r).toNat) := by
    rw [his]
    exact Cong.self _
  obtain ⟨raw, hraw, hcong⟩ := offsetOf_cong le_rfl ilen n hreg (fun _ => rfl)
    (fun h32 => absurd (h.symm.trans h32) (by decide)) m
  rw [hraw, his, narrow_false]
  exact hcong.toNat_eq

/-- Under `67` it is the row of the low 32 bits, modulo 2^32 (R45). -/
theorem offsetOf_narrow {s : State} {p : Pfx} (h : s.cfg.aw = .w64) (hp : p.a32 = true) (ilen n : Nat)
    (m : AddrMode) :
    ((offsetOf s p ilen n m).toNat : Int) =
      addrSum (fun r => (readX s r).toNat % 2 ^ 32) (s.pc.toNat + ilen) n m % 2 ^ 32 := by
  have his : addr32 s p = true := (addr32_w64 h p).trans hp
  have hreg (r : GReg) : Cong 32 (narrow (addr32 s p) (readX s r)) ((readX s r).toNat % 2 ^ 32 : Nat) := by
    rw [his, ← toNat_narrow_true]
    exact Cong.self _
  obtain ⟨raw, hraw, hcong⟩ := offsetOf_cong (w := 32) (by decide) ilen n hreg (fun _ => rfl)
    (fun h32 => absurd (h.symm.trans h32) (by decide)) m
  rw [hraw, his]
  exact hcong.toNat_narrow_eq

/-- In 64-bit mode the address is the segment base plus the offset, modulo 2^64 (R45). -/
theorem effAddr_w64 {s : State} (h : s.cfg.aw = .w64) (p : Pfx) (ilen n : Nat) (m : AddrMode) :
    effAddr s p ilen n m = segBaseOf s (segOf p m) + offsetOf s p ilen n m := by
  rw [effAddr, h]
  rfl

/-- Only FS and GS add a base there. -/
theorem segBaseOf_w64 {s : State} (h : s.cfg.aw = .w64) {g : Seg} (hfs : g ≠ .fs) (hgs : g ≠ .gs) :
    segBaseOf s g = 0#64 := by
  cases g <;> simp [segBaseOf, h] at hfs hgs ⊢

/-- In 32-bit mode it is the segment base plus R45's row, modulo 2^32 (R49). -/
theorem toNat_effAddr_w32 {s : State} (h : s.cfg.aw = .w32) (p : Pfx) (ilen n : Nat) (m : AddrMode) :
    ((effAddr s p ilen n m).toNat : Int) =
      ((segBaseOf s (segOf p m)).toNat + addrSum (fun r => (readX s r).toNat) 0 n m) % 2 ^ 32 := by
  have hreg (r : GReg) : Cong 32 (narrow (addr32 s p) (readX s r)) ((readX s r).toNat) :=
    (Cong.self _).narrow
  obtain ⟨raw, hraw, hcong⟩ := offsetOf_cong (w := 32) (by decide) ilen n hreg
    (fun h64 => absurd (h.symm.trans h64) (by decide)) (fun _ => rfl) m
  rw [effAddr, hraw, h]
  exact ((Cong.self _).add (by decide) hcong.narrow).toNat_narrow_eq

/-- All six segments add their own base there (R49). -/
theorem segBaseOf_w32 {s : State} (h : s.cfg.aw = .w32) :
    segBaseOf s .cs = s.segBase.cs ∧ segBaseOf s .ss = s.segBase.ss ∧
      segBaseOf s .ds = s.segBase.ds ∧ segBaseOf s .es = s.segBase.es ∧
      segBaseOf s .fs = s.segBase.fs ∧ segBaseOf s .gs = s.segBase.gs := by
  simp [segBaseOf, h]

/-! ### The segment used and the factor N -/

theorem segOf_override {p : Pfx} {g : Seg} (h : p.seg = some g) (m : AddrMode) : segOf p m = g := by
  rw [segOf, h, Option.getD_some]

theorem segOf_default {p : Pfx} (h : p.seg = none) (m : AddrMode) : segOf p m = defaultSeg m := by
  rw [segOf, h, Option.getD_none]

theorem dispScale_of_not_evex {f : Form} (h : f.encClass = .legacy ∨ f.encClass = .vex) (bcst : Bool) :
    dispScale f bcst = 1 := by
  unfold dispScale
  rcases h with h | h <;> rw [h]

theorem dispScale_of_evex {f : Form} (h : f.encClass = .evex) (bcst : Bool) :
    dispScale f bcst = if bcst then 4 else f.vl.bytes := by
  simp only [dispScale, h]

/-! ### Many bytes listed -/

/-- Listing bytes leaves every address outside theirs alone. -/
theorem cellAt_setCells_outside : ∀ (bs : List Byte) (addr x : Nat) (cs : List Host.Cell),
    cellsWf cs = true → x < addr ∨ addr + bs.length ≤ x →
    cellAt (setCells addr bs cs) x = cellAt cs x
  | [], _, _, _, _, _ => rfl
  | b :: bs, addr, x, cs, hwf, hx => by
    rw [List.length_cons] at hx
    have hwf' : cellsWf (setCell addr b cs) = true :=
      cellsFrom_setCell addr b cs 0 (Nat.zero_le _) hwf
    rw [setCells, cellAt_setCells_outside bs (addr + 1) x _ hwf' (by omega)]
    exact cellAt_setCell_other addr x b (by omega) cs 0 hwf

/-- Every listed byte is read back at its address. -/
theorem cellAt_setCells_inside : ∀ (bs : List Byte) (addr k : Nat) (cs : List Host.Cell) (b : Byte),
    cellsWf cs = true → bs[k]? = some b → cellAt (setCells addr bs cs) (addr + k) = some b
  | [], _, _, _, _, _, hk => by simp at hk
  | c :: bs, addr, k, cs, b, hwf, hk => by
    have hwf' : cellsWf (setCell addr c cs) = true :=
      cellsFrom_setCell addr c cs 0 (Nat.zero_le _) hwf
    rw [setCells]
    cases k with
    | zero =>
      cases hk
      rw [cellAt_setCells_outside bs (addr + 1) _ _ hwf' (.inl (by omega))]
      exact cellAt_setCell_same addr c cs
    | succ k =>
      rw [show addr + (k + 1) = addr + 1 + k by omega]
      exact cellAt_setCells_inside bs (addr + 1) k _ b hwf' hk

end Sys2Proof.Machine
end

section
/-! PROOFS. Addresses and memory: the statements about spec/30_encoding.md section 5 and spec/20_memory.md. -/

namespace Sys2Proof.Proofs

open Sys2Proof.Machine

/-- Settles O45: the offset is congruent to R45's row, and the rest reads off the segment used and the
class. -/
theorem effectiveAddressRows : Obligations.EffectiveAddressRows := by
  refine ⟨fun s p ilen n m h => ⟨fun hp => offsetOf_wide h hp ilen n m,
      fun hp => offsetOf_narrow h hp ilen n m, fun hfs => ?fs, fun hgs => ?gs, fun hfs hgs => ?other⟩,
    fun p m g hg => segOf_override hg m, fun p hp => ⟨fun b idx d hb => ?stack, fun b idx d h4 h5 => ?data,
      fun idx d => ⟨segOf_default hp _, segOf_default hp _⟩⟩,
    fun f bcst => ⟨fun hc => dispScale_of_not_evex hc bcst, fun hc hb => ?full, fun hc hb => ?broadcast⟩,
    fun _ _ _ _ => rfl⟩
  case fs =>
    rw [effAddr_w64 h, hfs, BitVec.toNat_add]
    rfl
  case gs =>
    rw [effAddr_w64 h, hgs, BitVec.toNat_add]
    rfl
  case other => rw [effAddr_w64 h, segBaseOf_w64 h hfs hgs, BitVec.zero_add]
  case stack =>
    rw [segOf_default hp, segOf_default hp, defaultSeg, defaultSeg, if_pos hb]
    exact ⟨rfl, rfl⟩
  case data =>
    rw [segOf_default hp, segOf_default hp, defaultSeg, defaultSeg, if_neg (by simp [h4, h5])]
    exact ⟨rfl, rfl⟩
  case full =>
    rw [dispScale_of_evex hc, hb]
    exact Nat.mul_comm _ _
  case broadcast => rw [dispScale_of_evex hc, hb, if_pos rfl]

/-- Settles O46: the segment base and the row are congruent to integers modulo 2^32, and so is their sum. -/
theorem effectiveAddress32 : Obligations.EffectiveAddress32 :=
  fun _ p ilen n h => ⟨toNat_effAddr_w32 h p ilen n, segBaseOf_w32 h⟩

/-- Settles O47: a wide element is made of byte elements, and each of those is loaded from its address. -/
theorem loadIsLittleEndian : Obligations.LoadIsLittleEndian := by
  intro s addr n hn
  have hbyte (i : Nat) (hi : i < n) : elem 8 i (loadBytes s addr n) = readByte s (addr + i) :=
    elem_loadBytes s addr n i hn hi
  refine ⟨hbyte, fun e he => ?word, fun e he => ?dword⟩
  case word => rw [word_of_bytes, hbyte _ he, hbyte _ (by omega), Nat.add_assoc]
  case dword =>
    rw [dword_of_bytes, hbyte _ he, hbyte _ (by omega), hbyte _ (by omega), hbyte _ (by omega)]
    rfl

/-- Settles O48: the bytes listed are the low elements of the value, in order. -/
theorem memWriteStoresBytes : Obligations.MemWriteStoresBytes := by
  intro s addr n val hwf _
  refine ⟨fun i hi => ?stored, fun a ha => ?kept⟩
  case stored =>
    rw [readByte, memWrite, cellAt_setCells_inside _ _ _ _ (elem 8 i val) hwf (by simp [hi]),
      Option.getD_some]
  case kept =>
    rw [readByte, memWrite, cellAt_setCells_outside _ _ _ _ hwf (by simpa using ha)]
    rfl

end Sys2Proof.Proofs
end
